-- ==== Sys2Proof/Word.lean ====
section
/-! DEFINITION. The register word and the byte of the block (10_state.md R31, 20_memory.md R70). -/

namespace Sys2Proof

/-- A 64-bit register or command value (R31, R100). -/
abbrev Word := BitVec 64

/-- One 8-bit byte of host memory (R70). -/
abbrev Byte := BitVec 8

end Sys2Proof
end

