-- ==== Sys2Proof/Syntax.lean ====
section
/-! DEFINITION. The commands of the block: one constructor for each row of spec/opcode_table.json
(30_encoding.md R106). -/

namespace Sys2Proof

/-- The element byte width W of a Gorilla or BSS command (R9, R104). -/
inductive Width where
  | w1
  | w2
  | w4
  | w8
deriving DecidableEq, Repr

/-- A command. `n` is the 7-bit count field of R103, whose legal values are 1 to 64; `w` is the width that the
`wc` field selects (R104). -/
inductive Instr where
  /-- bind the reader to a source range (R133) -/
  | brInit
  /-- read `n` bits (R134) -/
  | brRead (n : BitVec 7)
  /-- read one bit (R135) -/
  | brReadbit
  /-- the next 8 bits, not consumed (R136) -/
  | brPeek
  /-- test whether the stream is used up (R137) -/
  | brEof
  /-- the number of bits consumed (R138) -/
  | brCount
  /-- the number of bits left (R139) -/
  | brRemain
  /-- detach the reader (R140) -/
  | brRelease
  /-- bind the writer to a destination range (R162) -/
  | bwInit
  /-- append the low `n` bits of ARG (R163) -/
  | bwWrite (n : BitVec 7)
  /-- pad to a byte boundary and make every byte final (R164) -/
  | bwFlush
  /-- the number of bits written (R165) -/
  | bwCount
  /-- flush, unless faulted, and detach the writer (R166) -/
  | bwRelease
  /-- Gorilla encode (R195) -/
  | gorEnc (w : Width)
  /-- Gorilla decode (R204) -/
  | gorDec (w : Width)
  /-- byte-stream-split encode (R240) -/
  | bssEnc (w : Width)
  /-- byte-stream-split decode (R242) -/
  | bssDec (w : Width)
deriving DecidableEq, Repr

end Sys2Proof
end

