-- ==== Sys2Proof/WellFormed.lean ====
section
/-! DEFINITION. Which commands are well formed: the operand ranges of 00_scope.md R11 and 30_encoding.md R103. -/

namespace Sys2Proof

/-- The legal bit counts, 1 to 64 (R11, R103). -/
def legalCount (n : BitVec 7) : Bool := decide (1 ≤ n.toNat) && decide (n.toNat ≤ 64)

/-- A command is well formed when its count, if it has one, is 1 to 64; every width is legal (R104). -/
def Instr.wellFormed : Instr → Bool
  | .brInit => true
  | .brRead n => legalCount n
  | .brReadbit => true
  | .brPeek => true
  | .brEof => true
  | .brCount => true
  | .brRemain => true
  | .brRelease => true
  | .bwInit => true
  | .bwWrite n => legalCount n
  | .bwFlush => true
  | .bwCount => true
  | .bwRelease => true
  | .gorEnc _ => true
  | .gorDec _ => true
  | .bssEnc _ => true
  | .bssDec _ => true

end Sys2Proof
end

