-- ==== Sys2Proof/Decode.lean ====
section
/-! DEFINITION. The decoder and the encoder of the 64-bit command value (30_encoding.md R100 to R112), and the match
and mask table of R107. -/

namespace Sys2Proof

/-- `opc = CMD[7:0]` (R102). -/
def opcField (c : Word) : BitVec 8 := c.extractLsb' 0 8

/-- `wc = CMD[9:8]` (R104). -/
def widthField (c : Word) : BitVec 2 := c.extractLsb' 8 2

/-- `n = CMD[22:16]` (R103). -/
def countField (c : Word) : BitVec 7 := c.extractLsb' 16 7

/-- Bits [15:10], [31:23] and [63:32], which must be 0 (R100). -/
def reservedClear (c : Word) : Bool :=
  c.extractLsb' 10 6 == 0 && c.extractLsb' 23 9 == 0 && c.extractLsb' 32 32 == 0

/-- The width that a width code selects: W = 2^wc (R104). -/
def Width.ofCode (wc : BitVec 2) : Width :=
  match wc.toNat with
  | 0 => .w1
  | 1 => .w2
  | 2 => .w4
  | _ => .w8

/-- The width code of a width (R104, R112). -/
def Width.code : Width → BitVec 2
  | .w1 => 0
  | .w2 => 1
  | .w4 => 2
  | .w8 => 3

/-- Why a CMD value spells no command (R108). The names are the model's; every one of them is ERR_ILLEGAL. -/
inductive IllegalReason where
  /-- a reserved bit of R100 is not 0 -/
  | reservedBit
  /-- `opc` is not in the map of R106 -/
  | unknownOpcode
  /-- a field the command does not use is not 0 (R101) -/
  | unusedField
  /-- `n` is 0 or 65 to 127 in BR.READ or BW.WRITE (R103) -/
  | countOutOfRange
deriving DecidableEq, Repr

/-- A command that uses no field (R101). -/
def plainCommand (c : Word) (i : Instr) : Except IllegalReason Instr :=
  if countField c = 0 ∧ widthField c = 0 then .ok i else .error .unusedField

/-- A command that uses `n` only (R103). -/
def countedCommand (c : Word) (k : BitVec 7 → Instr) : Except IllegalReason Instr :=
  if widthField c = 0 then
    (if legalCount (countField c) then .ok (k (countField c)) else .error .countOutOfRange)
  else .error .unusedField

/-- A command that uses `wc` only (R104). -/
def sizedCommand (c : Word) (k : Width → Instr) : Except IllegalReason Instr :=
  if countField c = 0 then .ok (k (Width.ofCode (widthField c))) else .error .unusedField

/-- Total decoding of a value written to CMD (R106 to R110). -/
def decode (c : Word) : Except IllegalReason Instr :=
  if reservedClear c then
    match (opcField c).toNat with
    | 0x01 => plainCommand c .brInit
    | 0x02 => countedCommand c .brRead
    | 0x03 => plainCommand c .brReadbit
    | 0x04 => plainCommand c .brPeek
    | 0x05 => plainCommand c .brEof
    | 0x06 => plainCommand c .brCount
    | 0x07 => plainCommand c .brRemain
    | 0x08 => plainCommand c .brRelease
    | 0x11 => plainCommand c .bwInit
    | 0x12 => countedCommand c .bwWrite
    | 0x13 => plainCommand c .bwFlush
    | 0x14 => plainCommand c .bwCount
    | 0x15 => plainCommand c .bwRelease
    | 0x21 => sizedCommand c .gorEnc
    | 0x22 => sizedCommand c .gorDec
    | 0x31 => sizedCommand c .bssEnc
    | 0x32 => sizedCommand c .bssDec
    | _ => .error .unknownOpcode
  else .error .reservedBit

/-- A command word of format "C" (R100): the three fields, every other bit 0. -/
def commandWord (opc : BitVec 8) (wc : BitVec 2) (n : BitVec 7) : Word :=
  0#41 ++ n ++ 0#6 ++ wc ++ opc

/-- The CMD value of a command (R112). -/
def encode : Instr → Word
  | .brInit => commandWord 0x01 0 0
  | .brRead n => commandWord 0x02 0 n
  | .brReadbit => commandWord 0x03 0 0
  | .brPeek => commandWord 0x04 0 0
  | .brEof => commandWord 0x05 0 0
  | .brCount => commandWord 0x06 0 0
  | .brRemain => commandWord 0x07 0 0
  | .brRelease => commandWord 0x08 0 0
  | .bwInit => commandWord 0x11 0 0
  | .bwWrite n => commandWord 0x12 0 n
  | .bwFlush => commandWord 0x13 0 0
  | .bwCount => commandWord 0x14 0 0
  | .bwRelease => commandWord 0x15 0 0
  | .gorEnc w => commandWord 0x21 w.code 0
  | .gorDec w => commandWord 0x22 w.code 0
  | .bssEnc w => commandWord 0x31 w.code 0
  | .bssDec w => commandWord 0x32 w.code 0

/-- One row of the match and mask table of R107. `counted` marks the extra condition 1 ≤ n ≤ 64. -/
structure OpcodeRow where
  pattern : Word
  mask : Word
  counted : Bool
deriving DecidableEq, Repr

/-- A value spells the command of a row when its masked bits are the row's pattern, subject to the extra condition
(R107). -/
def OpcodeRow.spells (r : OpcodeRow) (c : Word) : Bool :=
  c &&& r.mask == r.pattern && (!r.counted || legalCount (countField c))

/-- The row of R107 for a command. -/
def Instr.row : Instr → OpcodeRow
  | .brInit => ⟨0x0000000000000001, 0xFFFFFFFFFFFFFFFF, false⟩
  | .brRead _ => ⟨0x0000000000000002, 0xFFFFFFFFFF80FFFF, true⟩
  | .brReadbit => ⟨0x0000000000000003, 0xFFFFFFFFFFFFFFFF, false⟩
  | .brPeek => ⟨0x0000000000000004, 0xFFFFFFFFFFFFFFFF, false⟩
  | .brEof => ⟨0x0000000000000005, 0xFFFFFFFFFFFFFFFF, false⟩
  | .brCount => ⟨0x0000000000000006, 0xFFFFFFFFFFFFFFFF, false⟩
  | .brRemain => ⟨0x0000000000000007, 0xFFFFFFFFFFFFFFFF, false⟩
  | .brRelease => ⟨0x0000000000000008, 0xFFFFFFFFFFFFFFFF, false⟩
  | .bwInit => ⟨0x0000000000000011, 0xFFFFFFFFFFFFFFFF, false⟩
  | .bwWrite _ => ⟨0x0000000000000012, 0xFFFFFFFFFF80FFFF, true⟩
  | .bwFlush => ⟨0x0000000000000013, 0xFFFFFFFFFFFFFFFF, false⟩
  | .bwCount => ⟨0x0000000000000014, 0xFFFFFFFFFFFFFFFF, false⟩
  | .bwRelease => ⟨0x0000000000000015, 0xFFFFFFFFFFFFFFFF, false⟩
  | .gorEnc _ => ⟨0x0000000000000021, 0xFFFFFFFFFFFFFCFF, false⟩
  | .gorDec _ => ⟨0x0000000000000022, 0xFFFFFFFFFFFFFCFF, false⟩
  | .bssEnc _ => ⟨0x0000000000000031, 0xFFFFFFFFFFFFFCFF, false⟩
  | .bssDec _ => ⟨0x0000000000000032, 0xFFFFFFFFFFFFFCFF, false⟩

/-- The seventeen rows of R107, in the table's order. -/
def opcodeTable : List OpcodeRow :=
  [Instr.brInit.row, (Instr.brRead 1).row, Instr.brReadbit.row, Instr.brPeek.row, Instr.brEof.row,
   Instr.brCount.row, Instr.brRemain.row, Instr.brRelease.row, Instr.bwInit.row, (Instr.bwWrite 1).row,
   Instr.bwFlush.row, Instr.bwCount.row, Instr.bwRelease.row, (Instr.gorEnc .w1).row, (Instr.gorDec .w1).row,
   (Instr.bssEnc .w1).row, (Instr.bssDec .w1).row]

/-- The instruction the decoder reads from an instruction whose low `nbits` bits are `w` and whose other bits
are 0 (the whole instruction is one 64-bit value, R100). -/
def decodeTableWord (nbits w : Nat) : Option Instr :=
  match decode (BitVec.ofNat 64 (w % 2 ^ nbits)) with
  | .ok i => some i
  | .error _ => none

end Sys2Proof
end

