-- ==== Sys2Proof/Config.lean ====
section
/-! DEFINITION. What an implementation fixes (00_scope.md R13) and the free values: constants without a body,
so that no proof can know what they are. -/

namespace Sys2Proof.Config

/-- MAX_LEN, the largest legal range length in bytes (R13, R74). -/
def maxLen : Nat := 2 ^ 61 - 1

/-- The number of byte addresses, for ADDR_BITS = 64 (R13, R70). -/
def addrSpace : Nat := 2 ^ 64

/-- The length in bytes of an instance's register window (R31). -/
def windowSize : Nat := 0x100

/-- P_BW_COUNT_PAD: whether BW.COUNT counts the pad bits a flush inserted (R13, R165).
DESIGN CHOICE, safe: the spec leaves it OPEN, so it is a constant nothing is known of (log entry 5). -/
opaque bwCountPad : Bool

/-- The free bits: draw number `n` gives `freeBit n` (log entry 3). Used for a bit of a written source byte
(R300), for whether the writer stores a whole byte before a flush (R302, R303), and for whether GOR.DEC has stored a byte of a
decoded word when an item fails (R211). -/
opaque freeBit : Nat → Bool

/-- The free bytes (log entry 3): a destination byte that an error or a reset leaves unspecified
(R169, R202, R293). -/
opaque freeByte : Nat → Byte

/-- The free words (log entry 3): `br.pos` after an underrun (R50, R142). -/
opaque freeWord : Nat → Word

end Sys2Proof.Config
end

