-- ==== Sys2Proof/Machine/Bits.lean ====
section
/-! DEFINITION. Bit strings, bytes and words: the primitives of 00_scope.md R14 to R17 and the little-endian views of
20_memory.md R77 and R78. A bit string is a list of bits, first emitted first. Words of the engines are
natural numbers below 2^w, as R14 has every value of the pseudocode. -/

namespace Sys2Proof.Machine

open Sys2Proof

/-- `bits_n(v)`: bits n-1 down to 0 of `v`, most significant first (R16). For `v ≥ 2^n` it holds the low `n` bits. -/
def bitsN : Nat → Nat → List Bool
  | 0, _ => []
  | n + 1, v => v.testBit n :: bitsN n v

/-- `val(s)`: the unsigned value of a bit string read most significant bit first (R16). -/
def val : List Bool → Nat
  | [] => 0
  | b :: s => b.toNat * 2 ^ s.length + val s

/-- `zeros(k)` (R16). -/
def zeros (k : Nat) : List Bool := List.replicate k false

/-- `ceil8(k)`: the number of bytes that hold `k` bits (R14). -/
def ceil8 (k : Nat) : Nat := (k + 7) / 8

/-- How many zero bits pad `k` bits to a byte boundary (R17, R161). -/
def padLen (k : Nat) : Nat := (8 - k % 8) % 8

/-- `stream(B)`: the bits of a byte sequence, most significant bit of each byte first (R17). -/
def stream (bs : List Byte) : List Bool := bs.flatMap fun b => bitsN 8 b.toNat

/-- Cuts a bit string into `n` bytes, each the value of 8 consecutive bits (R17). -/
def cutBytes : Nat → List Bool → List Byte
  | 0, _ => []
  | n + 1, s => BitVec.ofNat 8 (val (s.take 8)) :: cutBytes n (s.drop 8)

/-- `pack(s)`: pads with zero bits to a byte boundary and cuts into bytes (R17). -/
def pack (s : List Bool) : List Byte := cutBytes (ceil8 s.length) (s ++ zeros (padLen s.length))

/-- The first `n` bits of a string and the rest, or none when fewer than `n` are left (R132). -/
def takeBits : Nat → List Bool → Option (List Bool × List Bool)
  | 0, s => some ([], s)
  | _ + 1, [] => none
  | n + 1, b :: s =>
    match takeBits n s with
    | some (t, r) => some (b :: t, r)
    | none => none

/-- How many zero bits a string begins with. -/
def leadingZeros : List Bool → Nat
  | false :: s => leadingZeros s + 1
  | _ => 0

/-- `clz_w(x)`: leading zero bits of `x`, counted from bit w-1 (R15). -/
def clz (w x : Nat) : Nat := leadingZeros (bitsN w x)

/-- `ctz(x)` of a value of `w` bits: trailing zero bits, counted from bit 0 (R15). -/
def ctz (w x : Nat) : Nat := leadingZeros (bitsN w x).reverse

/-- Bytes assembled little-endian: the first byte is bits [7:0] (R19, R77). -/
def leVal : List Byte → Nat
  | [] => 0
  | b :: bs => b.toNat + 256 * leVal bs

/-- The `n` little-endian bytes of `v` (R19, R78). -/
def leBytes : Nat → Nat → List Byte
  | 0, _ => []
  | n + 1, v => BitVec.ofNat 8 v :: leBytes n (v / 256)

/-- Puts `k` into a rising list without repeats. -/
def insertNat (k : Nat) : List Nat → List Nat
  | [] => [k]
  | x :: xs => if k < x then k :: x :: xs else if k = x then x :: xs else x :: insertNat k xs

/-- Takes `k` out of a list. -/
def eraseNat (k : Nat) : List Nat → List Nat
  | [] => []
  | x :: xs => if x = k then eraseNat k xs else x :: eraseNat k xs

end Sys2Proof.Machine
end

