-- ==== Sys2Proof/Machine/State.lean ====
section
/-! DEFINITION. The state of the instances of the block (10_state.md R30, R31, R50, R53, 60_exceptions.md R278), of host
memory, of the platform's map and of the host's remaining operations, and the reset state (70_reset_and_hazards.md R290). -/

namespace Sys2Proof.Machine

open Sys2Proof

/-- The error codes of 60_exceptions.md R261. -/
inductive ErrorCode where
  | illegal
  | unbound
  | faulted
  | range
  | overlap
  | length
  | capacity
  | underrun
  | corrupt
  | bus
deriving DecidableEq, Repr

/-- The unit that an error faults (R266): the reader on an underrun of a reader command, the writer on a capacity
error of BW.WRITE, and otherwise none. -/
inductive FaultUnit where
  | none
  | reader
  | writer
deriving DecidableEq, Repr

/-- BitReader unit state (R50). -/
structure BitReader where
  /-- the reader is attached to a source range -/
  bound : Bool
  /-- a read on the bound reader failed -/
  fault : Bool
  /-- first byte address of the bound source range -/
  base : Word
  /-- length in bytes of the bound source range -/
  len : Word
  /-- bits consumed since BR.INIT -/
  pos : Word
deriving DecidableEq, Repr

/-- BitWriter unit state (R53). -/
structure BitWriter where
  /-- the writer is attached to a destination range -/
  bound : Bool
  /-- a write on the bound writer failed -/
  fault : Bool
  /-- first byte address of the bound destination range -/
  base : Word
  /-- capacity in bytes of the bound destination range -/
  cap : Word
  /-- every bit appended since BW.INIT, in order, pad bits included -/
  bits : List Bool
  /-- bits appended by BW.WRITE since BW.INIT -/
  user : Word
  /-- destination bytes made final by the last flush -/
  final : Word
deriving DecidableEq, Repr

/-- Contents of host memory: the bytes that differ from what an unlisted address reads as, addresses rising
(R70; log entry 1). -/
abbrev Memory := List Host.Cell

/-- An instance of the block other than the one whose fields State holds (R278; log entry 18): its registers, its units
and its records of the hazards. -/
structure Block where
  /-- which of the platform's instances it is -/
  id : Nat
  /-- the agent that drives it (R277; log entry 19) -/
  driver : Nat
  cmd : Word
  err : Byte
  short : Bool
  arg : Word
  result : Word
  srcBase : Word
  srcLen : Word
  dstBase : Word
  dstCap : Word
  outLen : Word
  br : BitReader
  bw : BitWriter
  /-- as `stale` of MemSystem, of this instance's reader -/
  stale : List Nat
  /-- as `drained` of MemSystem, of this instance's writer -/
  drained : List Nat
deriving DecidableEq, Repr

/-- Host memory and all that a write of it concerns: the hazards of every instance (R300 to R303). All fields but the first
are the model's own, not the spec's; `stale` and `drained` are those of the instance whose registers State holds. -/
structure MemSystem where
  /-- the contents -/
  cells : Memory
  /-- offsets in the bound reader's range written since its BR.INIT, rising (R300; log entry 8) -/
  stale : List Nat
  /-- indices of the bound writer's whole, not yet final bytes that it has already stored, rising
  (R302; log entry 9) -/
  drained : List Nat
  /-- how many free values have been drawn (log entry 3) -/
  draws : Nat
  /-- the platform's other instances of the block (R278; log entry 18) -/
  others : List Block
deriving DecidableEq, Repr

/-- A stretch of byte addresses. -/
structure Region where
  base : Nat
  len : Nat
deriving DecidableEq, Repr

/-- What the platform fixes: the parameters P_INSTANCES, P_MMIO_BASE and P_MEM_ADMITS of R13, held as data that no step
changes (log entry 4). -/
structure Platform where
  /-- P_MMIO_BASE of each instance, the first address of its register window (R31); P_INSTANCES is their number -/
  windows : List Word
  /-- the addresses for which P_MEM_ADMITS is false (R72) -/
  denied : List Region
  /-- addresses at which a device with side effects stands (R85) -/
  devices : List Region
  /-- whether the platform can check a whole range before the first access (R262) -/
  checksAhead : Bool
deriving DecidableEq, Repr

/-- The width of a host access to the register window (R39). -/
inductive AccessSize where
  | byte
  | half
  | word
  | dword
deriving DecidableEq, Repr

/-- What the host does next (R7, R32, R111), and what can befall the block from outside (R290, R293). Window accesses and
resets are those of the instance turned to last. -/
inductive HostOp where
  /-- the window accesses that follow are to the window of instance `k` (R278; log entry 18) -/
  | select (k : Nat)
  /-- the window accesses that follow are agent `g`'s (R277; log entry 19) -/
  | turn (g : Nat)
  /-- the agent that drives the instance has finished with it, and agent `g` drives it from now on (R277; log entry 19) -/
  | handOver (g : Nat)
  /-- a store of `v` to the register window at an offset (R32 to R39) -/
  | regWrite (off : BitVec 8) (size : AccessSize) (v : Word)
  /-- a load from the register window at an offset (R31, R46) -/
  | regRead (off : BitVec 8) (size : AccessSize)
  /-- a store of one byte to memory, by the host or by another agent (R300, R303) -/
  | memWrite (a : Word) (b : Byte)
  /-- a load of one byte of memory (R302) -/
  | memRead (a : Word)
  /-- a reset between commands (R290, R291) -/
  | reset
  /-- a write of `c` to CMD whose command a reset cuts short (R293) -/
  | resetDuring (c : Word)
deriving DecidableEq, Repr

/-- The machine. The registers and units are those of one instance, the one the host's window accesses go to; the others
stand in `ms.others` (log entry 18). -/
structure State where
  /-- which of the platform's instances the registers and units below are (R278) -/
  id : Nat
  /-- the agent that drives this instance (R277; log entry 19) -/
  driver : Nat
  /-- CMD, the last command word written (R32) -/
  cmd : Word
  /-- STATUS.ERR, the error code of the last command (R40, R41) -/
  err : Byte
  /-- STATUS.SHORT (R40, R43) -/
  short : Bool
  /-- ARG (R33) -/
  arg : Word
  /-- RESULT (R34) -/
  result : Word
  /-- SRC_BASE (R35) -/
  srcBase : Word
  /-- SRC_LEN (R35) -/
  srcLen : Word
  /-- DST_BASE (R36) -/
  dstBase : Word
  /-- DST_CAP (R36) -/
  dstCap : Word
  /-- OUT_LEN (R37) -/
  outLen : Word
  /-- the BitReader unit (R50) -/
  br : BitReader
  /-- the BitWriter unit (R53) -/
  bw : BitWriter
  /-- host memory and its hazards (R70, R300 to R303) -/
  ms : MemSystem
  /-- the platform's map (R13; log entry 4) -/
  platform : Platform
  /-- the agent whose window accesses come next (R277; log entry 19) -/
  agent : Nat
  /-- the host's remaining operations, next first (R8; log entry 2) -/
  host : List HostOp
  /-- the value the host's last load returned (log entry 17) -/
  hostData : Word
deriving DecidableEq, Repr

/-- Why the machine is stuck. -/
inductive Fault where
  /-- Raised by a command that names a non-empty range on a platform that cannot check P_MEM_ADMITS for the whole range
  in advance: such a command has no step (R262, 93 O4). Safe: nothing is claimed of that platform. -/
  | noAdmissionCheck
deriving DecidableEq, Repr

/-- Why the model has no meaning for what the host did. -/
inductive Refusal where
  /-- Raised by no meaning; the name for an instruction that would have none yet. Safe. -/
  | notModelled (mnemonic : String)
  /-- Raised by a host access that touches the register window other than by an aligned 64-bit load or store (R39, 93 O1).
  Safe: the spec gives it no meaning. -/
  | windowAccess
  /-- Raised by an access to an instance's register window by an agent other than the one that drives the instance, and by
  its handing the instance over (R277, 93 O3; log entry 19). Safe: the spec gives such a program no meaning. -/
  | sharedInstance
  /-- Raised by the host's turning to an instance that the platform does not hold (R278; log entry 18). Safe: there is no
  such window. -/
  | noInstance
  /-- Raised by a command whose range covers a device or an instance's register window (R85, 93 O2), and by the host's
  own access to a device. Safe: the spec gives it no outcome. -/
  | deviceRange
deriving DecidableEq, Repr

/-- The outcome of one step of this machine. -/
abbrev Result := Host.Outcome State Fault Refusal

/-- The BitReader after reset (R50, R290). -/
def BitReader.reset : BitReader := ⟨false, false, 0, 0, 0⟩

/-- The BitWriter after reset (R53, R290). -/
def BitWriter.reset : BitWriter := ⟨false, false, 0, 0, [], 0, 0⟩

/-- The platform of the reset state: one instance, every byte admitted, no device, checks made in advance, the window away
from low memory. DESIGN CHOICE, unsafe: the spec leaves these OPEN (log entry 4). -/
def Platform.default : Platform := ⟨[0xFFFFFFFF00000000], [], [], true⟩

/-- The machine right after reset: every register 0, both units unbound, the writer empty (R290), memory with nothing
listed. -/
def State.reset : State :=
  { id := 0, driver := 0, cmd := 0, err := 0, short := false, arg := 0, result := 0,
    srcBase := 0, srcLen := 0, dstBase := 0, dstCap := 0, outLen := 0,
    br := BitReader.reset, bw := BitWriter.reset,
    ms := ⟨[], [], [], 0, []⟩, platform := Platform.default, agent := 0, host := [], hostData := 0 }

end Sys2Proof.Machine
end

