-- ==== Sys2Proof/Machine/Flags.lean ====
section
/-! DEFINITION. The STATUS register: the error codes of 60_exceptions.md R261 and the fields of 10_state.md R40, of which
only ERR and SHORT are stored (R42). -/

namespace Sys2Proof.Machine

open Sys2Proof

/-- The code of an error (R261). -/
def ErrorCode.code : ErrorCode → Byte
  | .illegal => 1
  | .unbound => 2
  | .faulted => 3
  | .range => 4
  | .overlap => 5
  | .length => 6
  | .capacity => 7
  | .underrun => 8
  | .corrupt => 9
  | .bus => 10

/-- The writer is dirty: bound, not faulted, and holding a bit that no flush has made final (R54). -/
def BitWriter.dirty (bw : BitWriter) : Bool :=
  bw.bound && !bw.fault && decide (8 * bw.final.toNat < bw.bits.length)

/-- What a read of STATUS returns (R40, R42, R44): bits [63:14] are 0, then BW_DIRTY, SHORT, BW_FAULT, BW_BOUND,
BR_FAULT, BR_BOUND, and ERR in bits [7:0]. -/
def State.status (s : State) : Word :=
  0#50 ++ BitVec.ofBool s.bw.dirty ++ BitVec.ofBool s.short ++ BitVec.ofBool s.bw.fault ++ BitVec.ofBool s.bw.bound
    ++ BitVec.ofBool s.br.fault ++ BitVec.ofBool s.br.bound ++ s.err

end Sys2Proof.Machine
end

