-- ==== Sys2Proof/Machine/Ops.lean ====
section
/-! DEFINITION. The named operations over memory and registers: reads and writes of memory with the hazards of
70_reset_and_hazards.md R300 to R303, the end of a command (00_scope.md R20), taking an error (60_exceptions.md R266)
and reset (R290). There is no return from an error (R268): the next command runs as any other. -/

namespace Sys2Proof.Machine

open Sys2Proof

/-! ## Memory contents -/

/-- What a byte of memory that nothing has written reads as. DESIGN CHOICE, unsafe (log entry 1): the spec gives memory
no contents at power-on. -/
def blankByte : Byte := 0

/-- The byte at an address (R19). -/
def Memory.read : Memory → Nat → Byte
  | [], _ => blankByte
  | (k, v) :: m, a => if k = a then v else Memory.read m a

/-- Takes the byte at an address out of the list, so that it reads as blank. -/
def Memory.erase : Memory → Nat → Memory
  | [], _ => []
  | (k, v) :: m, a => if k = a then Memory.erase m a else (k, v) :: Memory.erase m a

/-- Lists a byte at an address, keeping the addresses rising. -/
def Memory.insert : Memory → Nat → Byte → Memory
  | [], a, b => [(a, b)]
  | (k, v) :: m, a, b =>
    if a < k then (a, b) :: (k, v) :: m
    else if a = k then (a, b) :: m
    else (k, v) :: Memory.insert m a b

/-- `MemWrite(a, 1, b)` (R19). A byte that reads as blank is not listed, so that equal memories are equal lists. -/
def Memory.write (m : Memory) (a : Nat) (b : Byte) : Memory :=
  if b = blankByte then Memory.erase m a else Memory.insert m a b

/-- The canonical form, from a lower bound on: addresses rising from `lo`, no listed byte blank. -/
def Memory.wfFrom : Nat → Memory → Bool
  | _, [] => true
  | lo, (k, v) :: m => decide (lo ≤ k) && (v != blankByte) && Memory.wfFrom (k + 1) m

/-- The canonical form of memory: addresses strictly rising, no entry equal to what an unlisted address reads as. -/
def Memory.wf (m : Memory) : Bool := Memory.wfFrom 0 m

/-- `MemBytes(a, n)` (R19). -/
def Memory.bytes (m : Memory) (a : Nat) : Nat → List Byte
  | 0 => []
  | n + 1 => Memory.read m a :: Memory.bytes m (a + 1) n

/-- `MemRead(a, n)`: the little-endian value of `n` bytes (R19, R77). -/
def Memory.word (m : Memory) (a n : Nat) : Nat := leVal (Memory.bytes m a n)

/-- The `n` words of `w` bytes at `a` (R192). -/
def Memory.words (m : Memory) (a w : Nat) : Nat → List Nat
  | 0 => []
  | n + 1 => Memory.word m a w :: Memory.words m (a + w) w n

/-- Bit `k` of the stream of the bytes at `base` (R17, R52): bit 7 - (k mod 8) of byte k div 8. -/
def Memory.streamBit (m : Memory) (base k : Nat) : Bool := (Memory.read m (base + k / 8)).getLsbD (7 - k % 8)

/-! ## Writes and their hazards -/

/-- An address lies in the range of the bound reader. -/
def BitReader.covers (br : BitReader) (a : Nat) : Bool :=
  br.bound && decide (br.base.toNat ≤ a) && decide (a < br.base.toNat + br.len.toNat)

/-- An address holds a whole byte of the bound writer that is not yet final (R302 (b)). -/
def BitWriter.awaits (bw : BitWriter) (a : Nat) : Bool :=
  bw.bound && !bw.fault && decide (bw.base.toNat + bw.final.toNat ≤ a)
    && decide (8 * (a - bw.base.toNat + 1) ≤ bw.bits.length)

/-- The record of written source bytes after a write at `a`: in the bound reader's range, the byte's bits not yet consumed
become unspecified (R300, R301; log entry 8). -/
def BitReader.noteWrite (br : BitReader) (a : Nat) (stale : List Nat) : List Nat :=
  if br.covers a then insertNat (a - br.base.toNat) stale else stale

/-- The record of early stores after a write at `a` that is not the writer's own. On a whole byte that is not yet final,
whether a later flush replaces the value written is unspecified: `free` decides (R303 (b); log entry 10). -/
def BitWriter.noteWrite (bw : BitWriter) (a : Nat) (free : Bool) (drained : List Nat) : List Nat :=
  if bw.awaits a then
    (if free then insertNat (a - bw.base.toNat) drained else eraseNat (a - bw.base.toNat) drained)
  else drained

/-- What a write at `a` is to an instance that did not make it: another agent's (R278, R300, R303). -/
def Block.noteWrite (p : Block) (a draw : Nat) : Block :=
  { p with
    stale := p.br.noteWrite a p.stale
    drained := p.bw.noteWrite a (Config.freeBit draw) p.drained }

/-- `noteWrite` of every other instance, the draws numbered from `draw`. -/
def noteWrites (a : Nat) : Nat → List Block → List Block
  | _, [] => []
  | draw, p :: ps => p.noteWrite a draw :: noteWrites a (draw + 1) ps

/-- A write of one byte: memory, the record of the bound reader `br`, and what it is to the other instances. -/
def MemSystem.put (m : MemSystem) (br : BitReader) (a : Nat) (b : Byte) : MemSystem :=
  { m with
    cells := Memory.write m.cells a b
    stale := br.noteWrite a m.stale
    others := noteWrites a m.draws m.others
    draws := m.draws + m.others.length }

/-- A write of one byte by the host, by another agent or by a Gorilla or BSS command, which concerns the bound writer `bw`
too (R303). -/
def MemSystem.putForeign (m : MemSystem) (br : BitReader) (bw : BitWriter) (a : Nat) (b : Byte) : MemSystem :=
  { ({ m with draws := m.draws + 1 }).put br a b with
    drained := bw.noteWrite a (Config.freeBit m.draws) m.drained }

/-- Consecutive bytes written from `a` up by a Gorilla or BSS command. -/
def MemSystem.putAll (br : BitReader) (bw : BitWriter) : MemSystem → Nat → List Byte → MemSystem
  | m, _, [] => m
  | m, a, b :: bs => MemSystem.putAll br bw (m.putForeign br bw a b) (a + 1) bs

/-- Leaves `n` bytes from `a` up unspecified: each gets a free value, fixed until it is written again
(R169, R202, R293; log entry 11). -/
def MemSystem.scramble (br : BitReader) (bw : BitWriter) : MemSystem → Nat → Nat → MemSystem
  | m, _, 0 => m
  | m, a, n + 1 =>
    MemSystem.scramble br bw
      (({ m with draws := m.draws + 1 }).putForeign br bw a (Config.freeByte m.draws)) (a + 1) n

/-- Consecutive bytes from `a` up that a command may have written before an error: each is written or keeps its value, a
free choice (R211; log entry 11). -/
def MemSystem.putSome (br : BitReader) (bw : BitWriter) : MemSystem → Nat → List Byte → MemSystem
  | m, _, [] => m
  | m, a, b :: bs =>
    MemSystem.putSome br bw
      (if Config.freeBit m.draws then ({ m with draws := m.draws + 1 }).putForeign br bw a b
       else { m with draws := m.draws + 1 }) (a + 1) bs

/-- During a BW.WRITE the writer may store its whole byte `k`, unless it has done so before: a free choice
(R84 (a), R302 (b); log entry 9). -/
def MemSystem.drainByte (m : MemSystem) (br : BitReader) (bw : BitWriter) (k : Nat) (b : Byte) : MemSystem :=
  if m.drained.contains k then m
  else if Config.freeBit m.draws then
    { ({ m with draws := m.draws + 1 }).put br (bw.base.toNat + k) b with drained := insertNat k m.drained }
  else { m with draws := m.draws + 1 }

/-- The free choice of `drainByte` for the whole bytes `bs` from index `k` up. -/
def MemSystem.drain (br : BitReader) (bw : BitWriter) : MemSystem → Nat → List Byte → MemSystem
  | m, _, [] => m
  | m, k, b :: bs => MemSystem.drain br bw (m.drainByte br bw k b) (k + 1) bs

/-- A flush makes byte `k` final (R161). A byte the writer has already stored keeps what memory holds (R303 (b)); the
bound reader takes it as written now all the same (R301; log entry 8). -/
def MemSystem.flushByte (m : MemSystem) (br : BitReader) (bw : BitWriter) (k : Nat) (b : Byte) : MemSystem :=
  { m.put br (bw.base.toNat + k) b with
    cells := if m.drained.contains k then m.cells else Memory.write m.cells (bw.base.toNat + k) b }

/-- `flushByte` for the bytes `bs` from index `k` up. -/
def MemSystem.flushBytes (br : BitReader) (bw : BitWriter) : MemSystem → Nat → List Byte → MemSystem
  | m, _, [] => m
  | m, k, b :: bs => MemSystem.flushBytes br bw (m.flushByte br bw k b) (k + 1) bs

/-- The byte of memory at an address. -/
def State.byteAt (s : State) (a : Nat) : Byte := Memory.read s.ms.cells a

/-! ## The end of a command -/

/-- `complete` (R20): ERR and SHORT are 0. -/
def State.complete (s : State) : State := { s with err := 0, short := false }

/-- `complete` after writing RESULT (R34). -/
def State.answer (s : State) (v : Word) : State := { s with err := 0, short := false, result := v }

/-- `complete` after writing OUT_LEN and SHORT (R37, R43). -/
def State.deliver (s : State) (n : Nat) (short : Bool) : State :=
  { s with err := 0, short := short, outLen := BitVec.ofNat 64 n }

/-- Error entry (R20, R266): ERR gets the code; SHORT, RESULT and OUT_LEN get 0; the faulted unit's fault bit is set,
and `br.pos` is then unspecified (R50, R142; log entry 6). What the command did to memory is its own rule's (R265). -/
def State.raise (s : State) (u : FaultUnit) (e : ErrorCode) : State :=
  { s with
    err := e.code, short := false, result := 0, outLen := 0
    br := match u with
      | .reader => { s.br with fault := true, pos := Config.freeWord s.ms.draws }
      | .writer => s.br
      | .none => s.br
    bw := match u with
      | .writer => { s.bw with fault := true }
      | .reader => s.bw
      | .none => s.bw
    ms := match u with
      | .reader => { s.ms with draws := s.ms.draws + 1 }
      | .writer => { s.ms with drained := [] }
      | .none => s.ms }

/-- Leaves `n` bytes of memory from `a` up unspecified (log entry 11). -/
def State.scramble (s : State) (a n : Nat) : State := { s with ms := MemSystem.scramble s.br s.bw s.ms a n }

/-- Stores the output of a Gorilla or BSS command at `a` (R202, R210, R240). -/
def State.store (s : State) (a : Nat) (bs : List Byte) : State :=
  { s with ms := MemSystem.putAll s.br s.bw s.ms a bs }

/-- Stores some of the output of a command that an error ended (R211; log entry 11). -/
def State.storeSome (s : State) (a : Nat) (bs : List Byte) : State :=
  { s with ms := MemSystem.putSome s.br s.bw s.ms a bs }

/-! ## Instances -/

/-- The instance whose registers and units the state holds, as the others are held. -/
def State.block (s : State) : Block :=
  { id := s.id, driver := s.driver, cmd := s.cmd, err := s.err, short := s.short, arg := s.arg, result := s.result,
    srcBase := s.srcBase, srcLen := s.srcLen, dstBase := s.dstBase, dstCap := s.dstCap, outLen := s.outLen,
    br := s.br, bw := s.bw, stale := s.ms.stale, drained := s.ms.drained }

/-- The state whose registers and units are those of `p`, the other instances being `others`. -/
def State.become (s : State) (p : Block) (others : List Block) : State :=
  { s with
    id := p.id, driver := p.driver, cmd := p.cmd, err := p.err, short := p.short, arg := p.arg, result := p.result,
    srcBase := p.srcBase, srcLen := p.srcLen, dstBase := p.dstBase, dstCap := p.dstCap, outLen := p.outLen,
    br := p.br, bw := p.bw
    ms := { s.ms with stale := p.stale, drained := p.drained, others := others } }

/-- Takes instance `k` out of a list of instances and puts `b` in its place. -/
def exchange (k : Nat) (b : Block) : List Block → Option (Block × List Block)
  | [] => none
  | p :: ps =>
    if p.id = k then some (p, b :: ps)
    else
      match exchange k b ps with
      | some (q, qs) => some (q, p :: qs)
      | none => none

/-! ## Reset -/

/-- What a reset does to the instance (R290, R291, R294): every register and both units at their reset values; memory, the
other instances, the platform and the host as they were (log entry 23). No bit of the writer is flushed. -/
def State.applyReset (s : State) : State :=
  { State.reset with
    ms := { s.ms with stale := [], drained := [] }
    id := s.id, driver := s.driver, agent := s.agent
    platform := s.platform, host := s.host, hostData := s.hostData }

end Sys2Proof.Machine
end

