-- ==== Sys2Proof/Machine/Operands.lean ====
section
/-! DEFINITION. The operands of the commands that are not fields of the command word (30_encoding.md R105): widths
(00_scope.md R9, R10), ranges and their checks (20_memory.md R72, R74, R75, 43_gorilla.md R194), and the readiness
of the two units (R131, R161). -/

namespace Sys2Proof

/-- The element width W in bytes (R9, R104). -/
def Width.bytes : Width → Nat
  | .w1 => 1
  | .w2 => 2
  | .w4 => 4
  | .w8 => 8

/-- The word width w = 8 * W in bits (R9). -/
def Width.bits (w : Width) : Nat := 8 * w.bytes

/-- DATA_BITLEN (R10). -/
def Width.dataBitlen : Width → Nat
  | .w1 => 4
  | .w2 => 5
  | .w4 => 6
  | .w8 => 7

/-- LEADING_ZERO_BITLEN (R10). -/
def Width.leadingZeroBitlen : Width → Nat
  | .w1 => 3
  | .w2 => 4
  | .w4 => 5
  | .w8 => 6

end Sys2Proof

namespace Sys2Proof.Machine

open Sys2Proof

/-! ## Ranges -/

/-- A legal range: no longer than MAX_LEN and not past the top of memory (R74). -/
def legalRange (base len : Word) : Bool :=
  decide (len.toNat ≤ Config.maxLen) && decide (base.toNat + len.toNat ≤ Config.addrSpace)

/-- An address lies in a region. -/
def Region.contains (r : Region) (a : Nat) : Bool := decide (r.base ≤ a) && decide (a < r.base + r.len)

/-- Two regions share a byte (R75). -/
def Region.meets (r t : Region) : Bool :=
  decide (0 < r.len) && decide (0 < t.len) && decide (r.base < t.base + t.len) && decide (t.base < r.base + r.len)

/-- The region of a register pair. -/
def regionOf (base len : Word) : Region := ⟨base.toNat, len.toNat⟩

/-- The register windows of the platform's instances (R31, R278). -/
def Platform.windowRegions (p : Platform) : List Region := p.windows.map fun b => ⟨b.toNat, Config.windowSize⟩

/-- P_MEM_ADMITS(a) (R13, R72). -/
def Platform.admits (p : Platform) (a : Nat) : Bool := !p.denied.any fun r => r.contains a

/-- The outcome of the checks a command makes on the ranges it names. -/
inductive Admission where
  /-- the command goes on -/
  | pass
  /-- the command raises an error -/
  | error (e : ErrorCode)
  /-- the platform cannot check in advance: the command has no step (R262) -/
  | stuck
  /-- a range covers a device or a register window: the host's program is refused (R85) -/
  | device
deriving DecidableEq, Repr

/-- The check of P_MEM_ADMITS for every byte of the ranges a command names (R72, R262), then the refusal of R85
(log entry 13). -/
def Platform.admission (p : Platform) (rs : List Region) : Admission :=
  if rs.all fun r => r.len == 0 then .pass
  else if !p.checksAhead then .stuck
  else if rs.any fun r => p.denied.any r.meets then .error .bus
  else if rs.any fun r => (p.windowRegions ++ p.devices).any r.meets then .device
  else .pass

/-- The checks of BR.INIT and BW.INIT on their range (R133, R162). -/
def Platform.admitOne (p : Platform) (base len : Word) : Admission :=
  if legalRange base len then p.admission [regionOf base len] else .error .range

/-- The source range of a Gorilla or BSS command (R71). -/
def State.srcRegion (s : State) : Region := regionOf s.srcBase s.srcLen

/-- The destination range of a Gorilla or BSS command (R71). -/
def State.dstRegion (s : State) : Region := regionOf s.dstBase s.dstCap

/-- The checks common to GOR.ENC, GOR.DEC, BSS.ENC and BSS.DEC, in the order of R194 and R263. -/
def State.arrayAdmission (s : State) : Admission :=
  if !legalRange s.srcBase s.srcLen then .error .range
  else if !legalRange s.dstBase s.dstCap then .error .range
  else if s.srcRegion.meets s.dstRegion then .error .overlap
  else s.platform.admission [s.srcRegion, s.dstRegion]

/-! ## Units -/

/-- `br_ready()`: the error of a reader that is unbound or faulted (R131). -/
def State.brReady (s : State) : Option ErrorCode :=
  if !s.br.bound then some .unbound else if s.br.fault then some .faulted else none

/-- `bw_ready()`: the error of a writer that is unbound or faulted (R161). -/
def State.bwReady (s : State) : Option ErrorCode :=
  if !s.bw.bound then some .unbound else if s.bw.fault then some .faulted else none

/-- `remaining` (R51). -/
def BitReader.remaining (br : BitReader) : Nat := 8 * br.len.toNat - br.pos.toNat

end Sys2Proof.Machine
end

