-- ==== Sys2Proof/Machine/BitReader.lean ====
section
/-! DEFINITION. The BitReader commands (41_bitreader.md R130 to R142). -/

namespace Sys2Proof.Machine

open Sys2Proof

/-- Stream bit `k` of the bound reader (R52, R130). A bit of a byte written since BR.INIT is a free value, drawn at
`draw` (R300; log entry 8). -/
def State.readerBit (s : State) (k draw : Nat) : Bool :=
  if s.ms.stale.contains (k / 8) then Config.freeBit draw else Memory.streamBit s.ms.cells s.br.base.toNat k

/-- `n` stream bits from position `k`, the draws numbered from `draw`. -/
def State.readerBits (s : State) : Nat → Nat → Nat → List Bool
  | _, _, 0 => []
  | k, draw, n + 1 => s.readerBit k draw :: State.readerBits s (k + 1) (draw + 1) n

/-- The value of the next `n` bits (R132, R136). -/
def State.nextBits (s : State) (n : Nat) : Word := BitVec.ofNat 64 (val (s.readerBits s.br.pos.toNat s.ms.draws n))

/-- The free values of `n` bits are used up: another read of the same bits draws afresh (R300). -/
def State.spend (s : State) (n : Nat) : State := { s with ms := { s.ms with draws := s.ms.draws + n } }

/-- `br_take(n)` as a whole command: RESULT gets the next `n` bits and `br.pos` moves past them, or the read fails and
faults the reader (R132). -/
def State.brTake (s : State) (n : Nat) : Result :=
  match s.brReady with
  | some e => .next (s.raise .none e)
  | none =>
    if s.br.remaining < n then .next (s.raise .reader .underrun)
    else .next ({ s.spend n with
                  br := { s.br with pos := BitVec.ofNat 64 (s.br.pos.toNat + n) } }.answer (s.nextBits n))

/-- A command that only reports a value of the reader (R137, R138, R139). -/
def State.brReport (s : State) (v : Word) : Result :=
  match s.brReady with
  | some e => .next (s.raise .none e)
  | none => .next (s.answer v)

/-- BR.INIT (R133). -/
def execBrInit (s : State) : Result :=
  match s.platform.admitOne s.srcBase s.srcLen with
  | .error e => .next (s.raise .none e)
  | .stuck => .fault .noAdmissionCheck
  | .device => .refused .deviceRange
  | .pass =>
    .next ({ s with
             br := { bound := true, fault := false, base := s.srcBase, len := s.srcLen, pos := 0 }
             ms := { s.ms with stale := [] } }.complete)

/-- BR.READ n (R134). A count outside 1 to 64 is ERR_ILLEGAL (R108); no CMD value decodes to one. -/
def execBrRead (n : BitVec 7) (s : State) : Result :=
  if legalCount n then s.brTake n.toNat else .next (s.raise .none .illegal)

/-- BR.READBIT (R135). -/
def execBrReadbit (s : State) : Result := s.brTake 1

/-- BR.PEEK (R136). -/
def execBrPeek (s : State) : Result :=
  match s.brReady with
  | some e => .next (s.raise .none e)
  | none =>
    if s.br.remaining < 8 then .next (s.raise .reader .underrun)
    else .next ((s.spend 8).answer (s.nextBits 8))

/-- BR.EOF (R137). -/
def execBrEof (s : State) : Result := s.brReport (if s.br.remaining = 0 then 1 else 0)

/-- BR.COUNT (R138). -/
def execBrCount (s : State) : Result := s.brReport s.br.pos

/-- BR.REMAIN (R139). -/
def execBrRemain (s : State) : Result := s.brReport (BitVec.ofNat 64 s.br.remaining)

/-- BR.RELEASE (R140). After it the former source range may be written freely (R300). -/
def execBrRelease (s : State) : Result :=
  .next ({ s with
           br := { s.br with bound := false, fault := false }
           ms := { s.ms with stale := [] } }.complete)

end Sys2Proof.Machine
end

