-- ==== Sys2Proof/Machine/BitWriter.lean ====
section
/-! DEFINITION. The BitWriter commands (42_bitwriter.md R160 to R172). -/

namespace Sys2Proof.Machine

open Sys2Proof

/-- The writer's bits after the pad of a flush (R161). -/
def BitWriter.padded (bw : BitWriter) : List Bool := bw.bits ++ zeros (padLen bw.bits.length)

/-- `bw_flush()` (R161): pads to a byte boundary and makes every byte of the writer final. -/
def State.bwFlush (s : State) : State :=
  { s with
    bw := { s.bw with bits := s.bw.padded, final := BitVec.ofNat 64 (s.bw.padded.length / 8) }
    ms := { MemSystem.flushBytes s.br s.bw s.ms s.bw.final.toNat ((pack s.bw.padded).drop s.bw.final.toNat) with
            drained := [] } }

/-- The flush at the end of a binding: only of a writer that is bound and has not faulted (R162, R166). -/
def State.bwSettle (s : State) : State := if s.bw.bound && !s.bw.fault then s.bwFlush else s

/-- The writer after `n` bits of ARG have been appended (R163). -/
def State.bwAppend (s : State) (n : Nat) : State :=
  { s with
    bw := { s.bw with bits := s.bw.bits ++ bitsN n s.arg.toNat, user := s.bw.user + BitVec.ofNat 64 n } }

/-- During a BW.WRITE the writer may store whole bytes that are not yet final (R84 (a), R302 (b); log entry 9). -/
def State.bwDrain (s : State) : State :=
  { s with
    ms := MemSystem.drain s.br s.bw s.ms s.bw.final.toNat
            (((pack s.bw.bits).take (s.bw.bits.length / 8)).drop s.bw.final.toNat) }

/-- BW.INIT (R162). -/
def execBwInit (s : State) : Result :=
  match s.platform.admitOne s.dstBase s.dstCap with
  | .error e => .next (s.raise .none e)
  | .stuck => .fault .noAdmissionCheck
  | .device => .refused .deviceRange
  | .pass =>
    .next ({ s.bwSettle with
             bw := { bound := true, fault := false, base := s.dstBase, cap := s.dstCap,
                     bits := [], user := 0, final := 0 }
             ms := { s.bwSettle.ms with drained := [] } }.complete)

/-- BW.WRITE n (R163). When the bits do not fit, the writer faults, and every byte of its range that is not final is
unspecified (R169). A count outside 1 to 64 is ERR_ILLEGAL (R108); no CMD value decodes to one. -/
def execBwWrite (n : BitVec 7) (s : State) : Result :=
  if legalCount n then
    match s.bwReady with
    | some e => .next (s.raise .none e)
    | none =>
      if 8 * s.bw.cap.toNat < s.bw.bits.length + n.toNat then
        .next ((s.raise .writer .capacity).scramble (s.bw.base.toNat + s.bw.final.toNat)
                (s.bw.cap.toNat - s.bw.final.toNat))
      else .next ((s.bwAppend n.toNat).bwDrain.complete)
  else .next (s.raise .none .illegal)

/-- BW.FLUSH (R164). -/
def execBwFlush (s : State) : Result :=
  match s.bwReady with
  | some e => .next (s.raise .none e)
  | none => .next (s.bwFlush.deliver s.bwFlush.bw.final.toNat false)

/-- BW.COUNT (R165). -/
def execBwCount (s : State) : Result :=
  match s.bwReady with
  | some e => .next (s.raise .none e)
  | none => .next (s.answer (if Config.bwCountPad then BitVec.ofNat 64 s.bw.bits.length else s.bw.user))

/-- BW.RELEASE (R166): OUT_LEN is written only when a flush took place. -/
def execBwRelease (s : State) : Result :=
  .next ({ s.bwSettle with
           outLen := if s.bw.bound && !s.bw.fault then s.bwSettle.bw.final else s.outLen
           bw := { s.bwSettle.bw with bound := false, fault := false }
           ms := { s.bwSettle.ms with drained := [] } }.complete)

end Sys2Proof.Machine
end

