-- ==== Sys2Proof/Machine/ByteStreamSplit.lean ====
section
/-! DEFINITION. The byte-stream-split commands (44_bytestreamsplit.md R240 to R243). -/

namespace Sys2Proof.Machine

open Sys2Proof

/-- The W planes of N elements of W bytes: byte `b * N + i` of the planes is byte `i * W + b` of the elements (R241). -/
def bssSplit (w n : Nat) (bs : List Byte) : List Byte :=
  (List.range w).flatMap fun b => (List.range n).map fun i => bs.getD (i * w + b) 0

/-- The N elements of W planes: byte `i * W + b` of the elements is byte `b * N + i` of the planes (R241, R242). -/
def bssJoin (w n : Nat) (bs : List Byte) : List Byte :=
  (List.range n).flatMap fun i => (List.range w).map fun b => bs.getD (b * n + i) 0

/-- The bytes of the source range. -/
def State.srcBytes (s : State) : List Byte := Memory.bytes s.ms.cells s.srcBase.toNat s.srcLen.toNat

/-- BSS.ENC and BSS.DEC after the checks of R194: the length and capacity checks, then the bytes that `f` makes of the
element count and the source bytes (R240, R242). -/
def State.bssMove (s : State) (w : Width) (f : Nat → List Byte → List Byte) : State :=
  if s.srcLen.toNat % w.bytes ≠ 0 then s.raise .none .length
  else if s.dstCap.toNat < s.srcLen.toNat then s.raise .none .capacity
  else
    (s.store s.dstBase.toNat (f (s.srcLen.toNat / w.bytes) s.srcBytes)).deliver s.srcLen.toNat false

/-- BSS.ENC wW (R240). -/
def execBssEnc (w : Width) (s : State) : Result :=
  match s.arrayAdmission with
  | .error e => .next (s.raise .none e)
  | .stuck => .fault .noAdmissionCheck
  | .device => .refused .deviceRange
  | .pass => .next (s.bssMove w (bssSplit w.bytes))

/-- BSS.DEC wW (R242). -/
def execBssDec (w : Width) (s : State) : Result :=
  match s.arrayAdmission with
  | .error e => .next (s.raise .none e)
  | .stuck => .fault .noAdmissionCheck
  | .device => .refused .deviceRange
  | .pass => .next (s.bssMove w (bssJoin w.bytes))

end Sys2Proof.Machine
end

