-- ==== Sys2Proof/Machine/Gorilla.lean ====
section
/-! DEFINITION. The Gorilla commands (43_gorilla.md R190 to R216). Words are natural numbers below 2^w (R14, R192). -/

namespace Sys2Proof.Machine

open Sys2Proof

/-- The window in force, `[lz, data_bits, tz]` (R200). -/
structure Window where
  lz : Nat
  dataBits : Nat
  tz : Nat
deriving DecidableEq, Repr

/-- The window at a command's start (R200). -/
def Window.initial : Window := ⟨0, 0, 0⟩

/-! ## Encoding -/

/-- The window of a non-zero XOR (R197). -/
def Window.ofXor (w : Width) (x : Nat) : Window :=
  ⟨clz w.bits x, w.bits - clz w.bits x - ctz w.bits x, ctz w.bits x⟩

/-- `enc_item`: the item code of an XOR and the window after it (R196 to R199). -/
def encItem (w : Width) (x : Nat) (win : Window) : List Bool × Window :=
  if x = 0 then ([false], win)
  else if win.lz ≤ (Window.ofXor w x).lz ∧ win.tz ≤ (Window.ofXor w x).tz ∧ win.dataBits ≠ 0 then
    (true :: false :: bitsN win.dataBits (x >>> win.tz), win)
  else
    (true :: true :: (bitsN w.leadingZeroBitlen (Window.ofXor w x).lz
        ++ bitsN w.dataBitlen (Window.ofXor w x).dataBits
        ++ bitsN (Window.ofXor w x).dataBits (x >>> (Window.ofXor w x).tz)),
     Window.ofXor w x)

/-- The tail bit string of the words after the first (R191, R195). -/
def encTail (w : Width) : Window → Nat → List Nat → List Bool
  | _, _, [] => []
  | win, prev, x :: xs => (encItem w (x ^^^ prev) win).1 ++ encTail w (encItem w (x ^^^ prev) win).2 x xs

/-- The Gorilla stream of an array of words (R190, R195, R203). -/
def gorillaEncode (w : Width) : List Nat → List Byte
  | [] => leBytes 8 0
  | x :: xs => leBytes 8 (xs.length + 1) ++ leBytes w.bytes x ++ pack (encTail w .initial x xs)

/-! ## Decoding -/

/-- `take(n)` of the engine's private reader: the value of the next `n` bits and the bits after them (R206). -/
def takeVal (n : Nat) (s : List Bool) : Except ErrorCode (Nat × List Bool) :=
  match takeBits n s with
  | some (t, r) => .ok (val t, r)
  | none => .error .underrun

/-- The payload of an item: `take(data_bits) << tz` (R208, R209). -/
def decPayload (win : Window) (s : List Bool) : Except ErrorCode (Nat × Window × List Bool) :=
  match takeVal win.dataBits s with
  | .ok (v, r) => .ok (v <<< win.tz, win, r)
  | .error e => .error e

/-- The fields of a new-window item, after its prefix `11` (R209). -/
def decNewWindow (w : Width) (s : List Bool) : Except ErrorCode (Nat × Window × List Bool) :=
  match takeVal w.leadingZeroBitlen s with
  | .error e => .error e
  | .ok (lz, r) =>
    match takeVal w.dataBitlen r with
    | .error e => .error e
    | .ok (db, r) =>
      if db = 0 ∨ w.bits < lz + db then .error .corrupt
      else decPayload ⟨lz, db, w.bits - lz - db⟩ r

/-- One item of the tail: the XOR, the window after it and the bits after it (R206 to R209). -/
def decItem (w : Width) (win : Window) : List Bool → Except ErrorCode (Nat × Window × List Bool)
  | [] => .error .underrun
  | false :: r => .ok (0, win, r)
  | [true] => .error .underrun
  | true :: false :: r => if win.dataBits = 0 then .error .corrupt else decPayload win r
  | true :: true :: r => decNewWindow w r

/-- The decode loop for at most `n` items after the previous word: the words, and whether the bits ended first (R206). -/
def decTail (w : Width) : Nat → Window → Nat → List Bool → Except ErrorCode (List Nat × Bool)
  | 0, _, _, _ => .ok ([], false)
  | _ + 1, _, _, [] => .ok ([], true)
  | n + 1, win, prev, b :: s =>
    match decItem w win (b :: s) with
    | .error e => .error e
    | .ok (x, win', r) =>
      match decTail w n win' (prev ^^^ x) r with
      | .error e => .error e
      | .ok (ys, short) => .ok ((prev ^^^ x) :: ys, short)

/-- The words that the decode loop produces before it stops, be it at the count, at the end of the bits or at an item that
fails (R206, R211). -/
def decWords (w : Width) : Nat → Window → Nat → List Bool → List Nat
  | 0, _, _, _ => []
  | _ + 1, _, _, [] => []
  | n + 1, win, prev, b :: s =>
    match decItem w win (b :: s) with
    | .error _ => []
    | .ok (x, win', r) => (prev ^^^ x) :: decWords w n win' (prev ^^^ x) r

/-! ## Commands -/

/-- The words of the source range (R192). -/
def State.srcWords (s : State) (w : Width) : List Nat :=
  Memory.words s.ms.cells s.srcBase.toNat w.bytes (s.srcLen.toNat / w.bytes)

/-- GOR.ENC after its checks (R195, R201, R202). -/
def State.gorEncode (s : State) (w : Width) : State :=
  if s.srcLen.toNat % w.bytes ≠ 0 then s.raise .none .length
  else if s.dstCap.toNat < (gorillaEncode w (s.srcWords w)).length then
    (s.scramble s.dstBase.toNat s.dstCap.toNat).raise .none .capacity
  else
    (s.store s.dstBase.toNat (gorillaEncode w (s.srcWords w))).deliver (gorillaEncode w (s.srcWords w)).length false

/-- The item count of the stream at the source (R204). -/
def State.streamCount (s : State) : Nat := Memory.word s.ms.cells s.srcBase.toNat 8

/-- The first word of the stream at the source (R206). -/
def State.streamFirst (s : State) (w : Width) : Nat := Memory.word s.ms.cells (s.srcBase.toNat + 8) w.bytes

/-- The tail bits of the stream at the source (R206). -/
def State.streamTail (s : State) (w : Width) : List Bool :=
  stream (Memory.bytes s.ms.cells (s.srcBase.toNat + 8 + w.bytes) (s.srcLen.toNat - 8 - w.bytes))

/-- The words that a decode of the stream at the source produces before it ends (R206, R211). -/
def State.streamWords (s : State) (w : Width) : List Nat :=
  s.streamFirst w :: decWords w (s.streamCount - 1) .initial (s.streamFirst w) (s.streamTail w)

/-- GOR.DEC after its checks (R204 to R211). After an item that fails, each byte of the words produced before it is written
or keeps its value (R211, 93 U5; log entry 11). -/
def State.gorDecode (s : State) (w : Width) : State :=
  if s.srcLen.toNat < 8 then s.raise .none .corrupt
  else if s.streamCount = 0 then s.deliver 0 false
  else if s.srcLen.toNat < 8 + w.bytes then s.raise .none .corrupt
  else if s.dstCap.toNat < s.streamCount * w.bytes then s.raise .none .capacity
  else
    match decTail w (s.streamCount - 1) .initial (s.streamFirst w) (s.streamTail w) with
    | .error e => (s.storeSome s.dstBase.toNat ((s.streamWords w).flatMap (leBytes w.bytes))).raise .none e
    | .ok (xs, short) =>
      (s.store s.dstBase.toNat ((s.streamFirst w :: xs).flatMap (leBytes w.bytes))).deliver
        ((xs.length + 1) * w.bytes) short

/-- GOR.ENC wW (R195). -/
def execGorEnc (w : Width) (s : State) : Result :=
  match s.arrayAdmission with
  | .error e => .next (s.raise .none e)
  | .stuck => .fault .noAdmissionCheck
  | .device => .refused .deviceRange
  | .pass => .next (s.gorEncode w)

/-- GOR.DEC wW (R204). -/
def execGorDec (w : Width) (s : State) : Result :=
  match s.arrayAdmission with
  | .error e => .next (s.raise .none e)
  | .stuck => .fault .noAdmissionCheck
  | .device => .refused .deviceRange
  | .pass => .next (s.gorDecode w)

end Sys2Proof.Machine
end

