-- ==== Sys2Proof/Machine/Dispatch.lean ====
section
/-! DEFINITION. One command: one arm per constructor of Instr (30_encoding.md R106). -/

namespace Sys2Proof.Machine

open Sys2Proof

/-- Performs a command to completion (10_state.md R32). CMD already holds its word. -/
def exec (i : Instr) (s : State) : Host.Outcome State Fault Refusal :=
  match i with
  | .brInit => Sys2Proof.Machine.execBrInit s
  | .brRead n => Sys2Proof.Machine.execBrRead n s
  | .brReadbit => Sys2Proof.Machine.execBrReadbit s
  | .brPeek => Sys2Proof.Machine.execBrPeek s
  | .brEof => Sys2Proof.Machine.execBrEof s
  | .brCount => Sys2Proof.Machine.execBrCount s
  | .brRemain => Sys2Proof.Machine.execBrRemain s
  | .brRelease => Sys2Proof.Machine.execBrRelease s
  | .bwInit => Sys2Proof.Machine.execBwInit s
  | .bwWrite n => Sys2Proof.Machine.execBwWrite n s
  | .bwFlush => Sys2Proof.Machine.execBwFlush s
  | .bwCount => Sys2Proof.Machine.execBwCount s
  | .bwRelease => Sys2Proof.Machine.execBwRelease s
  | .gorEnc w => Sys2Proof.Machine.execGorEnc w s
  | .gorDec w => Sys2Proof.Machine.execGorDec w s
  | .bssEnc w => Sys2Proof.Machine.execBssEnc w s
  | .bssDec w => Sys2Proof.Machine.execBssDec w s

end Sys2Proof.Machine
end

