-- ==== Sys2Proof/Machine/HostAccess.lean ====
section
/-! DEFINITION. What the host does to the block and to memory: accesses to the register window (10_state.md R31 to R46),
accesses to memory (R52, R302, R303), reset (R290, R293), and the host programs of 30_encoding.md R111 to R113. -/

namespace Sys2Proof.Machine

open Sys2Proof

/-! ## The register window -/

/-- What stands at an offset of the register window (R31). -/
inductive Register where
  | cmd
  | status
  | arg
  | result
  | srcBase
  | srcLen
  | dstBase
  | dstCap
  | outLen
  /-- offsets 0x48 to 0xF8 (R46) -/
  | reserved
deriving DecidableEq, Repr

/-- The register at an offset that is a multiple of 8 (R31). -/
def Register.atOffset (off : BitVec 8) : Register :=
  match off.toNat with
  | 0x00 => .cmd
  | 0x08 => .status
  | 0x10 => .arg
  | 0x18 => .result
  | 0x20 => .srcBase
  | 0x28 => .srcLen
  | 0x30 => .dstBase
  | 0x38 => .dstCap
  | 0x40 => .outLen
  | _ => .reserved

/-- The offset of a register (R31); the first of the reserved ones. -/
def Register.offset : Register → BitVec 8
  | .cmd => 0x00
  | .status => 0x08
  | .arg => 0x10
  | .result => 0x18
  | .srcBase => 0x20
  | .srcLen => 0x28
  | .dstBase => 0x30
  | .dstCap => 0x38
  | .outLen => 0x40
  | .reserved => 0x48

/-- What a host read of a register returns (R31 to R37, R40, R46). -/
def State.readRegister (s : State) : Register → Word
  | .cmd => s.cmd
  | .status => s.status
  | .arg => s.arg
  | .result => s.result
  | .srcBase => s.srcBase
  | .srcLen => s.srcLen
  | .dstBase => s.dstBase
  | .dstCap => s.dstCap
  | .outLen => s.outLen
  | .reserved => 0

/-- Performs the command a CMD value selects, or raises ERR_ILLEGAL when it spells none (R32, R108, R109). -/
def runCommand (c : Word) (s : State) : Result :=
  match decode c with
  | .ok i => exec i s
  | .error _ => .next (s.raise .none .illegal)

/-- A host write to a register: a write to CMD performs a command (R32); read-only and reserved ones ignore it
(R38, R46). -/
def State.writeRegister (s : State) (v : Word) : Register → Result
  | .cmd => runCommand v { s with cmd := v }
  | .status => .next s
  | .arg => .next { s with arg := v }
  | .result => .next s
  | .srcBase => .next { s with srcBase := v }
  | .srcLen => .next { s with srcLen := v }
  | .dstBase => .next { s with dstBase := v }
  | .dstCap => .next { s with dstCap := v }
  | .outLen => .next s
  | .reserved => .next s

/-- The only window accesses with a meaning: naturally aligned and 64 bits wide (R39). DESIGN CHOICE, unsafe on a platform
that places a window at an address that is no multiple of 8: R13 leaves P_MMIO_BASE OPEN and gives it no alignment, and
the model judges natural alignment on the offset in the window, not on the address (log entry 24). -/
def alignedAccess (off : BitVec 8) (size : AccessSize) : Bool := size == .dword && off.toNat % 8 == 0

/-! ## Memory -/

/-- What stands at an address the host accesses as memory: a register window takes only R39's accesses, and a device's
behaviour is not the spec's (log entries 13 and 15). -/
def Platform.hostRefusal (p : Platform) (a : Nat) : Option Refusal :=
  if p.windowRegions.any fun r => r.contains a then some .windowAccess
  else if p.devices.any fun r => r.contains a then some .deviceRange
  else none

/-! ## Reset during a command -/

/-- The checks that a command makes before it may write memory. -/
def State.admissionOf (s : State) : Instr → Admission
  | .brInit => s.platform.admitOne s.srcBase s.srcLen
  | .bwInit => s.platform.admitOne s.dstBase s.dstCap
  | .gorEnc _ | .gorDec _ | .bssEnc _ | .bssDec _ => s.arrayAdmission
  | .brRead _ | .brReadbit | .brPeek | .brEof | .brCount | .brRemain | .brRelease
  | .bwWrite _ | .bwFlush | .bwCount | .bwRelease => .pass

/-- The bytes a command could write (R293): the destination range of a Gorilla or BSS command, and what is not yet final of
the range of a writer that is bound and not faulted. -/
def State.writableOf (s : State) : Instr → Region
  | .gorEnc _ | .gorDec _ | .bssEnc _ | .bssDec _ => s.dstRegion
  | .bwInit | .bwWrite _ | .bwFlush | .bwRelease =>
    if s.bw.bound && !s.bw.fault then
      ⟨s.bw.base.toNat + s.bw.final.toNat, s.bw.cap.toNat - s.bw.final.toNat⟩
    else ⟨0, 0⟩
  | .brInit | .brRead _ | .brReadbit | .brPeek | .brEof | .brCount | .brRemain | .brRelease | .bwCount => ⟨0, 0⟩

/-- A write of `c` to CMD whose command a reset cuts short (R293; log entry 12): the block is reset, and the bytes the
command could have written are unspecified. A command that its own checks turn away writes nothing (R265). -/
def State.resetDuring (s : State) (c : Word) : Result :=
  match decode c with
  | .error _ => .next s.applyReset
  | .ok i =>
    match s.admissionOf i with
    | .error _ => .next s.applyReset
    | .stuck => .fault .noAdmissionCheck
    | .device => .refused .deviceRange
    | .pass => .next (s.applyReset.scramble (s.writableOf i).base (s.writableOf i).len)

/-! ## Host operations -/

/-- The host turns to the window of instance `k` (R278; log entry 18). -/
def State.select (s : State) (k : Nat) : Result :=
  if k = s.id then .next s
  else
    match exchange k s.block s.ms.others with
    | some (p, others) => .next (s.become p others)
    | none => .refused .noInstance

/-- What an access to the window of the instance does: `r`, when the agent that makes it drives the instance (R277; log
entry 19). -/
def State.driven (s : State) (r : Result) : Result := if s.agent = s.driver then r else .refused .sharedInstance

/-- Performs one operation of the host. -/
def hostAccess (s : State) : HostOp → Result
  | .select k => s.select k
  | .turn g => .next { s with agent := g }
  | .handOver g => s.driven (.next { s with driver := g })
  | .regWrite off size v =>
    if alignedAccess off size then s.driven (s.writeRegister v (Register.atOffset off)) else .refused .windowAccess
  | .regRead off size =>
    if alignedAccess off size then s.driven (.next { s with hostData := s.readRegister (Register.atOffset off) })
    else .refused .windowAccess
  | .memWrite a b =>
    match s.platform.hostRefusal a.toNat with
    | some r => .refused r
    | none => .next { s with ms := s.ms.putForeign s.br s.bw a.toNat b }
  | .memRead a =>
    match s.platform.hostRefusal a.toNat with
    | some r => .refused r
    | none => .next { s with hostData := (s.byteAt a.toNat).setWidth 64 }
  | .reset => .next s.applyReset
  | .resetDuring c => s.driven (s.resetDuring c)

/-- The host does its next operation; with none left the block is idle (R8, R292). -/
def hostStep (s : State) : Result :=
  match s.host with
  | [] => .next s
  | op :: rest => hostAccess { s with host := rest } op

/-! ## Host programs -/

/-- `wr REG, v` (R111). -/
def HostOp.wr (r : Register) (v : Word) : HostOp := .regWrite r.offset .dword v

/-- `rd REG` (R111). -/
def HostOp.rd (r : Register) : HostOp := .regRead r.offset .dword

/-- A command mnemonic with its operand: `wr CMD, <its encoding>` (R111, R112). -/
def HostOp.command (i : Instr) : HostOp := .wr .cmd (encode i)

/-- `br.open base, len` (R113). -/
def HostOp.brOpen (base len : Word) : List HostOp := [.wr .srcBase base, .wr .srcLen len, .command .brInit]

/-- `bw.open base, cap` (R113). -/
def HostOp.bwOpen (base cap : Word) : List HostOp := [.wr .dstBase base, .wr .dstCap cap, .command .bwInit]

/-- `bw.put k, v` (R113). -/
def HostOp.bwPut (k : BitVec 7) (v : Word) : List HostOp := [.wr .arg v, .command (.bwWrite k)]

/-- `ranges s, sl, d, dc` (R113). -/
def HostOp.ranges (s sl d dc : Word) : List HostOp :=
  [.wr .srcBase s, .wr .srcLen sl, .wr .dstBase d, .wr .dstCap dc]

end Sys2Proof.Machine
end

