-- ==== Sys2Proof/Machine/Step.lean ====
section
/-! DEFINITION. One step: the host performs its next operation, and a write of CMD runs one command to completion
(10_state.md R32, 20_memory.md R81). -/

namespace Sys2Proof.Machine

open Sys2Proof

/-- One step of the machine. -/
def step (s : State) : Host.Outcome State Fault Refusal := hostStep s

/-- `s` with a write of the `nbits`-bit command word `w` to CMD, by the agent that drives the instance, as the host's next
operation; the word's other bits are 0 (log entry 2). -/
def State.withFetchWord (s : State) (nbits w : Nat) : State :=
  { s with agent := s.driver, host := .regWrite 0x00 .dword (BitVec.ofNat 64 (w % 2 ^ nbits)) :: s.host }

end Sys2Proof.Machine
end

