-- ==== Sys2Proof/Safety.lean ====
section
/-! DEFINITION. What every reachable state satisfies: the bounds of 10_state.md R50 and R53, the legal ranges of
20_memory.md R74, the error codes of 60_exceptions.md R261 and the canonical form of memory. -/

namespace Sys2Proof.Machine

open Sys2Proof

/-- The bounds of the reader (R50): a faulted reader is bound; a bound one has a legal range (R74), and one that has not
faulted has consumed at most the bits of its range. -/
def BitReader.inBounds (br : BitReader) : Prop :=
  (br.fault = true → br.bound = true)
  ∧ (br.bound = true → br.len.toNat ≤ Config.maxLen ∧ br.base.toNat + br.len.toNat ≤ Config.addrSpace)
  ∧ (br.bound = true → br.fault = false → br.pos.toNat ≤ 8 * br.len.toNat)

/-- The bounds of the writer (R53): a faulted writer is bound; a bound one has a legal range (R74), and one that has not
faulted holds at most the bits of its capacity, has made final at most the whole bytes it holds, and counts as the user's
at most the bits it holds. -/
def BitWriter.inBounds (bw : BitWriter) : Prop :=
  (bw.fault = true → bw.bound = true)
  ∧ (bw.bound = true → bw.cap.toNat ≤ Config.maxLen ∧ bw.base.toNat + bw.cap.toNat ≤ Config.addrSpace)
  ∧ (bw.bound = true → bw.fault = false →
      bw.bits.length ≤ 8 * bw.cap.toNat ∧ 8 * bw.final.toNat ≤ bw.bits.length ∧ bw.user.toNat ≤ bw.bits.length)

/-- STATUS holds a code of R261, and SHORT only without an error (R43). -/
def statusSound (err : Byte) (short : Bool) : Prop := err.toNat ≤ 10 ∧ (short = true → err = 0)

/-- Memory is in canonical form and lists no address outside the address space (R70). -/
def State.memorySound (s : State) : Prop :=
  Memory.wf s.ms.cells = true ∧ ∀ c ∈ s.ms.cells, c.1 < Config.addrSpace

/-- What the hazard rules record is about the units as they are: a written source byte is one of the bound reader's range
(R300), and a byte stored early is a whole byte, not yet final, of a writer that has not faulted (R84, R302 (b)). -/
def hazardsSound (br : BitReader) (bw : BitWriter) (stale drained : List Nat) : Prop :=
  (∀ k ∈ stale, br.bound = true ∧ k < br.len.toNat)
  ∧ ∀ k ∈ drained, bw.bound = true ∧ bw.fault = false ∧ bw.final.toNat ≤ k ∧ 8 * (k + 1) ≤ bw.bits.length

/-- The invariant of one instance. -/
def Block.Sound (p : Block) : Prop :=
  statusSound p.err p.short ∧ p.br.inBounds ∧ p.bw.inBounds ∧ hazardsSound p.br p.bw p.stale p.drained

/-- The instances are the platform's, each once (R278): P_INSTANCES of them, numbered from 0. -/
def State.instancesSound (s : State) : Prop :=
  (s.id :: s.ms.others.map Block.id).Perm (List.range s.platform.windows.length)

/-- The invariant of the machine. -/
def State.Sound (s : State) : Prop :=
  s.memorySound ∧ s.block.Sound ∧ (∀ p ∈ s.ms.others, p.Sound) ∧ s.instancesSound

/-! ## What claims speak of -/

/-- An instance without its records of the hazards: its registers and units, its number and the agent that drives it. -/
def Block.registers (p : Block) : Block := { p with stale := [], drained := [] }

/-- The registers and units of every other instance are as they were (R278). -/
def State.SameOthers (s t : State) : Prop := t.ms.others.map Block.registers = s.ms.others.map Block.registers

/-- The registers only the host writes, the platform, the host's own part and the other instances are as they were: a command
never writes CMD, ARG or a range register (R32, R33, R35, R36), nor another instance's state (R278). -/
def State.SameInputs (s t : State) : Prop :=
  t.id = s.id ∧ t.driver = s.driver ∧ t.cmd = s.cmd ∧ t.arg = s.arg ∧ t.srcBase = s.srcBase ∧ t.srcLen = s.srcLen
  ∧ t.dstBase = s.dstBase ∧ t.dstCap = s.dstCap ∧ t.platform = s.platform ∧ t.agent = s.agent ∧ t.host = s.host
  ∧ t.hostData = s.hostData ∧ s.SameOthers t

/-- Every byte of memory reads as it did. -/
def State.SameMemory (s t : State) : Prop := ∀ a, t.byteAt a = s.byteAt a

/-- Every byte of memory outside the `n` bytes from `base` up reads as it did. -/
def State.SameMemoryOutside (s t : State) (base n : Nat) : Prop :=
  ∀ a, ¬(base ≤ a ∧ a < base + n) → t.byteAt a = s.byteAt a

/-- A reader that is bound and has not faulted (R131). -/
def BitReader.ready (br : BitReader) : Prop := br.bound = true ∧ br.fault = false

/-- A writer that is bound and has not faulted (R161). -/
def BitWriter.ready (bw : BitWriter) : Prop := bw.bound = true ∧ bw.fault = false

/-- The source of a bound reader as a bit string: `S = stream(MemBytes(br.base, br.len))` (R130). -/
def State.sourceStream (s : State) : List Bool :=
  stream (Memory.bytes s.ms.cells s.br.base.toNat s.br.len.toNat)

/-- A sequence of BR.READ commands that all succeed: the bits they return, each value as a string of its own length, and the
state after the last (R141). -/
def State.readRun (s : State) : List (BitVec 7) → Option (List Bool × State)
  | [] => some ([], s)
  | n :: ns =>
    match exec (.brRead n) s with
    | .next t =>
      if t.err = 0 then
        match State.readRun t ns with
        | some (bs, u) => some (bitsN n.toNat t.result.toNat ++ bs, u)
        | none => none
      else none
    | .fault _ => none
    | .refused _ => none

/-- A sequence of `bw.put n, v`: the host writes `v` to ARG and issues BW.WRITE n (R113, R171). -/
def State.writeRun (s : State) : List (BitVec 7 × Word) → Option State
  | [] => some s
  | (n, v) :: ws =>
    match exec (.bwWrite n) { s with arg := v } with
    | .next t => if t.err = 0 then State.writeRun t ws else none
    | .fault _ => none
    | .refused _ => none

end Sys2Proof.Machine

namespace Sys2Proof

/-- The commands that name a source and a destination range (R71). -/
def Instr.isArray : Instr → Bool
  | .gorEnc _ | .gorDec _ | .bssEnc _ | .bssDec _ => true
  | .brInit | .brRead _ | .brReadbit | .brPeek | .brEof | .brCount | .brRemain | .brRelease
  | .bwInit | .bwWrite _ | .bwFlush | .bwCount | .bwRelease => false

/-- The commands that take bits from the reader (R132, R136). -/
def Instr.takesBits : Instr → Bool
  | .brRead _ | .brReadbit | .brPeek => true
  | .brInit | .brEof | .brCount | .brRemain | .brRelease
  | .bwInit | .bwWrite _ | .bwFlush | .bwCount | .bwRelease
  | .gorEnc _ | .gorDec _ | .bssEnc _ | .bssDec _ => false

/-- The commands that write RESULT when they succeed (R34). -/
def Instr.reports : Instr → Bool
  | .brRead _ | .brReadbit | .brPeek | .brEof | .brCount | .brRemain | .bwCount => true
  | .brInit | .brRelease | .bwInit | .bwWrite _ | .bwFlush | .bwRelease
  | .gorEnc _ | .gorDec _ | .bssEnc _ | .bssDec _ => false

/-- The writer commands that may store bytes (R84). -/
def Instr.mayStore : Instr → Bool
  | .bwInit | .bwWrite _ | .bwFlush | .bwRelease => true
  | .brInit | .brRead _ | .brReadbit | .brPeek | .brEof | .brCount | .brRemain | .brRelease | .bwCount
  | .gorEnc _ | .gorDec _ | .bssEnc _ | .bssDec _ => false

/-- The codes a command may leave in STATUS.ERR: 0, and the errors it raises by R261. ERR_ILLEGAL is raised for the CMD value,
before any command; a count outside 1 to 64 is the one illegal value `exec` can be given. -/
def Instr.errorCodes : Instr → List Byte
  | .brInit => [0, 4, 10]
  | .brRead _ => [0, 1, 2, 3, 8]
  | .brReadbit => [0, 2, 3, 8]
  | .brPeek => [0, 2, 3, 8]
  | .brEof => [0, 2, 3]
  | .brCount => [0, 2, 3]
  | .brRemain => [0, 2, 3]
  | .brRelease => [0]
  | .bwInit => [0, 4, 10]
  | .bwWrite _ => [0, 1, 2, 3, 7]
  | .bwFlush => [0, 2, 3]
  | .bwCount => [0, 2, 3]
  | .bwRelease => [0]
  | .gorEnc _ => [0, 4, 5, 6, 7, 10]
  | .gorDec _ => [0, 4, 5, 7, 8, 9, 10]
  | .bssEnc _ => [0, 4, 5, 6, 7, 10]
  | .bssDec _ => [0, 4, 5, 6, 7, 10]

end Sys2Proof
end

