-- ==== Sys2Proof/Certificates/Slice0/Obligations.lean ====
section
/-! DEFINITION. The statements about the block, each from the numbered rules of spec/ that its docstring names. -/

open Sys2Proof Sys2Proof.Machine

/-! ## Encoding -/

/-- R112: the encodings of the operand forms and the examples given there, which the decoder reads back. -/
def Obligations.SpecEncodingsAndExamples : Prop :=
  (∀ k : BitVec 7, encode (.brRead k) = 0x00000002#64 ||| (k.setWidth 64 <<< 16))
  ∧ (∀ k : BitVec 7, encode (.bwWrite k) = 0x00000012#64 ||| (k.setWidth 64 <<< 16))
  ∧ (∀ w : Width, encode (.gorEnc w) = 0x00000021#64 ||| (BitVec.ofNat 64 (Nat.log 2 w.bytes) <<< 8)
      ∧ encode (.gorDec w) = 0x00000022#64 ||| (BitVec.ofNat 64 (Nat.log 2 w.bytes) <<< 8)
      ∧ encode (.bssEnc w) = 0x00000031#64 ||| (BitVec.ofNat 64 (Nat.log 2 w.bytes) <<< 8)
      ∧ encode (.bssDec w) = 0x00000032#64 ||| (BitVec.ofNat 64 (Nat.log 2 w.bytes) <<< 8))
  ∧ decode 0x00030002 = .ok (.brRead 3) ∧ decode 0x00040012 = .ok (.bwWrite 4)
  ∧ decode 0x00400012 = .ok (.bwWrite 64) ∧ decode 0x00000321 = .ok (.gorEnc .w8)
  ∧ decode 0x00000222 = .ok (.gorDec .w4) ∧ decode 0x00000131 = .ok (.bssEnc .w2)
  ∧ decode 0x00000332 = .ok (.bssDec .w8)

/-- R100, R106, R112: decoding the encoding of a well-formed command gives the command back, with every operand at every value
its encoding admits. -/
def Obligations.DecodeOfEncode : Prop :=
  ∀ i : Instr, i.wellFormed = true → decode (encode i) = .ok i

/-- R109: the command that a value decodes to is well formed, and the value is its encoding. -/
def Obligations.EncodeOfDecode : Prop :=
  ∀ (c : Word) (i : Instr), decode c = .ok i → i.wellFormed = true ∧ encode i = c

/-- R107: a value is a command exactly when it spells one of the rows of the match and mask table, it then spells the row of
the command it decodes to, and no two rows match the same value. -/
def Obligations.DecodeIsMatchAndMask : Prop :=
  (∀ c : Word, (∃ i, decode c = .ok i) ↔ ∃ r ∈ opcodeTable, r.spells c = true)
  ∧ (∀ (c : Word) (i : Instr), decode c = .ok i → i.row.spells c = true)
  ∧ (∀ c : Word, ∀ r ∈ opcodeTable, ∀ q ∈ opcodeTable, r.spells c = true → q.spells c = true → r = q)

/-! ## The step -/

/-- R32: a host write of a value that decodes to a command, by the agent that drives the instance (log entry 19), is a step
that stores the value in CMD and performs the command; the host's list loses that operation. -/
def Obligations.StepPerformsDecodedCommand : Prop :=
  ∀ (s : State) (c : Word) (i : Instr) (rest : List HostOp), decode c = .ok i → s.agent = s.driver →
    s.host = .regWrite 0x00 .dword c :: rest → step s = exec i { s with host := rest, cmd := c }

/-- R108: writing a value that matches no row of R107 to CMD, by the agent that drives the instance (log entry 19), raises
ERR_ILLEGAL: CMD holds the value, ERR is 1, SHORT, RESULT and OUT_LEN are 0, and nothing else changes, memory included. -/
def Obligations.IllegalValueRaisesErrIllegal : Prop :=
  ∀ (s : State) (c : Word) (rest : List HostOp), (∀ r ∈ opcodeTable, r.spells c = false) →
    s.agent = s.driver → s.host = .regWrite 0x00 .dword c :: rest →
    step s = .next { s with host := rest, cmd := c, err := 1, short := false, result := 0, outLen := 0 }

/-! ## Registers and STATUS -/

/-- R38, R46: a host write to a read-only register (STATUS, RESULT or OUT_LEN) or to a reserved offset changes no state and
starts no command, and a host read of a reserved offset returns 0 (the host's list loses that operation). The access is by the
agent that drives the instance (log entry 19). -/
def Obligations.ReadOnlyAndReservedOffsets : Prop :=
  (∀ (s : State) (off : BitVec 8) (v : Word) (rest : List HostOp), off = 0x08 ∨ off = 0x18 ∨ off = 0x40 →
    s.agent = s.driver →
    s.host = .regWrite off .dword v :: rest → step s = .next { s with host := rest })
  ∧ (∀ (s : State) (off : BitVec 8) (v : Word) (rest : List HostOp), 0x48 ≤ off.toNat → off.toNat % 8 = 0 →
    s.agent = s.driver →
    s.host = .regWrite off .dword v :: rest → step s = .next { s with host := rest })
  ∧ (∀ (s : State) (off : BitVec 8) (rest : List HostOp), 0x48 ≤ off.toNat → off.toNat % 8 = 0 →
    s.agent = s.driver →
    s.host = .regRead off .dword :: rest → step s = .next { s with host := rest, hostData := 0 })

/-- R31, R33, R35, R36: a write to ARG or to a range register, by the agent that drives the instance, stores the value there
and changes nothing else, and a read of a register returns the register and changes nothing else. R277, R278: the host's list
says which agent makes the accesses that follow, when the agent that drives the instance hands it to another, and which instance
they go to (these operations are the model's, log entries 18 and 19): turning to another instance keeps every instance, memory and
all else. -/
def Obligations.RegisterWindow : Prop :=
  (∀ (s : State) (v : Word) (rest : List HostOp), s.agent = s.driver →
    (s.host = .regWrite 0x10 .dword v :: rest → step s = .next { s with host := rest, arg := v })
    ∧ (s.host = .regWrite 0x20 .dword v :: rest → step s = .next { s with host := rest, srcBase := v })
    ∧ (s.host = .regWrite 0x28 .dword v :: rest → step s = .next { s with host := rest, srcLen := v })
    ∧ (s.host = .regWrite 0x30 .dword v :: rest → step s = .next { s with host := rest, dstBase := v })
    ∧ (s.host = .regWrite 0x38 .dword v :: rest → step s = .next { s with host := rest, dstCap := v })
    ∧ (s.host = .regRead 0x00 .dword :: rest → step s = .next { s with host := rest, hostData := s.cmd })
    ∧ (s.host = .regRead 0x08 .dword :: rest → step s = .next { s with host := rest, hostData := s.status })
    ∧ (s.host = .regRead 0x10 .dword :: rest → step s = .next { s with host := rest, hostData := s.arg })
    ∧ (s.host = .regRead 0x18 .dword :: rest → step s = .next { s with host := rest, hostData := s.result })
    ∧ (s.host = .regRead 0x20 .dword :: rest → step s = .next { s with host := rest, hostData := s.srcBase })
    ∧ (s.host = .regRead 0x28 .dword :: rest → step s = .next { s with host := rest, hostData := s.srcLen })
    ∧ (s.host = .regRead 0x30 .dword :: rest → step s = .next { s with host := rest, hostData := s.dstBase })
    ∧ (s.host = .regRead 0x38 .dword :: rest → step s = .next { s with host := rest, hostData := s.dstCap })
    ∧ (s.host = .regRead 0x40 .dword :: rest → step s = .next { s with host := rest, hostData := s.outLen })
    ∧ (∀ g, s.host = .handOver g :: rest → step s = .next { s with host := rest, driver := g }))
  ∧ (∀ (s : State) (g : Nat) (rest : List HostOp), s.host = .turn g :: rest →
      step s = .next { s with host := rest, agent := g })
  ∧ (∀ (s : State) (rest : List HostOp), s.host = .select s.id :: rest → step s = .next { s with host := rest })
  ∧ ∀ (s : State) (k : Nat) (rest : List HostOp), k ≠ s.id → (∃ p ∈ s.ms.others, p.id = k) →
      s.host = .select k :: rest →
      ∃ t, step s = .next t ∧ t.id = k ∧ (t.block :: t.ms.others).Perm (s.block :: s.ms.others)
        ∧ t.ms.cells = s.ms.cells ∧ t.ms.draws = s.ms.draws ∧ t.platform = s.platform ∧ t.agent = s.agent
        ∧ t.host = rest ∧ t.hostData = s.hostData

/-- R42, R44, R54: the fields of STATUS. ERR and SHORT are the stored ones; the unit bits are those of the units at the time
of the read, BW_DIRTY among them, and bits [63:14] read as 0. -/
def Obligations.StatusFields : Prop :=
  ∀ s : State,
    s.status.extractLsb' 0 8 = s.err ∧ s.status.getLsbD 8 = s.br.bound ∧ s.status.getLsbD 9 = s.br.fault
    ∧ s.status.getLsbD 10 = s.bw.bound ∧ s.status.getLsbD 11 = s.bw.fault ∧ s.status.getLsbD 12 = s.short
    ∧ (s.status.getLsbD 13 = true ↔
        s.bw.bound = true ∧ s.bw.fault = false ∧ 8 * s.bw.final.toNat < s.bw.bits.length)
    ∧ s.status.extractLsb' 14 50 = 0

/-- R39: an access to the register window that is not a 64-bit one at an offset that is a multiple of 8 is refused (that natural
alignment is judged on the offset is the model's choice, log entry 24). R277: every access to the window by an agent that does not
drive the instance is refused. R278: turning to an instance that the platform does not hold is refused (log entry 18). -/
def Obligations.OtherWindowAccessesAreRefused : Prop :=
  (∀ (s : State) (off : BitVec 8) (size : AccessSize) (v : Word) (rest : List HostOp),
    size ≠ .dword ∨ off.toNat % 8 ≠ 0 →
    (s.host = .regWrite off size v :: rest → step s = .refused .windowAccess)
    ∧ (s.host = .regRead off size :: rest → step s = .refused .windowAccess))
  ∧ (∀ (s : State) (off : BitVec 8) (v : Word) (g : Nat) (rest : List HostOp), off.toNat % 8 = 0 → s.agent ≠ s.driver →
    (s.host = .regWrite off .dword v :: rest → step s = .refused .sharedInstance)
    ∧ (s.host = .regRead off .dword :: rest → step s = .refused .sharedInstance)
    ∧ (s.host = .resetDuring v :: rest → step s = .refused .sharedInstance)
    ∧ (s.host = .handOver g :: rest → step s = .refused .sharedInstance))
  ∧ ∀ (s : State) (k : Nat) (rest : List HostOp), k ≠ s.id → (∀ p ∈ s.ms.others, p.id ≠ k) →
    s.host = .select k :: rest → step s = .refused .noInstance

/-- R34: a command that ends with an error writes 0 to RESULT, and a successful one that returns no value leaves RESULT
unchanged. -/
def Obligations.ResultOfEveryCommand : Prop :=
  ∀ (i : Instr) (s t : State), exec i s = .next t →
    (t.err ≠ 0 → t.result = 0) ∧ (t.err = 0 → i.reports = false → t.result = s.result)

/-- R37: OUT_LEN after the commands outside the Gorilla and BSS engines, and after every error: 0 after an error;
`ceil8(len(bw.bits))` after a flush by BW.FLUSH or BW.RELEASE; and unchanged after every other successful command (a successful
Gorilla or BSS command's own statement gives it). -/
def Obligations.OutLenOutsideTheEngines : Prop :=
  ∀ (i : Instr) (s t : State), exec i s = .next t →
    (t.err ≠ 0 → t.outLen = 0)
    ∧ (t.err = 0 → i = .bwFlush → t.outLen = BitVec.ofNat 64 (ceil8 s.bw.bits.length))
    ∧ (t.err = 0 → i = .bwRelease → s.bw.ready → t.outLen = BitVec.ofNat 64 (ceil8 s.bw.bits.length))
    ∧ (t.err = 0 → i = .bwRelease → ¬s.bw.ready → t.outLen = s.outLen)
    ∧ (t.err = 0 → i.isArray = false → i ≠ .bwFlush → i ≠ .bwRelease → t.outLen = s.outLen)

/-- R43: SHORT is 1 only after a GOR.DEC that ended without error. -/
def Obligations.ShortOnlyAfterGorillaDecode : Prop :=
  ∀ (i : Instr) (s t : State), exec i s = .next t → t.short = true → t.err = 0 ∧ ∃ w, i = .gorDec w

/-! ## Reset -/

/-- R290: a reset gives every register and both units their reset values, STATUS then reads 0, and every byte of memory keeps
its value; the host's list loses that operation. That the other instances, the instance's number and driving agent, the agent that
acts next, the platform, the rest of the host's list and the value of its last load stay as well is the model's choice (log entry
23). -/
def Obligations.ResetState : Prop :=
  ∀ (s : State) (rest : List HostOp), s.host = .reset :: rest →
    ∃ t, step s = .next t ∧ t.cmd = 0 ∧ t.arg = 0 ∧ t.result = 0 ∧ t.srcBase = 0 ∧ t.srcLen = 0 ∧ t.dstBase = 0
      ∧ t.dstCap = 0 ∧ t.outLen = 0 ∧ t.err = 0 ∧ t.short = false ∧ t.status = 0
      ∧ t.br = { bound := false, fault := false, base := 0, len := 0, pos := 0 }
      ∧ t.bw = { bound := false, fault := false, base := 0, cap := 0, bits := [], user := 0, final := 0 }
      ∧ s.SameMemory t ∧ t.platform = s.platform ∧ t.host = rest ∧ t.hostData = s.hostData
      ∧ t.ms.others = s.ms.others ∧ t.id = s.id ∧ t.driver = s.driver ∧ t.agent = s.agent

/-- R293: a reset that cuts a command short leaves the reset state, and every byte the command could not have written keeps its
value: for GOR.ENC, GOR.DEC, BSS.ENC and BSS.DEC all but the destination range, for BW.WRITE, BW.FLUSH, BW.INIT and BW.RELEASE
all but the bytes of a ready writer's range that are not final, and for every other command all of memory. That such a writer
command keeps all of memory when the writer is not ready is the model's reading of what it could have written (log entry 12), and
that the other instances stay is the model's choice (log entry 23). -/
def Obligations.ResetDuringACommand : Prop :=
  ∀ (s : State) (c : Word) (i : Instr) (rest : List HostOp), decode c = .ok i → s.agent = s.driver →
    s.admissionOf i ≠ .stuck → s.admissionOf i ≠ .device → s.host = .resetDuring c :: rest →
    ∃ t, step s = .next t ∧ t.cmd = 0 ∧ t.arg = 0 ∧ t.result = 0 ∧ t.srcBase = 0 ∧ t.srcLen = 0 ∧ t.dstBase = 0
      ∧ t.dstCap = 0 ∧ t.outLen = 0 ∧ t.status = 0 ∧ t.br = BitReader.reset ∧ t.bw = BitWriter.reset
      ∧ (i.isArray = true → s.SameMemoryOutside t s.dstBase.toNat s.dstCap.toNat)
      ∧ (i.mayStore = true → s.bw.ready →
          s.SameMemoryOutside t (s.bw.base.toNat + s.bw.final.toNat) (s.bw.cap.toNat - s.bw.final.toNat))
      ∧ (i.mayStore = true → ¬s.bw.ready → s.SameMemory t)
      ∧ (i.isArray = false → i.mayStore = false → s.SameMemory t)
      ∧ s.SameOthers t

/-! ## Invariant -/

/-- R50, R53, R74, R261, R290: the reset state satisfies the invariant. -/
def Obligations.ResetStateIsSound : Prop := State.reset.Sound

/-- R50, R53, R74, R261, R70: every step keeps the invariant: a reader that has not faulted has consumed at most its bits, a
writer that has not faulted holds at most its capacity and at least eight times its final bytes, bound ranges are legal,
STATUS holds a code of R261, memory is in canonical form inside the address space, and the records of written source bytes
and of early stores are about the units as they are. Every instance satisfies the bounds of R50 and R53, and the instances are the
platform's, each once (R278). The canonical form and the two records are the model's (log entries 1, 8 and 9). -/
def Obligations.StepKeepsSound : Prop :=
  ∀ s t : State, s.Sound → step s = .next t → t.Sound

/-- R32, R33, R35, R36, R278: no command writes CMD, ARG or a range register, the platform's map or the host's own part, nor any
register or unit of another instance. -/
def Obligations.CommandsKeepTheInputs : Prop :=
  ∀ (i : Instr) (s t : State), exec i s = .next t → s.SameInputs t

/-! ## Errors -/

/-- R261: the error codes each command raises, by the table's last column. -/
def Obligations.ErrorsByCommand : Prop :=
  ∀ (i : Instr) (s t : State), exec i s = .next t → t.err ∈ i.errorCodes

/-- R266, R50: error entry, the registers and units. A command that ends with an error leaves SHORT, RESULT and OUT_LEN 0 and
keeps the input registers; no unit state changes but the reader's fault bit on an underrun of a reader command (`br.pos` is then
unspecified) and the writer's on a capacity error of BW.WRITE. Memory is not spoken of here. -/
def Obligations.ErrorEntry : Prop :=
  ∀ (i : Instr) (s t : State), exec i s = .next t → t.err ≠ 0 →
    t.short = false ∧ t.result = 0 ∧ t.outLen = 0 ∧ s.SameInputs t
    ∧ (i.takesBits = true → t.err = 8 → t.br = { s.br with fault := true, pos := t.br.pos })
    ∧ (¬(i.takesBits = true ∧ t.err = 8) → t.br = s.br)
    ∧ (∀ n, i = .bwWrite n → t.err = 7 → t.bw = { s.bw with fault := true })
    ∧ ((∀ n, i = .bwWrite n → t.err ≠ 7) → t.bw = s.bw)

/-- R265: an error leaves every byte of memory as it was, except ERR_CAPACITY of BW.WRITE and GOR.ENC and, inside the item
loop of GOR.DEC, ERR_UNDERRUN and ERR_CORRUPT (a short header is ERR_CORRUPT before the loop). -/
def Obligations.PreciseErrorsKeepMemory : Prop :=
  ∀ (i : Instr) (s t : State), exec i s = .next t → t.err ≠ 0 →
    (∀ n, i = .bwWrite n → t.err ≠ 7) → (∀ w, i = .gorEnc w → t.err ≠ 7) →
    (∀ w, i = .gorDec w → t.err ≠ 8 ∧
      (t.err = 9 → s.srcLen.toNat < 8 ∨ (s.streamCount ≠ 0 ∧ s.srcLen.toNat < 8 + w.bytes))) →
    s.SameMemory t

/-- R194, R72, R75: the checks common to the whole-array commands, in their order: an illegal source or destination range is
ERR_RANGE; ranges that share a byte are ERR_OVERLAP; a byte that the platform does not admit is ERR_BUS. The rest of the state
is as error entry leaves it. That ERR_BUS comes before the refusal of a range that also covers a device or a window is log entry
13, and that ERR_RANGE and ERR_OVERLAP are raised on a platform that cannot check in advance too is log entry 14. -/
def Obligations.ArrayChecksInOrder : Prop :=
  ∀ (i : Instr) (s : State), i.isArray = true →
    let legal := s.srcLen.toNat ≤ 2 ^ 61 - 1 ∧ s.srcBase.toNat + s.srcLen.toNat ≤ 2 ^ 64
      ∧ s.dstCap.toNat ≤ 2 ^ 61 - 1 ∧ s.dstBase.toNat + s.dstCap.toNat ≤ 2 ^ 64
    let inSrc := fun a => s.srcBase.toNat ≤ a ∧ a < s.srcBase.toNat + s.srcLen.toNat
    let inDst := fun a => s.dstBase.toNat ≤ a ∧ a < s.dstBase.toNat + s.dstCap.toNat
    let failsWith := fun code : Byte =>
      exec i s = .next { s with err := code, short := false, result := 0, outLen := 0 }
    (¬legal → failsWith 4)
    ∧ (legal → (∃ a, inSrc a ∧ inDst a) → failsWith 5)
    ∧ (legal → (¬∃ a, inSrc a ∧ inDst a) → s.platform.checksAhead = true →
        (∃ a, (inSrc a ∨ inDst a) ∧ s.platform.admits a = false) → failsWith 10)

/-- R133, R162, R72, R74: BR.INIT and BW.INIT on an illegal range raise ERR_RANGE, and on a legal one with a byte that the
platform does not admit ERR_BUS; the units and memory are left exactly as they were. That ERR_BUS comes before the refusal of a
range that also covers a device or a window is log entry 13, and that ERR_RANGE is raised on a platform that cannot check in
advance too is log entry 14. -/
def Obligations.InitErrors : Prop :=
  ∀ s : State,
    let failsWith := fun (i : Instr) (code : Byte) =>
      exec i s = .next { s with err := code, short := false, result := 0, outLen := 0 }
    (¬(s.srcLen.toNat ≤ 2 ^ 61 - 1 ∧ s.srcBase.toNat + s.srcLen.toNat ≤ 2 ^ 64) → failsWith .brInit 4)
    ∧ (s.srcLen.toNat ≤ 2 ^ 61 - 1 → s.srcBase.toNat + s.srcLen.toNat ≤ 2 ^ 64 → s.platform.checksAhead = true →
        (∃ a, s.srcBase.toNat ≤ a ∧ a < s.srcBase.toNat + s.srcLen.toNat ∧ s.platform.admits a = false) →
        failsWith .brInit 10)
    ∧ (¬(s.dstCap.toNat ≤ 2 ^ 61 - 1 ∧ s.dstBase.toNat + s.dstCap.toNat ≤ 2 ^ 64) → failsWith .bwInit 4)
    ∧ (s.dstCap.toNat ≤ 2 ^ 61 - 1 → s.dstBase.toNat + s.dstCap.toNat ≤ 2 ^ 64 → s.platform.checksAhead = true →
        (∃ a, s.dstBase.toNat ≤ a ∧ a < s.dstBase.toNat + s.dstCap.toNat ∧ s.platform.admits a = false) →
        failsWith .bwInit 10)

/-! ## BitReader -/

/-- R133: BR.INIT on a range that passes its checks binds the reader at position 0, unfaulted, and changes neither memory nor
the writer, RESULT or OUT_LEN. -/
def Obligations.BrInitBindsTheReader : Prop :=
  ∀ s : State, s.platform.admitOne s.srcBase s.srcLen = .pass →
    exec .brInit s = .next { s with
      err := 0, short := false
      br := { bound := true, fault := false, base := s.srcBase, len := s.srcLen, pos := 0 }
      ms := { s.ms with stale := [] } }

/-- R130, R132, R134, R135: BR.READ n on a ready reader with at least n bits left, none of whose source has been written since
BR.INIT (log entry 8), returns the next n bits of the source stream, most significant first, and consumes them. BR.READBIT is
BR.READ 1 in every respect. Nothing else changes, memory included (only the model's counter of free values moves). -/
def Obligations.BrReadReturnsTheNextBits : Prop :=
  (∀ (s : State) (n : BitVec 7), s.br.ready → s.ms.stale = [] → 1 ≤ n.toNat → n.toNat ≤ 64 →
    s.br.pos.toNat + n.toNat ≤ 8 * s.br.len.toNat →
    exec (.brRead n) s = .next { s with
      err := 0, short := false
      result := BitVec.ofNat 64 (val ((s.sourceStream.drop s.br.pos.toNat).take n.toNat))
      br := { s.br with pos := s.br.pos + BitVec.ofNat 64 n.toNat }
      ms := { s.ms with draws := s.ms.draws + n.toNat } })
  ∧ (∀ s : State, s.br.ready → s.ms.stale = [] → s.br.pos.toNat + 1 ≤ 8 * s.br.len.toNat →
    exec .brReadbit s = .next { s with
      err := 0, short := false
      result := BitVec.ofNat 64 (val ((s.sourceStream.drop s.br.pos.toNat).take 1))
      br := { s.br with pos := s.br.pos + 1 }
      ms := { s.ms with draws := s.ms.draws + 1 } })
  ∧ (∀ s : State, exec .brReadbit s = exec (.brRead 1) s)

/-- R136: BR.PEEK on a ready reader with at least 8 bits left, none of whose source has been written since BR.INIT (log entry
8), returns the next 8 bits and consumes none; nothing else changes, memory included. -/
def Obligations.BrPeekReturnsTheNextByte : Prop :=
  ∀ s : State, s.br.ready → s.ms.stale = [] → s.br.pos.toNat + 8 ≤ 8 * s.br.len.toNat →
    exec .brPeek s = .next { s with
      err := 0, short := false
      result := BitVec.ofNat 64 (val ((s.sourceStream.drop s.br.pos.toNat).take 8))
      ms := { s.ms with draws := s.ms.draws + 8 } }

/-- R132, R136: a read of more bits than remain, and a peek with fewer than 8 left, raise ERR_UNDERRUN and fault the reader;
`br.pos` is then unspecified. No memory changes. -/
def Obligations.ReadPastTheEndFaultsTheReader : Prop :=
  ∀ (i : Instr) (k : Nat) (s : State),
    (∃ n, i = .brRead n ∧ 1 ≤ n.toNat ∧ n.toNat ≤ 64 ∧ k = n.toNat) ∨ (i = .brReadbit ∧ k = 1) ∨ (i = .brPeek ∧ k = 8) →
    s.br.ready → 8 * s.br.len.toNat - s.br.pos.toNat < k →
    ∃ p, exec i s = .next { s with
      err := 8, short := false, result := 0, outLen := 0
      br := { s.br with fault := true, pos := p }
      ms := { s.ms with draws := s.ms.draws + 1 } }

/-- R137, R138, R139: on a ready reader BR.COUNT returns `br.pos`, BR.REMAIN the bits left, and BR.EOF 1 exactly when none is
left, whatever has been written to the source; nothing else changes. R141 (a), (b): the count and the rest add up to the whole
stream, and BR.EOF is 1 exactly when BR.REMAIN is 0. -/
def Obligations.ReaderQueries : Prop :=
  ∀ s : State, s.br.ready →
    exec .brCount s = .next { s with err := 0, short := false, result := s.br.pos }
    ∧ exec .brRemain s = .next { s with
        err := 0, short := false, result := BitVec.ofNat 64 (8 * s.br.len.toNat - s.br.pos.toNat) }
    ∧ (∃ v, exec .brEof s = .next { s with err := 0, short := false, result := v }
        ∧ (8 * s.br.len.toNat - s.br.pos.toNat = 0 → v = 1) ∧ (8 * s.br.len.toNat - s.br.pos.toNat ≠ 0 → v = 0))
    ∧ (s.br.inBounds → ∀ t u v, exec .brCount s = .next t → exec .brRemain s = .next u → exec .brEof s = .next v →
        t.result.toNat + u.result.toNat = 8 * s.br.len.toNat ∧ (v.result = 1 ↔ u.result = 0))

/-- R140: BR.RELEASE detaches the reader and clears its fault, whatever its state, and changes neither memory, the writer,
RESULT nor OUT_LEN. That the fields no rule reads keep their values is the model's reading (log entry 7). -/
def Obligations.BrReleaseDetachesTheReader : Prop :=
  ∀ s : State, exec .brRelease s = .next { s with
    err := 0, short := false
    br := { s.br with bound := false, fault := false }
    ms := { s.ms with stale := [] } }

/-- R131, R142: every BR command but BR.INIT and BR.RELEASE on a reader that is not bound raises ERR_UNBOUND, and on a faulted
one ERR_FAULTED; it changes no unit state and no memory. -/
def Obligations.ReaderNotReady : Prop :=
  ∀ (i : Instr) (s : State),
    (∃ n, i = .brRead n ∧ 1 ≤ n.toNat ∧ n.toNat ≤ 64) ∨ i = .brReadbit ∨ i = .brPeek ∨ i = .brEof ∨ i = .brCount
      ∨ i = .brRemain →
    (s.br.bound = false → exec i s = .next { s with err := 2, short := false, result := 0, outLen := 0 })
    ∧ (s.br.bound = true → s.br.fault = true →
        exec i s = .next { s with err := 3, short := false, result := 0, outLen := 0 })

/-- R141 (c): two reads give the same bits and the same position as one read of both counts. -/
def Obligations.SplittingARead : Prop :=
  ∀ (s t u v : State) (a b c : BitVec 7), s.br.ready → s.br.inBounds → s.ms.stale = [] →
    1 ≤ a.toNat → 1 ≤ b.toNat → c.toNat = a.toNat + b.toNat → c.toNat ≤ 64 →
    exec (.brRead a) s = .next t → t.err = 0 → exec (.brRead b) t = .next u → u.err = 0 →
    exec (.brRead c) s = .next v →
    v.err = 0 ∧ v.br = u.br ∧ v.result = (t.result <<< b.toNat) ||| u.result

/-- R141 (d), (e), R52: a sequence of reads that asks for no more than the bits left succeeds and returns them in order, so that
one which asks for every bit of a freshly bound reader returns the whole source; memory is as it was. -/
def Obligations.ReadsReturnTheSource : Prop :=
  ∀ (s : State) (ns : List (BitVec 7)), s.br.ready → s.br.inBounds → s.ms.stale = [] →
    (∀ n ∈ ns, 1 ≤ n.toNat ∧ n.toNat ≤ 64) →
    s.br.pos.toNat + (ns.map BitVec.toNat).sum ≤ 8 * s.br.len.toNat →
    ∃ t, s.readRun ns = some ((s.sourceStream.drop s.br.pos.toNat).take (ns.map BitVec.toNat).sum, t)
      ∧ t.br = { s.br with pos := BitVec.ofNat 64 (s.br.pos.toNat + (ns.map BitVec.toNat).sum) }
      ∧ s.SameMemory t
      ∧ (s.br.pos = 0 → (ns.map BitVec.toNat).sum = 8 * s.br.len.toNat →
          s.readRun ns = some (stream (Memory.bytes s.ms.cells s.br.base.toNat s.br.len.toNat), t))

/-- R300: BR.READ and BR.PEEK of bits of a source that has been written since BR.INIT complete all the same and return exactly the
source's bits but for those of the bytes recorded as written (log entry 8), whose values are free. BR.READ consumes its bits, BR.PEEK
none. -/
def Obligations.ReadsOfAWrittenSource : Prop :=
  (∀ (s : State) (n : BitVec 7), s.br.ready → 1 ≤ n.toNat → n.toNat ≤ 64 →
    s.br.pos.toNat + n.toNat ≤ 8 * s.br.len.toNat →
    ∃ v : Word, exec (.brRead n) s = .next { s with
        err := 0, short := false, result := v
        br := { s.br with pos := s.br.pos + BitVec.ofNat 64 n.toNat }
        ms := { s.ms with draws := s.ms.draws + n.toNat } }
      ∧ v.toNat < 2 ^ n.toNat
      ∧ ∀ j, j < n.toNat → (s.br.pos.toNat + j) / 8 ∉ s.ms.stale →
          s.sourceStream[s.br.pos.toNat + j]? = some (v.getLsbD (n.toNat - 1 - j)))
  ∧ ∀ s : State, s.br.ready → s.br.pos.toNat + 8 ≤ 8 * s.br.len.toNat →
    ∃ v : Word, exec .brPeek s = .next { s with
        err := 0, short := false, result := v, ms := { s.ms with draws := s.ms.draws + 8 } }
      ∧ v.toNat < 2 ^ 8
      ∧ ∀ j, j < 8 → (s.br.pos.toNat + j) / 8 ∉ s.ms.stale →
          s.sourceStream[s.br.pos.toNat + j]? = some (v.getLsbD (7 - j))

/-- R300, R301, R278: a byte of a bound reader's range is recorded as written (log entry 8), whichever instance's reader it is, when
the host writes it and when a command of any instance changes it. The instance's own reader records, be the value the same or not,
the output of a Gorilla or BSS command, each byte that a flush by BW.FLUSH, BW.INIT or BW.RELEASE makes final, each whole byte that
the writer stores early during a BW.WRITE, and each byte that ERR_CAPACITY of BW.WRITE or GOR.ENC leaves unspecified. No command but
BR.INIT and BR.RELEASE drops a record of it, and no command drops one of another instance. -/
def Obligations.WritesToTheBoundSourceAreRecorded : Prop :=
  (∀ (s t : State) (a : Word) (b : Byte) (rest : List HostOp), s.host = .memWrite a b :: rest → step s = .next t →
    (s.br.covers a.toNat = true → a.toNat - s.br.base.toNat ∈ t.ms.stale)
    ∧ ∀ p ∈ t.ms.others, p.br.covers a.toNat = true → a.toNat - p.br.base.toNat ∈ p.stale)
  ∧ (∀ (i : Instr) (s t : State) (a : Nat), exec i s = .next t → t.byteAt a ≠ s.byteAt a →
    (s.br.covers a = true → a - s.br.base.toNat ∈ t.ms.stale)
    ∧ ∀ p ∈ t.ms.others, p.br.covers a = true → a - p.br.base.toNat ∈ p.stale)
  ∧ (∀ (i : Instr) (s t : State) (a : Nat), i.isArray = true → exec i s = .next t → t.err = 0 →
    s.dstBase.toNat ≤ a → a < s.dstBase.toNat + t.outLen.toNat → s.br.covers a = true →
    a - s.br.base.toNat ∈ t.ms.stale)
  ∧ (∀ (i : Instr) (s t : State) (k : Nat), i = .bwFlush ∨ i = .bwInit ∨ i = .bwRelease → s.bw.ready →
    exec i s = .next t → t.err = 0 → s.bw.final.toNat ≤ k → k < ceil8 s.bw.bits.length →
    s.br.covers (s.bw.base.toNat + k) = true → s.bw.base.toNat + k - s.br.base.toNat ∈ t.ms.stale)
  ∧ (∀ (s t : State) (n : BitVec 7) (k : Nat), exec (.bwWrite n) s = .next t →
    s.br.covers (s.bw.base.toNat + k) = true →
    (k ∈ t.ms.drained → k ∈ s.ms.drained) ∨ s.bw.base.toNat + k - s.br.base.toNat ∈ t.ms.stale)
  ∧ (∀ (s t : State) (n : BitVec 7) (a : Nat), exec (.bwWrite n) s = .next t → t.err = 7 →
    s.bw.base.toNat + s.bw.final.toNat ≤ a → a < s.bw.base.toNat + s.bw.cap.toNat → s.br.covers a = true →
    a - s.br.base.toNat ∈ t.ms.stale)
  ∧ (∀ (s t : State) (w : Width) (a : Nat), exec (.gorEnc w) s = .next t → t.err = 7 →
    s.dstBase.toNat ≤ a → a < s.dstBase.toNat + s.dstCap.toNat → s.br.covers a = true →
    a - s.br.base.toNat ∈ t.ms.stale)
  ∧ (∀ (i : Instr) (s t : State) (k : Nat), exec i s = .next t → i ≠ .brInit → i ≠ .brRelease →
    k ∈ s.ms.stale → k ∈ t.ms.stale)
  ∧ ∀ (i : Instr) (s t : State), exec i s = .next t → ∀ p ∈ s.ms.others, ∃ q ∈ t.ms.others,
    q.registers = p.registers ∧ ∀ k ∈ p.stale, k ∈ q.stale

/-! ## BitWriter -/

/-- R162: BW.INIT on a range that passes its checks binds the writer, unfaulted and empty. A writer that was ready is flushed
first: each of its bytes not yet final, and not stored before (log entry 9), gets its byte of `pack(bw.bits)`; one stored before
keeps what memory holds, and nothing else of memory changes; with no ready writer no memory changes. RESULT, OUT_LEN and the reader
stay. -/
def Obligations.BwInitBindsTheWriter : Prop :=
  ∀ s : State, s.platform.admitOne s.dstBase s.dstCap = .pass →
    ∃ m : MemSystem, exec .bwInit s = .next { s with
        err := 0, short := false
        bw := { bound := true, fault := false, base := s.dstBase, cap := s.dstCap, bits := [], user := 0, final := 0 }
        ms := m }
      ∧ m.drained = []
      ∧ (¬s.bw.ready → m.cells = s.ms.cells)
      ∧ (s.bw.ready → ∀ k, s.bw.final.toNat ≤ k → k < ceil8 s.bw.bits.length →
          some (Memory.read m.cells (s.bw.base.toNat + k))
            = if k ∈ s.ms.drained then some (s.byteAt (s.bw.base.toNat + k)) else (pack s.bw.bits)[k]?)
      ∧ (∀ a, ¬(s.bw.base.toNat + s.bw.final.toNat ≤ a ∧ a < s.bw.base.toNat + ceil8 s.bw.bits.length) →
          Memory.read m.cells a = s.byteAt a)

/-- R163, R84, R302 (b) to (d): BW.WRITE n on a ready writer that has room appends the low n bits of ARG, most significant
first, and adds n to the user's count. Of memory only whole bytes not yet final may change, and such a byte either keeps its
value or becomes its byte of `pack(bw.bits)`. The reader, RESULT and OUT_LEN stay. -/
def Obligations.BwWriteAppends : Prop :=
  ∀ (s : State) (n : BitVec 7), s.bw.ready → 1 ≤ n.toNat → n.toNat ≤ 64 →
    s.bw.bits.length + n.toNat ≤ 8 * s.bw.cap.toNat →
    ∃ m : MemSystem, exec (.bwWrite n) s = .next { s with
        err := 0, short := false
        bw := { s.bw with bits := s.bw.bits ++ bitsN n.toNat (s.arg.toNat % 2 ^ n.toNat),
                          user := s.bw.user + BitVec.ofNat 64 n.toNat }
        ms := m }
      ∧ (∀ k, s.bw.final.toNat ≤ k → 8 * (k + 1) ≤ s.bw.bits.length + n.toNat →
          Memory.read m.cells (s.bw.base.toNat + k) = s.byteAt (s.bw.base.toNat + k)
          ∨ some (Memory.read m.cells (s.bw.base.toNat + k))
              = (pack (s.bw.bits ++ bitsN n.toNat (s.arg.toNat % 2 ^ n.toNat)))[k]?)
      ∧ (∀ a, ¬(s.bw.base.toNat + s.bw.final.toNat ≤ a
              ∧ a < s.bw.base.toNat + (s.bw.bits.length + n.toNat) / 8) → Memory.read m.cells a = s.byteAt a)

/-- R163, R169: BW.WRITE n on a ready writer without room raises ERR_CAPACITY and faults the writer, which appends nothing; every
byte outside `[bw.base + bw.final, bw.base + bw.cap)` keeps its value (those inside are free). -/
def Obligations.BwWriteOverflowFaultsTheWriter : Prop :=
  ∀ (s : State) (n : BitVec 7), s.bw.ready → 1 ≤ n.toNat → n.toNat ≤ 64 →
    8 * s.bw.cap.toNat < s.bw.bits.length + n.toNat →
    ∃ m : MemSystem, exec (.bwWrite n) s = .next { s with
        err := 7, short := false, result := 0, outLen := 0, bw := { s.bw with fault := true }, ms := m }
      ∧ ∀ a, ¬(s.bw.base.toNat + s.bw.final.toNat ≤ a ∧ a < s.bw.base.toNat + s.bw.cap.toNat) →
          Memory.read m.cells a = s.byteAt a

/-- R161, R164, R37: BW.FLUSH on a ready writer pads its bits with zeros to a byte boundary, makes every byte final and reports
their number in OUT_LEN. Each byte not yet final, and not stored before (log entry 9), gets its byte of `pack(bw.bits)`; one
stored before keeps what memory holds; no other byte of memory changes. -/
def Obligations.BwFlushMakesEveryByteFinal : Prop :=
  ∀ s : State, s.bw.ready →
    ∃ m : MemSystem, exec .bwFlush s = .next { s with
        err := 0, short := false, outLen := BitVec.ofNat 64 (ceil8 s.bw.bits.length)
        bw := { s.bw with bits := s.bw.bits ++ zeros ((8 - s.bw.bits.length % 8) % 8),
                          final := BitVec.ofNat 64 (ceil8 s.bw.bits.length) }
        ms := m }
      ∧ m.drained = []
      ∧ (∀ k, s.bw.final.toNat ≤ k → k < ceil8 s.bw.bits.length →
          some (Memory.read m.cells (s.bw.base.toNat + k))
            = if k ∈ s.ms.drained then some (s.byteAt (s.bw.base.toNat + k)) else (pack s.bw.bits)[k]?)
      ∧ (∀ a, ¬(s.bw.base.toNat + s.bw.final.toNat ≤ a ∧ a < s.bw.base.toNat + ceil8 s.bw.bits.length) →
          Memory.read m.cells a = s.byteAt a)

/-- R167, R168: a flush leaves at most the capacity in bits and bytes, and `len(bw.bits) = 8 * bw.final`. A second flush right
after leaves every value as it was, and one from any later state with the same writer adds no pad bit and writes no byte. -/
def Obligations.FlushFitsAndIsIdempotent : Prop :=
  ∀ s t : State, s.bw.ready → s.bw.inBounds → exec .bwFlush s = .next t →
    t.bw.bits.length ≤ 8 * s.bw.cap.toNat ∧ t.bw.final.toNat ≤ s.bw.cap.toNat
    ∧ t.bw.bits.length = 8 * t.bw.final.toNat ∧ exec .bwFlush t = .next t
    ∧ ∀ u : State, u.bw = t.bw → ∃ v, exec .bwFlush u = .next v ∧ v.bw = u.bw ∧ v.outLen = t.outLen ∧ v.ms.cells = u.ms.cells

/-- R165: BW.COUNT on a ready writer returns the bits written, with or without the pad bits of its flushes: one choice for every
state, which the parameter P_BW_COUNT_PAD leaves open. Nothing else changes. -/
def Obligations.BwCountReturnsTheBitsWritten : Prop :=
  ∃ pad : Bool, ∀ s : State, s.bw.ready → exec .bwCount s = .next { s with
    err := 0, short := false, result := if pad then BitVec.ofNat 64 s.bw.bits.length else s.bw.user }

/-- R166: BW.RELEASE flushes a ready writer, reporting its bytes in OUT_LEN, and detaches it, clearing a fault. Each byte not yet
final, and not stored before (log entry 9), gets its byte of `pack(bw.bits)`; one stored before keeps what memory holds, and no
other byte changes. A writer that is faulted or
unbound is not flushed: memory and OUT_LEN stay. RESULT and the reader stay. That the fields no rule reads keep their values is
the model's reading (log entry 7). -/
def Obligations.BwReleaseDetachesTheWriter : Prop :=
  ∀ s : State,
    (s.bw.ready → ∃ m : MemSystem, exec .bwRelease s = .next { s with
        err := 0, short := false, outLen := BitVec.ofNat 64 (ceil8 s.bw.bits.length)
        bw := { s.bw with bound := false, fault := false
                          bits := s.bw.bits ++ zeros ((8 - s.bw.bits.length % 8) % 8)
                          final := BitVec.ofNat 64 (ceil8 s.bw.bits.length) }
        ms := m }
      ∧ (∀ k, s.bw.final.toNat ≤ k → k < ceil8 s.bw.bits.length →
          some (Memory.read m.cells (s.bw.base.toNat + k))
            = if k ∈ s.ms.drained then some (s.byteAt (s.bw.base.toNat + k)) else (pack s.bw.bits)[k]?)
      ∧ (∀ a, ¬(s.bw.base.toNat + s.bw.final.toNat ≤ a ∧ a < s.bw.base.toNat + ceil8 s.bw.bits.length) →
          Memory.read m.cells a = s.byteAt a))
    ∧ (¬s.bw.ready → exec .bwRelease s = .next { s with
        err := 0, short := false, bw := { s.bw with bound := false, fault := false }
        ms := { s.ms with drained := [] } })

/-- R161: BW.WRITE, BW.FLUSH and BW.COUNT on a writer that is not bound raise ERR_UNBOUND, and on a faulted one ERR_FAULTED; they
change no unit state and no memory. -/
def Obligations.WriterNotReady : Prop :=
  ∀ (i : Instr) (s : State), (∃ n, i = .bwWrite n ∧ 1 ≤ n.toNat ∧ n.toNat ≤ 64) ∨ i = .bwFlush ∨ i = .bwCount →
    (s.bw.bound = false → exec i s = .next { s with err := 2, short := false, result := 0, outLen := 0 })
    ∧ (s.bw.bound = true → s.bw.fault = true →
        exec i s = .next { s with err := 3, short := false, result := 0, outLen := 0 })

/-- R171: after BW.INIT, writes that fit the capacity all succeed, and the BW.FLUSH after them leaves in the destination exactly
`pack` of the appended bits, in the bytes that hold them and no others, and their number in OUT_LEN. -/
def Obligations.WritesThenFlushGiveTheirBytes : Prop :=
  ∀ (s t : State) (ws : List (BitVec 7 × Word)), s.platform.admitOne s.dstBase s.dstCap = .pass →
    exec .bwInit s = .next t → (∀ p ∈ ws, 1 ≤ p.1.toNat ∧ p.1.toNat ≤ 64) →
    (ws.map fun p => p.1.toNat).sum ≤ 8 * s.dstCap.toNat →
    ∃ u v, t.writeRun ws = some u ∧ exec .bwFlush u = .next v ∧ v.err = 0
      ∧ v.outLen = BitVec.ofNat 64 (ceil8 (ws.map fun p => p.1.toNat).sum)
      ∧ Memory.bytes v.ms.cells s.dstBase.toNat (ceil8 (ws.map fun p => p.1.toNat).sum)
          = pack (ws.flatMap fun p => bitsN p.1.toNat (p.2.toNat % 2 ^ p.1.toNat))
      ∧ t.SameMemoryOutside v s.dstBase.toNat (ceil8 (ws.map fun p => p.1.toNat).sum)

/-- R303: a host write to byte k of a ready writer's range, then a flush. (a) A byte already final keeps the value written.
(b) A whole byte not yet final holds the value written or its byte of `pack(bw.bits)`. (c) The partial last byte gets its byte of
`pack(bw.bits)`, and a byte beyond the bits held keeps the value written over this flush, which does not make it final. -/
def Obligations.HostWritesToABoundDestination : Prop :=
  ∀ (s t u : State) (k : Nat) (a : Word) (b : Byte) (rest : List HostOp), s.Sound → s.bw.ready →
    a.toNat = s.bw.base.toNat + k → s.host = .memWrite a b :: rest → step s = .next t → exec .bwFlush t = .next u →
    (k < s.bw.final.toNat → u.byteAt a.toNat = b)
    ∧ (s.bw.final.toNat ≤ k → 8 * (k + 1) ≤ s.bw.bits.length →
        u.byteAt a.toNat = b ∨ some (u.byteAt a.toNat) = (pack s.bw.bits)[k]?)
    ∧ (8 * k < s.bw.bits.length → s.bw.bits.length < 8 * (k + 1) → some (u.byteAt a.toNat) = (pack s.bw.bits)[k]?)
    ∧ (s.bw.bits.length ≤ 8 * k → u.byteAt a.toNat = b)

/-! ## Host memory -/

/-- R70, R88: a host store to a byte that is ordinary memory puts the value there and changes no other byte, no register and no
unit of any instance; a host load of one returns it and changes nothing else. That the host accesses memory a byte at a time is the
model's choice (log entry 16). R39: a byte access to a register window is refused (log entry 15), and so is one to a device outside
the windows (log entry 13). -/
def Obligations.HostMemoryAccesses : Prop :=
  ∀ (s : State) (a : Word) (rest : List HostOp),
    let inWindow := ∃ b ∈ s.platform.windows, b.toNat ≤ a.toNat ∧ a.toNat < b.toNat + 0x100
    let inDevice := ∃ d ∈ s.platform.devices, d.base ≤ a.toNat ∧ a.toNat < d.base + d.len
    (¬inWindow → ¬inDevice →
      (∀ b, s.host = .memWrite a b :: rest → ∃ m : MemSystem, step s = .next { s with host := rest, ms := m }
        ∧ Memory.read m.cells a.toNat = b ∧ (∀ x, x ≠ a.toNat → Memory.read m.cells x = s.byteAt x)
        ∧ m.others.map Block.registers = s.ms.others.map Block.registers)
      ∧ (s.host = .memRead a :: rest →
          step s = .next { s with host := rest, hostData := (s.byteAt a.toNat).setWidth 64 }))
    ∧ (inWindow → (∀ b, s.host = .memWrite a b :: rest → step s = .refused .windowAccess)
        ∧ (s.host = .memRead a :: rest → step s = .refused .windowAccess))
    ∧ (¬inWindow → inDevice → (∀ b, s.host = .memWrite a b :: rest → step s = .refused .deviceRange)
        ∧ (s.host = .memRead a :: rest → step s = .refused .deviceRange))

/-! ## Gorilla -/

/-- R15, R196, R197, R198, R199: the item code of a non-zero XOR. Its bits above `w - lz` and below `tz` are 0 and its bits
`w - 1 - lz` and `tz` are 1; it reuses the window in force when that one contains it, losing no bit, and otherwise opens a new
one; a zero XOR is the single bit 0. -/
def Obligations.GorillaItemCodes : Prop :=
  (∀ (w : Width) (win : Window), encItem w 0 win = ([false], win))
  ∧ ∀ (w : Width) (x : Nat) (win : Window), x ≠ 0 → x < 2 ^ w.bits →
    ∃ lz tz db, lz + db + tz = w.bits ∧ 1 ≤ db
      ∧ x.testBit (w.bits - 1 - lz) = true ∧ x < 2 ^ (w.bits - lz)
      ∧ x.testBit tz = true ∧ (∀ i, i < tz → x.testBit i = false)
      ∧ (win.lz ≤ lz → win.tz ≤ tz → win.dataBits ≠ 0 →
          encItem w x win = ([true, false] ++ bitsN win.dataBits (x >>> win.tz), win)
            ∧ (x >>> win.tz) <<< win.tz = x
            ∧ (win.lz + win.dataBits + win.tz = w.bits → x >>> win.tz < 2 ^ win.dataBits))
      ∧ (¬(win.lz ≤ lz ∧ win.tz ≤ tz ∧ win.dataBits ≠ 0) →
          encItem w x win
            = ([true, true] ++ bitsN w.leadingZeroBitlen lz ++ bitsN w.dataBitlen db ++ bitsN db (x >>> tz),
                ⟨lz, db, tz⟩)
            ∧ lz < 2 ^ w.leadingZeroBitlen ∧ db < 2 ^ w.dataBitlen
            ∧ (x >>> tz).testBit (db - 1) = true ∧ (x >>> tz).testBit 0 = true)

/-- R190, R191, R195, R200, R201, R203 (a), (b), R214: the stream of N words is the count, the first word and the packed item codes,
each of the XOR of a word with the one before, from the empty window on and with the window each code leaves. It has 8 bytes for no
word, 8 + W for one and at most `8 + W + ceil8((N - 1) * (2 + LZB + DB + w))`, and N equal words take exactly `8 + W + ceil8(N - 1)`,
their tail all zeros. -/
def Obligations.GorillaStreamFormat : Prop :=
  ∀ w : Width,
    gorillaEncode w [] = leBytes 8 0
    ∧ (∀ x xs, gorillaEncode w (x :: xs)
        = leBytes 8 (xs.length + 1) ++ leBytes w.bytes x ++ pack (encTail w ⟨0, 0, 0⟩ x xs))
    ∧ (∀ win prev, encTail w win prev [] = [])
    ∧ (∀ win prev x xs, encTail w win prev (x :: xs)
        = (encItem w (x ^^^ prev) win).1 ++ encTail w (encItem w (x ^^^ prev) win).2 x xs)
    ∧ (∀ x, (gorillaEncode w [x]).length = 8 + w.bytes)
    ∧ (∀ x xs, (∀ y ∈ x :: xs, y < 2 ^ w.bits) → (gorillaEncode w (x :: xs)).length
        ≤ 8 + w.bytes + ceil8 (xs.length * (2 + w.leadingZeroBitlen + w.dataBitlen + w.bits)))
    ∧ (∀ x n, (gorillaEncode w (List.replicate (n + 1) x)).length = 8 + w.bytes + ceil8 n
        ∧ encTail w ⟨0, 0, 0⟩ x (List.replicate n x) = zeros n)

/-- R195, R202: GOR.ENC, once the checks of R194 pass, on whole words and with room for the stream, stores the stream of the
source words at DST_BASE and its length in OUT_LEN; no other byte of memory, no unit and no other register changes. -/
def Obligations.GorEncStoresTheStream : Prop :=
  ∀ (s : State) (w : Width), s.arrayAdmission = .pass → s.srcLen.toNat % w.bytes = 0 →
    (gorillaEncode w (s.srcWords w)).length ≤ s.dstCap.toNat →
    ∃ m : MemSystem, exec (.gorEnc w) s = .next { s with
        err := 0, short := false
        outLen := BitVec.ofNat 64 (gorillaEncode w (s.srcWords w)).length, ms := m }
      ∧ Memory.bytes m.cells s.dstBase.toNat (gorillaEncode w (s.srcWords w)).length = gorillaEncode w (s.srcWords w)
      ∧ ∀ a, ¬(s.dstBase.toNat ≤ a ∧ a < s.dstBase.toNat + (gorillaEncode w (s.srcWords w)).length) →
          Memory.read m.cells a = s.byteAt a

/-- R195, R202, R240, R242, R263 (6), (8), (9): once the checks of R194 pass, a source length that is not a multiple of W is
ERR_LENGTH for GOR.ENC, BSS.ENC and BSS.DEC, with nothing else changed; then too small a destination is ERR_CAPACITY, for the BSS
commands with nothing else changed and for GOR.ENC with every byte outside the destination range as it was. -/
def Obligations.LengthAndCapacityErrors : Prop :=
  ∀ (s : State) (w : Width), s.arrayAdmission = .pass →
    (s.srcLen.toNat % w.bytes ≠ 0 → ∀ i, i = .gorEnc w ∨ i = .bssEnc w ∨ i = .bssDec w →
      exec i s = .next { s with err := 6, short := false, result := 0, outLen := 0 })
    ∧ (s.srcLen.toNat % w.bytes = 0 → s.dstCap.toNat < s.srcLen.toNat → ∀ i, i = .bssEnc w ∨ i = .bssDec w →
      exec i s = .next { s with err := 7, short := false, result := 0, outLen := 0 })
    ∧ (s.srcLen.toNat % w.bytes = 0 → s.dstCap.toNat < (gorillaEncode w (s.srcWords w)).length →
      ∃ m : MemSystem,
        exec (.gorEnc w) s = .next { s with err := 7, short := false, result := 0, outLen := 0, ms := m }
        ∧ ∀ a, ¬(s.dstBase.toNat ≤ a ∧ a < s.dstBase.toNat + s.dstCap.toNat) → Memory.read m.cells a = s.byteAt a)

/-- R204, R205, R263 (7), (8): the header of GOR.DEC. With no room for the count ERR_CORRUPT; a zero count completes with OUT_LEN
0 and nothing written, whatever follows; with no room for the first word ERR_CORRUPT; and a count whose words exceed the capacity
ERR_CAPACITY, before anything is written. -/
def Obligations.GorDecHeader : Prop :=
  ∀ (s : State) (w : Width), s.arrayAdmission = .pass →
    (s.srcLen.toNat < 8 → exec (.gorDec w) s = .next { s with err := 9, short := false, result := 0, outLen := 0 })
    ∧ (8 ≤ s.srcLen.toNat → Memory.word s.ms.cells s.srcBase.toNat 8 = 0 →
        exec (.gorDec w) s = .next { s with err := 0, short := false, outLen := 0 })
    ∧ (8 ≤ s.srcLen.toNat → s.srcLen.toNat < 8 + w.bytes → Memory.word s.ms.cells s.srcBase.toNat 8 ≠ 0 →
        exec (.gorDec w) s = .next { s with err := 9, short := false, result := 0, outLen := 0 })
    ∧ (8 + w.bytes ≤ s.srcLen.toNat → s.dstCap.toNat < Memory.word s.ms.cells s.srcBase.toNat 8 * w.bytes →
        exec (.gorDec w) s = .next { s with err := 7, short := false, result := 0, outLen := 0 })

/-- R207, R208, R209, R211, R264: one item of the tail. A 0 repeats. An item cut short after a first control bit of 1 fails with
ERR_UNDERRUN. A 10 item without a window is ERR_CORRUPT whatever follows; with
one it takes the window's bits and shifts them, or fails for want of them. A 11 item fails with ERR_UNDERRUN when either field is
cut short, with ERR_CORRUPT when the fields give a bad window, and else takes its payload or fails for want of it. -/
def Obligations.GorillaItemDecoding : Prop :=
  ∀ (w : Width) (win : Window) (r : List Bool),
    decItem w win (false :: r) = .ok (0, win, r)
    ∧ decItem w win [true] = .error .underrun
    ∧ (win.dataBits = 0 → decItem w win (true :: false :: r) = .error .corrupt)
    ∧ (win.dataBits ≠ 0 → r.length < win.dataBits → decItem w win (true :: false :: r) = .error .underrun)
    ∧ (win.dataBits ≠ 0 → win.dataBits ≤ r.length →
        decItem w win (true :: false :: r)
          = .ok (val (r.take win.dataBits) <<< win.tz, win, r.drop win.dataBits))
    ∧ (r.length < w.leadingZeroBitlen + w.dataBitlen → decItem w win (true :: true :: r) = .error .underrun)
    ∧ (∀ (lz db : Nat) (p : List Bool), lz < 2 ^ w.leadingZeroBitlen → db < 2 ^ w.dataBitlen →
        r = bitsN w.leadingZeroBitlen lz ++ bitsN w.dataBitlen db ++ p →
        (db = 0 ∨ w.bits < lz + db → decItem w win (true :: true :: r) = .error .corrupt)
        ∧ (db ≠ 0 → lz + db ≤ w.bits → p.length < db → decItem w win (true :: true :: r) = .error .underrun)
        ∧ (db ≠ 0 → lz + db ≤ w.bits → db ≤ p.length →
            decItem w win (true :: true :: r)
              = .ok (val (p.take db) <<< (w.bits - lz - db), ⟨lz, db, w.bits - lz - db⟩, p.drop db)))

/-- R206, R210: GOR.DEC of a stream whose header passes and whose items decode stores the words produced at DST_BASE, little-endian,
gives their bytes in OUT_LEN, and sets SHORT exactly when the bits ended before the count; no other byte of memory, no unit and no
other register changes. -/
def Obligations.GorDecStoresTheWords : Prop :=
  ∀ (s : State) (w : Width) (xs : List Nat) (short : Bool), s.arrayAdmission = .pass →
    8 + w.bytes ≤ s.srcLen.toNat → s.streamCount ≠ 0 → s.streamCount * w.bytes ≤ s.dstCap.toNat →
    decTail w (s.streamCount - 1) ⟨0, 0, 0⟩ (s.streamFirst w) (s.streamTail w) = .ok (xs, short) →
    ∃ m : MemSystem, exec (.gorDec w) s = .next { s with
        err := 0, short := short, outLen := BitVec.ofNat 64 ((xs.length + 1) * w.bytes), ms := m }
      ∧ Memory.bytes m.cells s.dstBase.toNat ((xs.length + 1) * w.bytes)
          = (s.streamFirst w :: xs).flatMap (leBytes w.bytes)
      ∧ (∀ a, ¬(s.dstBase.toNat ≤ a ∧ a < s.dstBase.toNat + (xs.length + 1) * w.bytes) →
          Memory.read m.cells a = s.byteAt a)
      ∧ xs.length + 1 ≤ s.streamCount ∧ (short = true ↔ xs.length + 1 < s.streamCount)

/-- R206, R211: GOR.DEC of a stream whose header passes and one of whose items fails raises that item's error, ERR_UNDERRUN or
ERR_CORRUPT. Each byte of the words produced before the item keeps its value or gets that of its word (which of the two is free, log
entry 11), and every other byte of memory keeps its value. -/
def Obligations.GorDecItemErrors : Prop :=
  ∀ (s : State) (w : Width) (e : ErrorCode), s.arrayAdmission = .pass →
    8 + w.bytes ≤ s.srcLen.toNat → s.streamCount ≠ 0 → s.streamCount * w.bytes ≤ s.dstCap.toNat →
    decTail w (s.streamCount - 1) ⟨0, 0, 0⟩ (s.streamFirst w) (s.streamTail w) = .error e →
    let xs := s.streamFirst w :: decWords w (s.streamCount - 1) ⟨0, 0, 0⟩ (s.streamFirst w) (s.streamTail w)
    (e = .underrun ∨ e = .corrupt) ∧ xs.length ≤ s.streamCount
    ∧ ∃ m : MemSystem, exec (.gorDec w) s = .next { s with
          err := if e = .underrun then 8 else 9, short := false, result := 0, outLen := 0, ms := m }
        ∧ (∀ j, j < xs.length * w.bytes →
            Memory.read m.cells (s.dstBase.toNat + j) = s.byteAt (s.dstBase.toNat + j)
            ∨ some (Memory.read m.cells (s.dstBase.toNat + j)) = (xs.flatMap (leBytes w.bytes))[j]?)
        ∧ ∀ a, ¬(s.dstBase.toNat ≤ a ∧ a < s.dstBase.toNat + xs.length * w.bytes) →
            Memory.read m.cells a = s.byteAt a

/-- R206, R211, R212, R263 (9): the decode loop. It stops without error when no item is left to produce, and at the end of the bits;
otherwise it takes one item and goes on from the word that item gives. The first item that fails gives the loop's error, however many
came before, and the words produced are then those before it. Bits after the last item of a full count change nothing. -/
def Obligations.GorillaDecodeLoop : Prop :=
  ∀ (w : Width) (win : Window) (prev : Nat),
    (∀ bits, decTail w 0 win prev bits = .ok ([], false))
    ∧ (∀ n, decTail w (n + 1) win prev [] = .ok ([], true))
    ∧ (∀ n bits x win' rest ys short, bits ≠ [] → decItem w win bits = .ok (x, win', rest) →
        decTail w n win' (prev ^^^ x) rest = .ok (ys, short) →
        decTail w (n + 1) win prev bits = .ok ((prev ^^^ x) :: ys, short))
    ∧ (∀ n bits e, bits ≠ [] → decItem w win bits = .error e →
        decTail w (n + 1) win prev bits = .error e ∧ decWords w (n + 1) win prev bits = [])
    ∧ (∀ n bits x win' rest e, bits ≠ [] → decItem w win bits = .ok (x, win', rest) →
        decTail w n win' (prev ^^^ x) rest = .error e →
        decTail w (n + 1) win prev bits = .error e
        ∧ decWords w (n + 1) win prev bits = (prev ^^^ x) :: decWords w n win' (prev ^^^ x) rest)
    ∧ (∀ n bits ys more, decTail w n win prev bits = .ok (ys, false) →
        decTail w n win prev (bits ++ more) = .ok (ys, false))

/-- R213: for every width and every input that GOR.ENC encodes, GOR.DEC of exactly its output, with room for the words, completes
without error and not short, and gives back exactly the input bytes. -/
def Obligations.GorillaRoundTrip : Prop :=
  ∀ (s t u : State) (w : Width), exec (.gorEnc w) s = .next t → t.err = 0 →
    u.arrayAdmission = .pass → u.srcLen = t.outLen →
    Memory.bytes u.ms.cells u.srcBase.toNat u.srcLen.toNat = Memory.bytes t.ms.cells s.dstBase.toNat t.outLen.toNat →
    s.srcLen.toNat ≤ u.dstCap.toNat →
    ∃ v, exec (.gorDec w) u = .next v ∧ v.err = 0 ∧ v.short = false ∧ v.outLen = s.srcLen
      ∧ Memory.bytes v.ms.cells u.dstBase.toNat s.srcLen.toNat = Memory.bytes s.ms.cells s.srcBase.toNat s.srcLen.toNat

/-! ## Byte-stream split -/

/-- R240, R241, R242: BSS.ENC and BSS.DEC, once the checks of R194 pass, on whole elements and with room for the output, move byte
`i * W + b` of the elements to byte `b * N + i` of the planes and back, and give the source length in OUT_LEN; no other byte of
memory, no unit and no other register changes. -/
def Obligations.BssMovesBytesBetweenElementsAndPlanes : Prop :=
  ∀ (s : State) (w : Width) (n : Nat), s.arrayAdmission = .pass → s.srcLen.toNat = n * w.bytes →
    s.srcLen.toNat ≤ s.dstCap.toNat →
    (∃ m : MemSystem, exec (.bssEnc w) s = .next { s with err := 0, short := false, outLen := s.srcLen, ms := m }
      ∧ (∀ i b, i < n → b < w.bytes →
          Memory.read m.cells (s.dstBase.toNat + (b * n + i)) = s.byteAt (s.srcBase.toNat + (i * w.bytes + b)))
      ∧ ∀ a, ¬(s.dstBase.toNat ≤ a ∧ a < s.dstBase.toNat + s.srcLen.toNat) → Memory.read m.cells a = s.byteAt a)
    ∧ (∃ m : MemSystem, exec (.bssDec w) s = .next { s with err := 0, short := false, outLen := s.srcLen, ms := m }
      ∧ (∀ i b, i < n → b < w.bytes →
          Memory.read m.cells (s.dstBase.toNat + (i * w.bytes + b)) = s.byteAt (s.srcBase.toNat + (b * n + i)))
      ∧ ∀ a, ¬(s.dstBase.toNat ≤ a ∧ a < s.dstBase.toNat + s.srcLen.toNat) → Memory.read m.cells a = s.byteAt a)

/-- R243 (a): BSS.DEC of the output of BSS.ENC at the same width, and BSS.ENC of the output of BSS.DEC, give the input back byte
for byte. -/
def Obligations.BssRoundTrip : Prop :=
  ∀ (s t u : State) (w : Width) (i j : Instr),
    (i = .bssEnc w ∧ j = .bssDec w) ∨ (i = .bssDec w ∧ j = .bssEnc w) →
    exec i s = .next t → t.err = 0 → u.arrayAdmission = .pass → u.srcLen = t.outLen → u.srcLen.toNat ≤ u.dstCap.toNat →
    Memory.bytes u.ms.cells u.srcBase.toNat u.srcLen.toNat = Memory.bytes t.ms.cells s.dstBase.toNat t.outLen.toNat →
    ∃ v, exec j u = .next v ∧ v.err = 0 ∧ v.outLen = s.srcLen
      ∧ Memory.bytes v.ms.cells u.dstBase.toNat s.srcLen.toNat = Memory.bytes s.ms.cells s.srcBase.toNat s.srcLen.toNat

/-! ## The whole machine -/

/-- R71, R172, R215, R243 (e): what a command can write. A Gorilla or BSS command changes neither unit and no byte outside the
destination range; a writer command changes no byte but those not yet final of a ready writer's own range, and never the reader;
every other command changes no byte of memory and never the writer. -/
def Obligations.CommandsWriteOnlyTheirOwnRanges : Prop :=
  ∀ (i : Instr) (s t : State), exec i s = .next t →
    (i.isArray = true → t.br = s.br ∧ t.bw = s.bw ∧ s.SameMemoryOutside t s.dstBase.toNat s.dstCap.toNat)
    ∧ (i.mayStore = true → t.br = s.br
        ∧ (s.bw.inBounds → s.bw.ready →
            s.SameMemoryOutside t (s.bw.base.toNat + s.bw.final.toNat) (s.bw.cap.toNat - s.bw.final.toNat))
        ∧ (¬s.bw.ready → s.SameMemory t))
    ∧ (i.isArray = false → i.mayStore = false → t.bw = s.bw ∧ s.SameMemory t)

/-- R216, R243 (d), R71: the outcome of a successful Gorilla or BSS command depends on the source bytes alone: from any two states
with the same source bytes, wherever they lie, whatever the destination, the units and the rest of memory, it writes the same bytes
and reports the same OUT_LEN and SHORT. -/
def Obligations.ArrayCommandsDependOnTheSourceAlone : Prop :=
  ∀ (i : Instr) (s s' t t' : State), i.isArray = true → exec i s = .next t → exec i s' = .next t' →
    t.err = 0 → t'.err = 0 → s'.srcLen = s.srcLen →
    Memory.bytes s'.ms.cells s'.srcBase.toNat s.srcLen.toNat = Memory.bytes s.ms.cells s.srcBase.toNat s.srcLen.toNat →
    t'.outLen = t.outLen ∧ t'.short = t.short
      ∧ Memory.bytes t'.ms.cells s'.dstBase.toNat t.outLen.toNat = Memory.bytes t.ms.cells s.dstBase.toNat t.outLen.toNat

/-- R262, R85: the two cases in which a command that names ranges, a Gorilla or BSS command, BR.INIT or BW.INIT, has no outcome, once
its ranges are legal and share no byte. On a platform that cannot check in advance a command that names some byte is stuck; on one
that can, when the platform admits every byte, a byte of a device or of a register window makes the command refused. That range and
overlap errors and ERR_BUS come first, and that a command with no byte to check goes on, are log entries 13 and 14. -/
def Obligations.RangesTheModelStopsOn : Prop :=
  ∀ s : State,
    let special := fun a : Nat => (∃ b ∈ s.platform.windows, b.toNat ≤ a ∧ a < b.toNat + 0x100)
      ∨ ∃ d ∈ s.platform.devices, d.contains a = true
    let srcLegal := s.srcLen.toNat ≤ 2 ^ 61 - 1 ∧ s.srcBase.toNat + s.srcLen.toNat ≤ 2 ^ 64
    let dstLegal := s.dstCap.toNat ≤ 2 ^ 61 - 1 ∧ s.dstBase.toNat + s.dstCap.toNat ≤ 2 ^ 64
    let stopsOver := fun (i : Instr) (named : Nat → Bool) =>
      (s.platform.checksAhead = false → (∃ a, named a = true) → exec i s = .fault .noAdmissionCheck)
      ∧ (s.platform.checksAhead = true → (∀ a, named a = true → s.platform.admits a = true) →
          (∃ a, named a = true ∧ special a) → exec i s = .refused .deviceRange)
    (∀ i : Instr, i.isArray = true → srcLegal → dstLegal →
      (∀ a, s.srcRegion.contains a = true → s.dstRegion.contains a = false) →
      stopsOver i fun a => s.srcRegion.contains a || s.dstRegion.contains a)
    ∧ (srcLegal → stopsOver .brInit s.srcRegion.contains)
    ∧ (dstLegal → stopsOver .bwInit s.dstRegion.contains)
end

