-- ==== Sys2Proof/Laws/Bits.lean ====
section
/-! SUPPORT. Bit strings, bytes and words (00_scope.md R14 to R17). -/

namespace Sys2Proof.Machine

open Sys2Proof

@[simp] theorem length_bitsN (n v : Nat) : (bitsN n v).length = n := by
  induction n with
  | zero => rfl
  | succ n ih => simp [bitsN, ih]

@[simp] theorem length_zeros (k : Nat) : (zeros k).length = k := List.length_replicate

theorem val_lt (s : List Bool) : val s < 2 ^ s.length := by
  induction s with
  | nil => simp [val]
  | cons b s ih =>
    simp only [val, List.length_cons, Nat.pow_succ]
    cases b <;> simp only [Bool.toNat_true, Bool.toNat_false] <;> omega

/-- The value of `bits_n(v)` is the low `n` bits of `v` (R16). -/
theorem val_bitsN (n v : Nat) : val (bitsN n v) = v % 2 ^ n := by
  induction n with
  | zero => simp [bitsN, val, Nat.mod_one]
  | succ n ih =>
    simp only [bitsN, val, length_bitsN, ih]
    rw [Nat.mod_pow_succ, Nat.testBit_eq_decide_div_mod_eq]
    rcases Nat.mod_two_eq_zero_or_one (v / 2 ^ n) with h | h <;> simp [h, Nat.add_comm]

theorem val_bitsN_of_lt {n v : Nat} (h : v < 2 ^ n) : val (bitsN n v) = v := by
  rw [val_bitsN, Nat.mod_eq_of_lt h]

theorem bitsN_mod (n v : Nat) : bitsN n (v % 2 ^ n) = bitsN n v := by
  have key : ∀ m, m ≤ n → bitsN m (v % 2 ^ n) = bitsN m v := by
    intro m
    induction m with
    | zero => intro _; rfl
    | succ m ih =>
      intro h
      simp only [bitsN, ih (by omega), Nat.testBit_mod_two_pow]
      simp [show m < n by omega]
  exact key n le_rfl

theorem val_append (s t : List Bool) : val (s ++ t) = val s * 2 ^ t.length + val t := by
  induction s with
  | nil => simp [val]
  | cons b s ih => simp [val, ih, Nat.pow_add, Nat.add_mul, Nat.mul_assoc, Nat.add_assoc]

/-- A bit string is `bits_n` of its value. -/
theorem bitsN_val (s : List Bool) : bitsN s.length (val s) = s := by
  induction s with
  | nil => rfl
  | cons b s ih =>
    have hlt := val_lt s
    simp only [List.length_cons, bitsN, val]
    congr 1
    · cases b
      · simp [Nat.testBit_lt_two_pow hlt]
      · simp [Nat.testBit_two_pow_add_eq, Nat.testBit_lt_two_pow hlt]
    · rw [← bitsN_mod]
      rw [Nat.mul_add_mod_self_right, Nat.mod_eq_of_lt hlt, ih]

theorem takeBits_append (t r : List Bool) : takeBits t.length (t ++ r) = some (t, r) := by
  induction t with
  | nil => cases r <;> rfl
  | cons b t ih => simp [takeBits, ih]

/-- What `takeBits` answers: a string cut after `n` bits, or none when there are fewer. -/
theorem takeBits_eq (n : Nat) (s : List Bool) :
    takeBits n s = if n ≤ s.length then some (s.take n, s.drop n) else none := by
  induction n generalizing s with
  | zero => simp [takeBits]
  | succ n ih =>
    cases s with
    | nil => simp [takeBits]
    | cons b s =>
      simp only [takeBits, ih s, List.length_cons, Nat.add_le_add_iff_right]
      by_cases h : n ≤ s.length <;> simp [h]

theorem length_cutBytes (n : Nat) (s : List Bool) : (cutBytes n s).length = n := by
  induction n generalizing s with
  | zero => rfl
  | succ n ih => simp [cutBytes, ih]

/-- `len(pack(s)) = ceil8(len(s))` (R17). -/
@[simp] theorem length_pack (s : List Bool) : (pack s).length = ceil8 s.length := length_cutBytes _ _

theorem padLen_add (k : Nat) : k + padLen k = 8 * ceil8 k := by
  unfold padLen ceil8
  omega

theorem padLen_of_dvd {k : Nat} (h : k % 8 = 0) : padLen k = 0 := by
  simp [padLen, h]

theorem bitsN_eight_byte (b : Byte) : BitVec.ofNat 8 (val (bitsN 8 b.toNat)) = b := by
  rw [val_bitsN]
  apply BitVec.eq_of_toNat_eq
  simp [Nat.mod_eq_of_lt b.isLt]

@[simp] theorem length_stream (bs : List Byte) : (stream bs).length = 8 * bs.length := by
  induction bs with
  | nil => rfl
  | cons b bs ih =>
    simp only [stream, List.flatMap_cons, List.length_append, length_bitsN, List.length_cons] at ih ⊢
    omega

theorem stream_append (a b : List Byte) : stream (a ++ b) = stream a ++ stream b := by simp [stream]

/-- Cutting the stream of some bytes gives the bytes back. -/
theorem cutBytes_stream (bs : List Byte) (r : List Bool) : cutBytes bs.length (stream bs ++ r) = bs := by
  induction bs generalizing r with
  | nil => rfl
  | cons b bs ih =>
    have hs : stream (b :: bs) ++ r = bitsN 8 b.toNat ++ (stream bs ++ r) := by simp [stream]
    rw [hs, List.length_cons, cutBytes, List.take_left' (length_bitsN _ _), List.drop_left' (length_bitsN _ _),
      ih, bitsN_eight_byte]

/-- The stream of bytes cut from a bit string is the bit string. -/
theorem stream_cutBytes (n : Nat) (s : List Bool) (h : s.length = 8 * n) : stream (cutBytes n s) = s := by
  induction n generalizing s with
  | zero =>
    have : s = [] := List.length_eq_zero_iff.mp (by omega)
    subst this
    rfl
  | succ n ih =>
    have h8 : (s.take 8).length = 8 := by rw [List.length_take]; omega
    have hb : bitsN 8 (BitVec.ofNat 8 (val (s.take 8))).toNat = s.take 8 := by
      have hv := bitsN_val (s.take 8)
      have hl := val_lt (s.take 8)
      rw [h8] at hv hl
      rw [BitVec.toNat_ofNat, Nat.mod_eq_of_lt hl, hv]
    have : stream (cutBytes (n + 1) s) = s.take 8 ++ stream (cutBytes n (s.drop 8)) := by
      simp only [stream, cutBytes, List.flatMap_cons, hb]
    rw [this, ih _ (by rw [List.length_drop]; omega), List.take_append_drop]

/-- The stream of `pack(s)` is `s` with its pad bits (R17). -/
theorem stream_pack (s : List Bool) : stream (pack s) = s ++ zeros (padLen s.length) :=
  stream_cutBytes _ _ (by rw [List.length_append, length_zeros, padLen_add])

theorem pack_stream (bs : List Byte) : pack (stream bs) = bs := by
  have hc : ceil8 (stream bs).length = bs.length := by rw [length_stream]; unfold ceil8; omega
  rw [pack, hc, cutBytes_stream]

theorem getElem?_cutBytes (n : Nat) (s : List Bool) (k : Nat) :
    (cutBytes n s)[k]? = if k < n then some (BitVec.ofNat 8 (val ((s.drop (8 * k)).take 8))) else none := by
  induction n generalizing s k with
  | zero => simp [cutBytes]
  | succ n ih =>
    cases k with
    | zero => simp [cutBytes]
    | succ k =>
      simp only [cutBytes, List.getElem?_cons_succ, ih, List.drop_drop, Nat.add_lt_add_iff_right]
      rw [show 8 + 8 * k = 8 * (k + 1) by omega]

/-- Byte `k` of `pack(s)` for a whole byte of `s`: the value of its 8 bits. -/
theorem getElem?_pack_whole {s : List Bool} {k : Nat} (h : 8 * (k + 1) ≤ s.length) :
    (pack s)[k]? = some (BitVec.ofNat 8 (val ((s.drop (8 * k)).take 8))) := by
  rw [pack, getElem?_cutBytes, if_pos (by unfold ceil8; omega), List.drop_append_of_le_length (by omega),
    List.take_append_of_le_length (by rw [List.length_drop]; omega)]

/-- Bits appended later leave a whole byte as it is. -/
theorem getElem?_pack_append {s t : List Bool} {k : Nat} (h : 8 * (k + 1) ≤ s.length) :
    (pack (s ++ t))[k]? = (pack s)[k]? := by
  rw [getElem?_pack_whole h, getElem?_pack_whole (by rw [List.length_append]; omega),
    List.drop_append_of_le_length (by omega), List.take_append_of_le_length (by rw [List.length_drop]; omega)]

/-- The pad of a flush leaves the packed bytes as they are. -/
theorem pack_padded (s : List Bool) : pack (s ++ zeros (padLen s.length)) = pack s := by
  have hl : (s ++ zeros (padLen s.length)).length = 8 * ceil8 s.length := by
    rw [List.length_append, length_zeros, padLen_add]
  have hc : ceil8 (8 * ceil8 s.length) = ceil8 s.length := by
    unfold ceil8
    omega
  rw [pack, hl, padLen_of_dvd (Nat.mul_mod_right _ _), hc]
  simp [zeros, pack]

/-! ## Little-endian words -/

@[simp] theorem length_leBytes (n v : Nat) : (leBytes n v).length = n := by
  induction n generalizing v with
  | zero => rfl
  | succ n ih => simp [leBytes, ih]

theorem leVal_lt (bs : List Byte) : leVal bs < 2 ^ (8 * bs.length) := by
  induction bs with
  | nil => simp [leVal]
  | cons b bs ih =>
    have hb := b.isLt
    have h8 : 2 ^ (8 * (bs.length + 1)) = 256 * 2 ^ (8 * bs.length) := by
      rw [Nat.mul_succ, Nat.pow_add]
      omega
    simp only [leVal, List.length_cons, h8]
    omega

theorem leVal_leBytes (n v : Nat) : leVal (leBytes n v) = v % 2 ^ (8 * n) := by
  induction n generalizing v with
  | zero => simp [leBytes, leVal, Nat.mod_one]
  | succ n ih =>
    simp only [leBytes, leVal, ih, BitVec.toNat_ofNat, Nat.mul_succ]
    rw [Nat.add_comm (8 * n) 8, Nat.pow_add, Nat.mod_mul]

theorem leBytes_leVal (bs : List Byte) : leBytes bs.length (leVal bs) = bs := by
  induction bs with
  | nil => rfl
  | cons b bs ih =>
    have hb := b.isLt
    simp only [List.length_cons, leBytes, leVal]
    congr 1
    · apply BitVec.eq_of_toNat_eq
      simp only [BitVec.toNat_ofNat]
      omega
    · rw [show (b.toNat + 256 * leVal bs) / 256 = leVal bs by omega, ih]

/-! ## Rising lists -/

theorem mem_insertNat {k x : Nat} {xs : List Nat} : x ∈ insertNat k xs ↔ x = k ∨ x ∈ xs := by
  induction xs with
  | nil => simp [insertNat]
  | cons y ys ih =>
    simp only [insertNat]
    split
    · simp
    · split
      · subst k
        simp
      · simp only [List.mem_cons, ih]
        tauto

theorem mem_eraseNat {k x : Nat} {xs : List Nat} : x ∈ eraseNat k xs ↔ x ≠ k ∧ x ∈ xs := by
  induction xs with
  | nil => simp [eraseNat]
  | cons y ys ih =>
    simp only [eraseNat]
    split
    · subst k
      simp only [ih, List.mem_cons]
      tauto
    · rename_i h
      simp only [List.mem_cons, ih]
      constructor
      · rintro (rfl | ⟨h1, h2⟩)
        · exact ⟨h, .inl rfl⟩
        · exact ⟨h1, .inr h2⟩
      · rintro ⟨h1, rfl | h2⟩
        · exact .inl rfl
        · exact .inr ⟨h1, h2⟩

end Sys2Proof.Machine
end

