-- ==== Sys2Proof/Laws/Operands.lean ====
section
/-! SUPPORT. The checks on ranges in terms of the bytes they name (20_memory.md R72, R74, R75, 43_gorilla.md R194), and the
constants of the widths (00_scope.md R9, R10). -/

namespace Sys2Proof

@[simp] theorem Width.bytes_pos (w : Width) : 0 < w.bytes := by cases w <;> decide

theorem Width.bytes_le (w : Width) : w.bytes ≤ 8 := by cases w <;> decide

@[simp] theorem Width.bits_eq (w : Width) : w.bits = 8 * w.bytes := rfl

/-- Every leading-zero count of a non-zero word fits its field (R193). -/
theorem Width.two_pow_leadingZeroBitlen (w : Width) : 2 ^ w.leadingZeroBitlen = w.bits := by cases w <;> rfl

/-- Every bit count up to the word width fits its field (R193). -/
theorem Width.bits_lt_two_pow_dataBitlen (w : Width) : w.bits < 2 ^ w.dataBitlen := by cases w <;> decide

end Sys2Proof

namespace Sys2Proof.Machine

open Sys2Proof

theorem Region.contains_iff (r : Region) (a : Nat) : r.contains a = true ↔ r.base ≤ a ∧ a < r.base + r.len := by
  simp [Region.contains]

/-- Two regions meet when some byte lies in both (R75). -/
theorem Region.meets_iff (r t : Region) : r.meets t = true ↔ ∃ a, r.contains a = true ∧ t.contains a = true := by
  simp only [Region.meets, Bool.and_eq_true, decide_eq_true_eq, Region.contains_iff]
  constructor
  · rintro ⟨⟨⟨h1, h2⟩, h3⟩, h4⟩
    exact ⟨max r.base t.base, by omega, by omega⟩
  · rintro ⟨a, ⟨h1, h2⟩, h3, h4⟩
    omega

theorem legalRange_iff (base len : Word) :
    legalRange base len = true ↔ len.toNat ≤ 2 ^ 61 - 1 ∧ base.toNat + len.toNat ≤ 2 ^ 64 := by
  rw [legalRange, Bool.and_eq_true, decide_eq_true_eq, decide_eq_true_eq]
  exact Iff.rfl

theorem regionOf_contains_iff (base len : Word) (a : Nat) :
    (regionOf base len).contains a = true ↔ base.toNat ≤ a ∧ a < base.toNat + len.toNat :=
  Region.contains_iff _ _

theorem Platform.admits_eq_false_iff (p : Platform) (a : Nat) :
    p.admits a = false ↔ ∃ r ∈ p.denied, r.contains a = true := by
  simp [Platform.admits]

/-- Some byte of the regions is not admitted exactly when a denied region meets one of them (R72). -/
theorem Platform.denied_meets_iff (p : Platform) (rs : List Region) :
    (rs.any fun r => p.denied.any r.meets) = true ↔ ∃ r ∈ rs, ∃ a, r.contains a = true ∧ p.admits a = false := by
  simp only [List.any_eq_true, Region.meets_iff, Platform.admits_eq_false_iff]
  constructor
  · rintro ⟨r, hr, d, hd, a, h1, h2⟩
    exact ⟨r, hr, a, h1, d, hd, h2⟩
  · rintro ⟨r, hr, a, h1, d, hd, h2⟩
    exact ⟨r, hr, d, hd, a, h1, h2⟩

/-- The ranges are all empty: no byte to check. -/
theorem all_empty_iff (rs : List Region) :
    (rs.all fun r => r.len == 0) = true ↔ ∀ r ∈ rs, ∀ a, r.contains a = false := by
  simp only [List.all_eq_true, beq_iff_eq]
  refine forall₂_congr fun r _ => ?_
  constructor
  · intro h a
    simp only [Region.contains, Bool.and_eq_false_iff, decide_eq_false_iff_not]
    omega
  · intro h
    have := h r.base
    simp only [Region.contains, Bool.and_eq_false_iff, decide_eq_false_iff_not] at this
    omega

/-- The ranges pass: each of their bytes is admitted and belongs to no device and no register window, on a platform that
checks in advance or with no byte to check. -/
theorem Platform.admission_eq_pass_iff (p : Platform) (rs : List Region) :
    p.admission rs = .pass ↔
      (∀ r ∈ rs, ∀ a, r.contains a = false)
      ∨ (p.checksAhead = true ∧ ∀ r ∈ rs, ∀ a, r.contains a = true →
          p.admits a = true ∧ ∀ d ∈ p.windowRegions ++ p.devices, d.contains a = false) := by
  unfold Platform.admission
  rw [← all_empty_iff]
  by_cases h0 : (rs.all fun r => r.len == 0) = true
  · simp only [h0, if_true, true_or]
  · simp only [h0, Bool.false_eq_true, if_false, false_or]
    cases hc : p.checksAhead
    · simp
    · simp only [Bool.not_true, Bool.false_eq_true, if_false, true_and]
      by_cases h1 : (rs.any fun r => p.denied.any r.meets) = true
      · rw [if_pos h1]
        simp only [reduceCtorEq, false_iff]
        rw [Platform.denied_meets_iff] at h1
        obtain ⟨r, hr, a, ha, hn⟩ := h1
        intro h
        simp [(h r hr a ha).1] at hn
      · rw [if_neg h1]
        rw [Platform.denied_meets_iff] at h1
        push Not at h1
        by_cases h2 : (rs.any fun r => (p.windowRegions ++ p.devices).any r.meets) = true
        · rw [if_pos h2]
          simp only [reduceCtorEq, false_iff]
          simp only [List.any_eq_true, Region.meets_iff] at h2
          obtain ⟨r, hr, d, hd, a, ha, hda⟩ := h2
          intro h
          simp [(h r hr a ha).2 d hd] at hda
        · rw [if_neg h2]
          simp only [List.any_eq_true, Region.meets_iff] at h2
          push Not at h2
          refine iff_of_true rfl fun r hr a ha => ⟨by simpa using h1 r hr a ha, fun d hd => ?_⟩
          simpa using h2 r hr d hd a ha

/-- What the check of P_MEM_ADMITS answers: it never raises an error but ERR_BUS (R262). -/
theorem Platform.admission_error {p : Platform} {rs : List Region} {e : ErrorCode} (h : p.admission rs = .error e) :
    e = .bus := by
  unfold Platform.admission at h
  split at h
  · cases h
  · split at h
    · cases h
    · split at h
      · cases h
        rfl
      · split at h <;> cases h

/-- A byte that the platform does not admit is ERR_BUS, whatever else the ranges cover (R72, R262). -/
theorem Platform.admission_eq_bus {p : Platform} {rs : List Region} (hc : p.checksAhead = true) {r : Region}
    (hr : r ∈ rs) {a : Nat} (ha : r.contains a = true) (hn : p.admits a = false) : p.admission rs = .error .bus := by
  have h0 : ¬(rs.all fun r => r.len == 0) = true := by
    rw [all_empty_iff]
    intro h
    simp [h r hr a] at ha
  have h1 : (rs.any fun r => p.denied.any r.meets) = true :=
    (p.denied_meets_iff rs).mpr ⟨r, hr, a, ha, hn⟩
  unfold Platform.admission
  rw [if_neg h0, hc, if_neg (by simp), if_pos h1]

/-- The errors that naming a range can raise (R261). -/
theorem Platform.admitOne_error {p : Platform} {base len : Word} {e : ErrorCode} (h : p.admitOne base len = .error e) :
    e = .range ∨ e = .bus := by
  unfold Platform.admitOne at h
  split at h
  · exact .inr (Platform.admission_error h)
  · cases h
    exact .inl rfl

/-- A range that passes is legal (R74). -/
theorem Platform.legal_of_admitOne {p : Platform} {base len : Word} (h : p.admitOne base len = .pass) :
    len.toNat ≤ 2 ^ 61 - 1 ∧ base.toNat + len.toNat ≤ 2 ^ 64 := by
  unfold Platform.admitOne at h
  split at h
  · exact (legalRange_iff base len).mp ‹_›
  · cases h

/-- The errors of the checks of R194. -/
theorem State.arrayAdmission_error {s : State} {e : ErrorCode} (h : s.arrayAdmission = .error e) :
    e = .range ∨ e = .overlap ∨ e = .bus := by
  unfold State.arrayAdmission at h
  split at h
  · cases h
    exact .inl rfl
  · split at h
    · cases h
      exact .inl rfl
    · split at h
      · cases h
        exact .inr (.inl rfl)
      · exact .inr (.inr (Platform.admission_error h))

/-- Ranges that pass the checks of R194 are legal and share no byte (R74, R75). -/
theorem State.legal_of_arrayAdmission {s : State} (h : s.arrayAdmission = .pass) :
    legalRange s.srcBase s.srcLen = true ∧ legalRange s.dstBase s.dstCap = true
      ∧ s.srcRegion.meets s.dstRegion = false ∧ s.platform.admission [s.srcRegion, s.dstRegion] = .pass := by
  unfold State.arrayAdmission at h
  split at h
  · cases h
  · split at h
    · cases h
    · split at h
      · cases h
      · simp_all

/-- A byte of the source is no byte of the destination when the checks of R194 pass (R75). -/
theorem State.src_disjoint_dst {s : State} (h : s.arrayAdmission = .pass) {a : Nat}
    (ha : s.srcBase.toNat ≤ a ∧ a < s.srcBase.toNat + s.srcLen.toNat) :
    ¬(s.dstBase.toNat ≤ a ∧ a < s.dstBase.toNat + s.dstCap.toNat) := by
  intro hd
  have hm := (State.legal_of_arrayAdmission h).2.2.1
  have : s.srcRegion.meets s.dstRegion = true :=
    (Region.meets_iff _ _).mpr ⟨a, (regionOf_contains_iff _ _ _).mpr ha, (regionOf_contains_iff _ _ _).mpr hd⟩
  rw [hm] at this
  cases this

end Sys2Proof.Machine
end

