-- ==== Sys2Proof/Laws/State.lean ====
section
/-! SUPPORT. What each update of the state does to each of its fields. -/

namespace Sys2Proof.Machine

open Sys2Proof

@[simp] theorem State.complete_cmd (s : State) : s.complete.cmd = s.cmd := rfl
@[simp] theorem State.complete_err (s : State) : s.complete.err = 0 := rfl
@[simp] theorem State.complete_short (s : State) : s.complete.short = false := rfl
@[simp] theorem State.complete_arg (s : State) : s.complete.arg = s.arg := rfl
@[simp] theorem State.complete_result (s : State) : s.complete.result = s.result := rfl
@[simp] theorem State.complete_srcBase (s : State) : s.complete.srcBase = s.srcBase := rfl
@[simp] theorem State.complete_srcLen (s : State) : s.complete.srcLen = s.srcLen := rfl
@[simp] theorem State.complete_dstBase (s : State) : s.complete.dstBase = s.dstBase := rfl
@[simp] theorem State.complete_dstCap (s : State) : s.complete.dstCap = s.dstCap := rfl
@[simp] theorem State.complete_outLen (s : State) : s.complete.outLen = s.outLen := rfl
@[simp] theorem State.complete_br (s : State) : s.complete.br = s.br := rfl
@[simp] theorem State.complete_bw (s : State) : s.complete.bw = s.bw := rfl
@[simp] theorem State.complete_ms (s : State) : s.complete.ms = s.ms := rfl
@[simp] theorem State.complete_platform (s : State) : s.complete.platform = s.platform := rfl
@[simp] theorem State.complete_host (s : State) : s.complete.host = s.host := rfl
@[simp] theorem State.complete_hostData (s : State) : s.complete.hostData = s.hostData := rfl
@[simp] theorem State.complete_agent (s : State) : s.complete.agent = s.agent := rfl
@[simp] theorem State.complete_id (s : State) : s.complete.id = s.id := rfl
@[simp] theorem State.complete_driver (s : State) : s.complete.driver = s.driver := rfl

@[simp] theorem State.answer_cmd (s : State) (v : Word) : (s.answer v).cmd = s.cmd := rfl
@[simp] theorem State.answer_err (s : State) (v : Word) : (s.answer v).err = 0 := rfl
@[simp] theorem State.answer_short (s : State) (v : Word) : (s.answer v).short = false := rfl
@[simp] theorem State.answer_arg (s : State) (v : Word) : (s.answer v).arg = s.arg := rfl
@[simp] theorem State.answer_result (s : State) (v : Word) : (s.answer v).result = v := rfl
@[simp] theorem State.answer_srcBase (s : State) (v : Word) : (s.answer v).srcBase = s.srcBase := rfl
@[simp] theorem State.answer_srcLen (s : State) (v : Word) : (s.answer v).srcLen = s.srcLen := rfl
@[simp] theorem State.answer_dstBase (s : State) (v : Word) : (s.answer v).dstBase = s.dstBase := rfl
@[simp] theorem State.answer_dstCap (s : State) (v : Word) : (s.answer v).dstCap = s.dstCap := rfl
@[simp] theorem State.answer_outLen (s : State) (v : Word) : (s.answer v).outLen = s.outLen := rfl
@[simp] theorem State.answer_br (s : State) (v : Word) : (s.answer v).br = s.br := rfl
@[simp] theorem State.answer_bw (s : State) (v : Word) : (s.answer v).bw = s.bw := rfl
@[simp] theorem State.answer_ms (s : State) (v : Word) : (s.answer v).ms = s.ms := rfl
@[simp] theorem State.answer_platform (s : State) (v : Word) : (s.answer v).platform = s.platform := rfl
@[simp] theorem State.answer_host (s : State) (v : Word) : (s.answer v).host = s.host := rfl
@[simp] theorem State.answer_hostData (s : State) (v : Word) : (s.answer v).hostData = s.hostData := rfl
@[simp] theorem State.answer_agent (s : State) (v : Word) : (s.answer v).agent = s.agent := rfl
@[simp] theorem State.answer_id (s : State) (v : Word) : (s.answer v).id = s.id := rfl
@[simp] theorem State.answer_driver (s : State) (v : Word) : (s.answer v).driver = s.driver := rfl

@[simp] theorem State.deliver_cmd (s : State) (n : Nat) (b : Bool) : (s.deliver n b).cmd = s.cmd := rfl
@[simp] theorem State.deliver_err (s : State) (n : Nat) (b : Bool) : (s.deliver n b).err = 0 := rfl
@[simp] theorem State.deliver_short (s : State) (n : Nat) (b : Bool) : (s.deliver n b).short = b := rfl
@[simp] theorem State.deliver_arg (s : State) (n : Nat) (b : Bool) : (s.deliver n b).arg = s.arg := rfl
@[simp] theorem State.deliver_result (s : State) (n : Nat) (b : Bool) : (s.deliver n b).result = s.result := rfl
@[simp] theorem State.deliver_srcBase (s : State) (n : Nat) (b : Bool) : (s.deliver n b).srcBase = s.srcBase := rfl
@[simp] theorem State.deliver_srcLen (s : State) (n : Nat) (b : Bool) : (s.deliver n b).srcLen = s.srcLen := rfl
@[simp] theorem State.deliver_dstBase (s : State) (n : Nat) (b : Bool) : (s.deliver n b).dstBase = s.dstBase := rfl
@[simp] theorem State.deliver_dstCap (s : State) (n : Nat) (b : Bool) : (s.deliver n b).dstCap = s.dstCap := rfl
@[simp] theorem State.deliver_outLen (s : State) (n : Nat) (b : Bool) : (s.deliver n b).outLen = BitVec.ofNat 64 n := rfl
@[simp] theorem State.deliver_br (s : State) (n : Nat) (b : Bool) : (s.deliver n b).br = s.br := rfl
@[simp] theorem State.deliver_bw (s : State) (n : Nat) (b : Bool) : (s.deliver n b).bw = s.bw := rfl
@[simp] theorem State.deliver_ms (s : State) (n : Nat) (b : Bool) : (s.deliver n b).ms = s.ms := rfl
@[simp] theorem State.deliver_platform (s : State) (n : Nat) (b : Bool) : (s.deliver n b).platform = s.platform := rfl
@[simp] theorem State.deliver_host (s : State) (n : Nat) (b : Bool) : (s.deliver n b).host = s.host := rfl
@[simp] theorem State.deliver_hostData (s : State) (n : Nat) (b : Bool) : (s.deliver n b).hostData = s.hostData := rfl
@[simp] theorem State.deliver_agent (s : State) (n : Nat) (b : Bool) : (s.deliver n b).agent = s.agent := rfl
@[simp] theorem State.deliver_id (s : State) (n : Nat) (b : Bool) : (s.deliver n b).id = s.id := rfl
@[simp] theorem State.deliver_driver (s : State) (n : Nat) (b : Bool) : (s.deliver n b).driver = s.driver := rfl

@[simp] theorem State.raise_cmd (s : State) (u : FaultUnit) (e : ErrorCode) : (s.raise u e).cmd = s.cmd := rfl
@[simp] theorem State.raise_err (s : State) (u : FaultUnit) (e : ErrorCode) : (s.raise u e).err = e.code := rfl
@[simp] theorem State.raise_short (s : State) (u : FaultUnit) (e : ErrorCode) : (s.raise u e).short = false := rfl
@[simp] theorem State.raise_arg (s : State) (u : FaultUnit) (e : ErrorCode) : (s.raise u e).arg = s.arg := rfl
@[simp] theorem State.raise_result (s : State) (u : FaultUnit) (e : ErrorCode) : (s.raise u e).result = 0 := rfl
@[simp] theorem State.raise_srcBase (s : State) (u : FaultUnit) (e : ErrorCode) : (s.raise u e).srcBase = s.srcBase := rfl
@[simp] theorem State.raise_srcLen (s : State) (u : FaultUnit) (e : ErrorCode) : (s.raise u e).srcLen = s.srcLen := rfl
@[simp] theorem State.raise_dstBase (s : State) (u : FaultUnit) (e : ErrorCode) : (s.raise u e).dstBase = s.dstBase := rfl
@[simp] theorem State.raise_dstCap (s : State) (u : FaultUnit) (e : ErrorCode) : (s.raise u e).dstCap = s.dstCap := rfl
@[simp] theorem State.raise_outLen (s : State) (u : FaultUnit) (e : ErrorCode) : (s.raise u e).outLen = 0 := rfl
@[simp] theorem State.raise_platform (s : State) (u : FaultUnit) (e : ErrorCode) : (s.raise u e).platform = s.platform := rfl
@[simp] theorem State.raise_host (s : State) (u : FaultUnit) (e : ErrorCode) : (s.raise u e).host = s.host := rfl
@[simp] theorem State.raise_hostData (s : State) (u : FaultUnit) (e : ErrorCode) : (s.raise u e).hostData = s.hostData := rfl
@[simp] theorem State.raise_agent (s : State) (u : FaultUnit) (e : ErrorCode) : (s.raise u e).agent = s.agent := rfl
@[simp] theorem State.raise_id (s : State) (u : FaultUnit) (e : ErrorCode) : (s.raise u e).id = s.id := rfl
@[simp] theorem State.raise_driver (s : State) (u : FaultUnit) (e : ErrorCode) : (s.raise u e).driver = s.driver := rfl

@[simp] theorem State.raise_none_br (s : State) (e : ErrorCode) : (s.raise .none e).br = s.br := rfl
@[simp] theorem State.raise_none_bw (s : State) (e : ErrorCode) : (s.raise .none e).bw = s.bw := rfl
@[simp] theorem State.raise_none_ms (s : State) (e : ErrorCode) : (s.raise .none e).ms = s.ms := rfl
@[simp] theorem State.raise_reader_br (s : State) (e : ErrorCode) :
    (s.raise .reader e).br = { s.br with fault := true, pos := Config.freeWord s.ms.draws } := rfl
@[simp] theorem State.raise_reader_bw (s : State) (e : ErrorCode) : (s.raise .reader e).bw = s.bw := rfl
@[simp] theorem State.raise_reader_ms (s : State) (e : ErrorCode) :
    (s.raise .reader e).ms = { s.ms with draws := s.ms.draws + 1 } := rfl
@[simp] theorem State.raise_writer_br (s : State) (e : ErrorCode) : (s.raise .writer e).br = s.br := rfl
@[simp] theorem State.raise_writer_bw (s : State) (e : ErrorCode) :
    (s.raise .writer e).bw = { s.bw with fault := true } := rfl
@[simp] theorem State.raise_writer_ms (s : State) (e : ErrorCode) :
    (s.raise .writer e).ms = { s.ms with drained := [] } := rfl
@[simp] theorem State.raise_cells (s : State) (u : FaultUnit) (e : ErrorCode) :
    (s.raise u e).ms.cells = s.ms.cells := by cases u <;> rfl

@[simp] theorem State.scramble_cmd (s : State) (a n : Nat) : (s.scramble a n).cmd = s.cmd := rfl
@[simp] theorem State.scramble_err (s : State) (a n : Nat) : (s.scramble a n).err = s.err := rfl
@[simp] theorem State.scramble_short (s : State) (a n : Nat) : (s.scramble a n).short = s.short := rfl
@[simp] theorem State.scramble_arg (s : State) (a n : Nat) : (s.scramble a n).arg = s.arg := rfl
@[simp] theorem State.scramble_result (s : State) (a n : Nat) : (s.scramble a n).result = s.result := rfl
@[simp] theorem State.scramble_srcBase (s : State) (a n : Nat) : (s.scramble a n).srcBase = s.srcBase := rfl
@[simp] theorem State.scramble_srcLen (s : State) (a n : Nat) : (s.scramble a n).srcLen = s.srcLen := rfl
@[simp] theorem State.scramble_dstBase (s : State) (a n : Nat) : (s.scramble a n).dstBase = s.dstBase := rfl
@[simp] theorem State.scramble_dstCap (s : State) (a n : Nat) : (s.scramble a n).dstCap = s.dstCap := rfl
@[simp] theorem State.scramble_outLen (s : State) (a n : Nat) : (s.scramble a n).outLen = s.outLen := rfl
@[simp] theorem State.scramble_br (s : State) (a n : Nat) : (s.scramble a n).br = s.br := rfl
@[simp] theorem State.scramble_bw (s : State) (a n : Nat) : (s.scramble a n).bw = s.bw := rfl
@[simp] theorem State.scramble_ms (s : State) (a n : Nat) : (s.scramble a n).ms = MemSystem.scramble s.br s.bw s.ms a n := rfl
@[simp] theorem State.scramble_platform (s : State) (a n : Nat) : (s.scramble a n).platform = s.platform := rfl
@[simp] theorem State.scramble_host (s : State) (a n : Nat) : (s.scramble a n).host = s.host := rfl
@[simp] theorem State.scramble_hostData (s : State) (a n : Nat) : (s.scramble a n).hostData = s.hostData := rfl
@[simp] theorem State.scramble_agent (s : State) (a n : Nat) : (s.scramble a n).agent = s.agent := rfl
@[simp] theorem State.scramble_id (s : State) (a n : Nat) : (s.scramble a n).id = s.id := rfl
@[simp] theorem State.scramble_driver (s : State) (a n : Nat) : (s.scramble a n).driver = s.driver := rfl

@[simp] theorem State.store_cmd (s : State) (a : Nat) (bs : List Byte) : (s.store a bs).cmd = s.cmd := rfl
@[simp] theorem State.store_err (s : State) (a : Nat) (bs : List Byte) : (s.store a bs).err = s.err := rfl
@[simp] theorem State.store_short (s : State) (a : Nat) (bs : List Byte) : (s.store a bs).short = s.short := rfl
@[simp] theorem State.store_arg (s : State) (a : Nat) (bs : List Byte) : (s.store a bs).arg = s.arg := rfl
@[simp] theorem State.store_result (s : State) (a : Nat) (bs : List Byte) : (s.store a bs).result = s.result := rfl
@[simp] theorem State.store_srcBase (s : State) (a : Nat) (bs : List Byte) : (s.store a bs).srcBase = s.srcBase := rfl
@[simp] theorem State.store_srcLen (s : State) (a : Nat) (bs : List Byte) : (s.store a bs).srcLen = s.srcLen := rfl
@[simp] theorem State.store_dstBase (s : State) (a : Nat) (bs : List Byte) : (s.store a bs).dstBase = s.dstBase := rfl
@[simp] theorem State.store_dstCap (s : State) (a : Nat) (bs : List Byte) : (s.store a bs).dstCap = s.dstCap := rfl
@[simp] theorem State.store_outLen (s : State) (a : Nat) (bs : List Byte) : (s.store a bs).outLen = s.outLen := rfl
@[simp] theorem State.store_br (s : State) (a : Nat) (bs : List Byte) : (s.store a bs).br = s.br := rfl
@[simp] theorem State.store_bw (s : State) (a : Nat) (bs : List Byte) : (s.store a bs).bw = s.bw := rfl
@[simp] theorem State.store_ms (s : State) (a : Nat) (bs : List Byte) : (s.store a bs).ms = MemSystem.putAll s.br s.bw s.ms a bs := rfl
@[simp] theorem State.store_platform (s : State) (a : Nat) (bs : List Byte) : (s.store a bs).platform = s.platform := rfl
@[simp] theorem State.store_host (s : State) (a : Nat) (bs : List Byte) : (s.store a bs).host = s.host := rfl
@[simp] theorem State.store_hostData (s : State) (a : Nat) (bs : List Byte) : (s.store a bs).hostData = s.hostData := rfl
@[simp] theorem State.store_agent (s : State) (a : Nat) (bs : List Byte) : (s.store a bs).agent = s.agent := rfl
@[simp] theorem State.store_id (s : State) (a : Nat) (bs : List Byte) : (s.store a bs).id = s.id := rfl
@[simp] theorem State.store_driver (s : State) (a : Nat) (bs : List Byte) : (s.store a bs).driver = s.driver := rfl

@[simp] theorem State.storeSome_cmd (s : State) (a : Nat) (bs : List Byte) : (s.storeSome a bs).cmd = s.cmd := rfl
@[simp] theorem State.storeSome_err (s : State) (a : Nat) (bs : List Byte) : (s.storeSome a bs).err = s.err := rfl
@[simp] theorem State.storeSome_short (s : State) (a : Nat) (bs : List Byte) : (s.storeSome a bs).short = s.short := rfl
@[simp] theorem State.storeSome_arg (s : State) (a : Nat) (bs : List Byte) : (s.storeSome a bs).arg = s.arg := rfl
@[simp] theorem State.storeSome_result (s : State) (a : Nat) (bs : List Byte) : (s.storeSome a bs).result = s.result := rfl
@[simp] theorem State.storeSome_srcBase (s : State) (a : Nat) (bs : List Byte) : (s.storeSome a bs).srcBase = s.srcBase := rfl
@[simp] theorem State.storeSome_srcLen (s : State) (a : Nat) (bs : List Byte) : (s.storeSome a bs).srcLen = s.srcLen := rfl
@[simp] theorem State.storeSome_dstBase (s : State) (a : Nat) (bs : List Byte) : (s.storeSome a bs).dstBase = s.dstBase := rfl
@[simp] theorem State.storeSome_dstCap (s : State) (a : Nat) (bs : List Byte) : (s.storeSome a bs).dstCap = s.dstCap := rfl
@[simp] theorem State.storeSome_outLen (s : State) (a : Nat) (bs : List Byte) : (s.storeSome a bs).outLen = s.outLen := rfl
@[simp] theorem State.storeSome_br (s : State) (a : Nat) (bs : List Byte) : (s.storeSome a bs).br = s.br := rfl
@[simp] theorem State.storeSome_bw (s : State) (a : Nat) (bs : List Byte) : (s.storeSome a bs).bw = s.bw := rfl
@[simp] theorem State.storeSome_ms (s : State) (a : Nat) (bs : List Byte) : (s.storeSome a bs).ms = MemSystem.putSome s.br s.bw s.ms a bs := rfl
@[simp] theorem State.storeSome_platform (s : State) (a : Nat) (bs : List Byte) : (s.storeSome a bs).platform = s.platform := rfl
@[simp] theorem State.storeSome_host (s : State) (a : Nat) (bs : List Byte) : (s.storeSome a bs).host = s.host := rfl
@[simp] theorem State.storeSome_hostData (s : State) (a : Nat) (bs : List Byte) : (s.storeSome a bs).hostData = s.hostData := rfl
@[simp] theorem State.storeSome_agent (s : State) (a : Nat) (bs : List Byte) : (s.storeSome a bs).agent = s.agent := rfl
@[simp] theorem State.storeSome_id (s : State) (a : Nat) (bs : List Byte) : (s.storeSome a bs).id = s.id := rfl
@[simp] theorem State.storeSome_driver (s : State) (a : Nat) (bs : List Byte) : (s.storeSome a bs).driver = s.driver := rfl

@[simp] theorem State.spend_cmd (s : State) (n : Nat) : (s.spend n).cmd = s.cmd := rfl
@[simp] theorem State.spend_err (s : State) (n : Nat) : (s.spend n).err = s.err := rfl
@[simp] theorem State.spend_short (s : State) (n : Nat) : (s.spend n).short = s.short := rfl
@[simp] theorem State.spend_arg (s : State) (n : Nat) : (s.spend n).arg = s.arg := rfl
@[simp] theorem State.spend_result (s : State) (n : Nat) : (s.spend n).result = s.result := rfl
@[simp] theorem State.spend_srcBase (s : State) (n : Nat) : (s.spend n).srcBase = s.srcBase := rfl
@[simp] theorem State.spend_srcLen (s : State) (n : Nat) : (s.spend n).srcLen = s.srcLen := rfl
@[simp] theorem State.spend_dstBase (s : State) (n : Nat) : (s.spend n).dstBase = s.dstBase := rfl
@[simp] theorem State.spend_dstCap (s : State) (n : Nat) : (s.spend n).dstCap = s.dstCap := rfl
@[simp] theorem State.spend_outLen (s : State) (n : Nat) : (s.spend n).outLen = s.outLen := rfl
@[simp] theorem State.spend_br (s : State) (n : Nat) : (s.spend n).br = s.br := rfl
@[simp] theorem State.spend_bw (s : State) (n : Nat) : (s.spend n).bw = s.bw := rfl
@[simp] theorem State.spend_ms (s : State) (n : Nat) : (s.spend n).ms = { s.ms with draws := s.ms.draws + n } := rfl
@[simp] theorem State.spend_platform (s : State) (n : Nat) : (s.spend n).platform = s.platform := rfl
@[simp] theorem State.spend_host (s : State) (n : Nat) : (s.spend n).host = s.host := rfl
@[simp] theorem State.spend_hostData (s : State) (n : Nat) : (s.spend n).hostData = s.hostData := rfl
@[simp] theorem State.spend_agent (s : State) (n : Nat) : (s.spend n).agent = s.agent := rfl
@[simp] theorem State.spend_id (s : State) (n : Nat) : (s.spend n).id = s.id := rfl
@[simp] theorem State.spend_driver (s : State) (n : Nat) : (s.spend n).driver = s.driver := rfl

@[simp] theorem State.bwAppend_cmd (s : State) (n : Nat) : (s.bwAppend n).cmd = s.cmd := rfl
@[simp] theorem State.bwAppend_err (s : State) (n : Nat) : (s.bwAppend n).err = s.err := rfl
@[simp] theorem State.bwAppend_short (s : State) (n : Nat) : (s.bwAppend n).short = s.short := rfl
@[simp] theorem State.bwAppend_arg (s : State) (n : Nat) : (s.bwAppend n).arg = s.arg := rfl
@[simp] theorem State.bwAppend_result (s : State) (n : Nat) : (s.bwAppend n).result = s.result := rfl
@[simp] theorem State.bwAppend_srcBase (s : State) (n : Nat) : (s.bwAppend n).srcBase = s.srcBase := rfl
@[simp] theorem State.bwAppend_srcLen (s : State) (n : Nat) : (s.bwAppend n).srcLen = s.srcLen := rfl
@[simp] theorem State.bwAppend_dstBase (s : State) (n : Nat) : (s.bwAppend n).dstBase = s.dstBase := rfl
@[simp] theorem State.bwAppend_dstCap (s : State) (n : Nat) : (s.bwAppend n).dstCap = s.dstCap := rfl
@[simp] theorem State.bwAppend_outLen (s : State) (n : Nat) : (s.bwAppend n).outLen = s.outLen := rfl
@[simp] theorem State.bwAppend_br (s : State) (n : Nat) : (s.bwAppend n).br = s.br := rfl
@[simp] theorem State.bwAppend_bw (s : State) (n : Nat) : (s.bwAppend n).bw = { s.bw with bits := s.bw.bits ++ bitsN n s.arg.toNat, user := s.bw.user + BitVec.ofNat 64 n } := rfl
@[simp] theorem State.bwAppend_ms (s : State) (n : Nat) : (s.bwAppend n).ms = s.ms := rfl
@[simp] theorem State.bwAppend_platform (s : State) (n : Nat) : (s.bwAppend n).platform = s.platform := rfl
@[simp] theorem State.bwAppend_host (s : State) (n : Nat) : (s.bwAppend n).host = s.host := rfl
@[simp] theorem State.bwAppend_hostData (s : State) (n : Nat) : (s.bwAppend n).hostData = s.hostData := rfl
@[simp] theorem State.bwAppend_agent (s : State) (n : Nat) : (s.bwAppend n).agent = s.agent := rfl
@[simp] theorem State.bwAppend_id (s : State) (n : Nat) : (s.bwAppend n).id = s.id := rfl
@[simp] theorem State.bwAppend_driver (s : State) (n : Nat) : (s.bwAppend n).driver = s.driver := rfl

@[simp] theorem State.bwDrain_cmd (s : State) : s.bwDrain.cmd = s.cmd := rfl
@[simp] theorem State.bwDrain_err (s : State) : s.bwDrain.err = s.err := rfl
@[simp] theorem State.bwDrain_short (s : State) : s.bwDrain.short = s.short := rfl
@[simp] theorem State.bwDrain_arg (s : State) : s.bwDrain.arg = s.arg := rfl
@[simp] theorem State.bwDrain_result (s : State) : s.bwDrain.result = s.result := rfl
@[simp] theorem State.bwDrain_srcBase (s : State) : s.bwDrain.srcBase = s.srcBase := rfl
@[simp] theorem State.bwDrain_srcLen (s : State) : s.bwDrain.srcLen = s.srcLen := rfl
@[simp] theorem State.bwDrain_dstBase (s : State) : s.bwDrain.dstBase = s.dstBase := rfl
@[simp] theorem State.bwDrain_dstCap (s : State) : s.bwDrain.dstCap = s.dstCap := rfl
@[simp] theorem State.bwDrain_outLen (s : State) : s.bwDrain.outLen = s.outLen := rfl
@[simp] theorem State.bwDrain_br (s : State) : s.bwDrain.br = s.br := rfl
@[simp] theorem State.bwDrain_bw (s : State) : s.bwDrain.bw = s.bw := rfl
@[simp] theorem State.bwDrain_platform (s : State) : s.bwDrain.platform = s.platform := rfl
@[simp] theorem State.bwDrain_host (s : State) : s.bwDrain.host = s.host := rfl
@[simp] theorem State.bwDrain_hostData (s : State) : s.bwDrain.hostData = s.hostData := rfl
@[simp] theorem State.bwDrain_agent (s : State) : s.bwDrain.agent = s.agent := rfl
@[simp] theorem State.bwDrain_id (s : State) : s.bwDrain.id = s.id := rfl
@[simp] theorem State.bwDrain_driver (s : State) : s.bwDrain.driver = s.driver := rfl

@[simp] theorem State.bwFlush_cmd (s : State) : s.bwFlush.cmd = s.cmd := rfl
@[simp] theorem State.bwFlush_err (s : State) : s.bwFlush.err = s.err := rfl
@[simp] theorem State.bwFlush_short (s : State) : s.bwFlush.short = s.short := rfl
@[simp] theorem State.bwFlush_arg (s : State) : s.bwFlush.arg = s.arg := rfl
@[simp] theorem State.bwFlush_result (s : State) : s.bwFlush.result = s.result := rfl
@[simp] theorem State.bwFlush_srcBase (s : State) : s.bwFlush.srcBase = s.srcBase := rfl
@[simp] theorem State.bwFlush_srcLen (s : State) : s.bwFlush.srcLen = s.srcLen := rfl
@[simp] theorem State.bwFlush_dstBase (s : State) : s.bwFlush.dstBase = s.dstBase := rfl
@[simp] theorem State.bwFlush_dstCap (s : State) : s.bwFlush.dstCap = s.dstCap := rfl
@[simp] theorem State.bwFlush_outLen (s : State) : s.bwFlush.outLen = s.outLen := rfl
@[simp] theorem State.bwFlush_br (s : State) : s.bwFlush.br = s.br := rfl
@[simp] theorem State.bwFlush_platform (s : State) : s.bwFlush.platform = s.platform := rfl
@[simp] theorem State.bwFlush_host (s : State) : s.bwFlush.host = s.host := rfl
@[simp] theorem State.bwFlush_hostData (s : State) : s.bwFlush.hostData = s.hostData := rfl
@[simp] theorem State.bwFlush_agent (s : State) : s.bwFlush.agent = s.agent := rfl
@[simp] theorem State.bwFlush_id (s : State) : s.bwFlush.id = s.id := rfl
@[simp] theorem State.bwFlush_driver (s : State) : s.bwFlush.driver = s.driver := rfl

@[simp] theorem State.bwFlush_bw (s : State) :
    s.bwFlush.bw = { s.bw with bits := s.bw.padded, final := BitVec.ofNat 64 (s.bw.padded.length / 8) } := rfl
@[simp] theorem State.bwFlush_drained (s : State) : s.bwFlush.ms.drained = [] := rfl

@[simp] theorem State.applyReset_cmd (s : State) : s.applyReset.cmd = 0 := rfl
@[simp] theorem State.applyReset_err (s : State) : s.applyReset.err = 0 := rfl
@[simp] theorem State.applyReset_short (s : State) : s.applyReset.short = false := rfl
@[simp] theorem State.applyReset_arg (s : State) : s.applyReset.arg = 0 := rfl
@[simp] theorem State.applyReset_result (s : State) : s.applyReset.result = 0 := rfl
@[simp] theorem State.applyReset_srcBase (s : State) : s.applyReset.srcBase = 0 := rfl
@[simp] theorem State.applyReset_srcLen (s : State) : s.applyReset.srcLen = 0 := rfl
@[simp] theorem State.applyReset_dstBase (s : State) : s.applyReset.dstBase = 0 := rfl
@[simp] theorem State.applyReset_dstCap (s : State) : s.applyReset.dstCap = 0 := rfl
@[simp] theorem State.applyReset_outLen (s : State) : s.applyReset.outLen = 0 := rfl
@[simp] theorem State.applyReset_br (s : State) : s.applyReset.br = BitReader.reset := rfl
@[simp] theorem State.applyReset_bw (s : State) : s.applyReset.bw = BitWriter.reset := rfl
@[simp] theorem State.applyReset_ms (s : State) : s.applyReset.ms = { s.ms with stale := [], drained := [] } := rfl
@[simp] theorem State.applyReset_platform (s : State) : s.applyReset.platform = s.platform := rfl
@[simp] theorem State.applyReset_host (s : State) : s.applyReset.host = s.host := rfl
@[simp] theorem State.applyReset_hostData (s : State) : s.applyReset.hostData = s.hostData := rfl
@[simp] theorem State.applyReset_agent (s : State) : s.applyReset.agent = s.agent := rfl
@[simp] theorem State.applyReset_id (s : State) : s.applyReset.id = s.id := rfl
@[simp] theorem State.applyReset_driver (s : State) : s.applyReset.driver = s.driver := rfl

/-! ## Instances -/

@[simp] theorem State.block_id (s : State) : s.block.id = s.id := rfl
@[simp] theorem State.block_driver (s : State) : s.block.driver = s.driver := rfl
@[simp] theorem State.block_cmd (s : State) : s.block.cmd = s.cmd := rfl
@[simp] theorem State.block_err (s : State) : s.block.err = s.err := rfl
@[simp] theorem State.block_short (s : State) : s.block.short = s.short := rfl
@[simp] theorem State.block_arg (s : State) : s.block.arg = s.arg := rfl
@[simp] theorem State.block_result (s : State) : s.block.result = s.result := rfl
@[simp] theorem State.block_srcBase (s : State) : s.block.srcBase = s.srcBase := rfl
@[simp] theorem State.block_srcLen (s : State) : s.block.srcLen = s.srcLen := rfl
@[simp] theorem State.block_dstBase (s : State) : s.block.dstBase = s.dstBase := rfl
@[simp] theorem State.block_dstCap (s : State) : s.block.dstCap = s.dstCap := rfl
@[simp] theorem State.block_outLen (s : State) : s.block.outLen = s.outLen := rfl
@[simp] theorem State.block_br (s : State) : s.block.br = s.br := rfl
@[simp] theorem State.block_bw (s : State) : s.block.bw = s.bw := rfl
@[simp] theorem State.block_stale (s : State) : s.block.stale = s.ms.stale := rfl
@[simp] theorem State.block_drained (s : State) : s.block.drained = s.ms.drained := rfl

@[simp] theorem State.become_id (s : State) (p : Block) (ps : List Block) : (s.become p ps).id = p.id := rfl
@[simp] theorem State.become_driver (s : State) (p : Block) (ps : List Block) : (s.become p ps).driver = p.driver := rfl
@[simp] theorem State.become_cmd (s : State) (p : Block) (ps : List Block) : (s.become p ps).cmd = p.cmd := rfl
@[simp] theorem State.become_err (s : State) (p : Block) (ps : List Block) : (s.become p ps).err = p.err := rfl
@[simp] theorem State.become_short (s : State) (p : Block) (ps : List Block) : (s.become p ps).short = p.short := rfl
@[simp] theorem State.become_arg (s : State) (p : Block) (ps : List Block) : (s.become p ps).arg = p.arg := rfl
@[simp] theorem State.become_result (s : State) (p : Block) (ps : List Block) : (s.become p ps).result = p.result := rfl
@[simp] theorem State.become_srcBase (s : State) (p : Block) (ps : List Block) : (s.become p ps).srcBase = p.srcBase := rfl
@[simp] theorem State.become_srcLen (s : State) (p : Block) (ps : List Block) : (s.become p ps).srcLen = p.srcLen := rfl
@[simp] theorem State.become_dstBase (s : State) (p : Block) (ps : List Block) : (s.become p ps).dstBase = p.dstBase := rfl
@[simp] theorem State.become_dstCap (s : State) (p : Block) (ps : List Block) : (s.become p ps).dstCap = p.dstCap := rfl
@[simp] theorem State.become_outLen (s : State) (p : Block) (ps : List Block) : (s.become p ps).outLen = p.outLen := rfl
@[simp] theorem State.become_br (s : State) (p : Block) (ps : List Block) : (s.become p ps).br = p.br := rfl
@[simp] theorem State.become_bw (s : State) (p : Block) (ps : List Block) : (s.become p ps).bw = p.bw := rfl
@[simp] theorem State.become_ms (s : State) (p : Block) (ps : List Block) :
    (s.become p ps).ms = { s.ms with stale := p.stale, drained := p.drained, others := ps } := rfl
@[simp] theorem State.become_platform (s : State) (p : Block) (ps : List Block) : (s.become p ps).platform = s.platform := rfl
@[simp] theorem State.become_agent (s : State) (p : Block) (ps : List Block) : (s.become p ps).agent = s.agent := rfl
@[simp] theorem State.become_host (s : State) (p : Block) (ps : List Block) : (s.become p ps).host = s.host := rfl
@[simp] theorem State.become_hostData (s : State) (p : Block) (ps : List Block) : (s.become p ps).hostData = s.hostData := rfl
@[simp] theorem State.become_block (s : State) (p : Block) (ps : List Block) : (s.become p ps).block = p := rfl

/-- Taking an instance out and putting another in its place leaves the same instances (R278). -/
theorem exchange_perm {k : Nat} {b p : Block} {ps qs : List Block} (h : exchange k b ps = some (p, qs)) :
    p.id = k ∧ (p :: qs).Perm (b :: ps) := by
  induction ps generalizing p qs with
  | nil => simp [exchange] at h
  | cons q ps ih =>
    rw [exchange] at h
    split at h
    · simp only [Option.some.injEq, Prod.mk.injEq] at h
      obtain ⟨rfl, rfl⟩ := h
      exact ⟨‹_›, List.Perm.swap _ _ _⟩
    · split at h
      · rename_i r rs hr
        simp only [Option.some.injEq, Prod.mk.injEq] at h
        obtain ⟨rfl, rfl⟩ := h
        have := ih hr
        exact ⟨this.1, (List.Perm.swap _ _ _).trans ((this.2.cons q).trans (List.Perm.swap _ _ _))⟩
      · cases h

/-- An instance that is there is found (R278). -/
theorem exchange_isSome {k : Nat} {b : Block} {ps : List Block} (h : ∃ p ∈ ps, p.id = k) :
    ∃ p qs, exchange k b ps = some (p, qs) := by
  induction ps with
  | nil => simp at h
  | cons q ps ih =>
    rw [exchange]
    by_cases hq : q.id = k
    · exact ⟨_, _, if_pos hq⟩
    · obtain ⟨p, hp, hk⟩ := h
      rcases List.mem_cons.mp hp with rfl | hp
      · exact absurd hk hq
      · obtain ⟨r, rs, hr⟩ := ih ⟨p, hp, hk⟩
        exact ⟨r, q :: rs, by rw [if_neg hq, hr]⟩

/-- An instance that is not there is not found (R278). -/
theorem exchange_eq_none {k : Nat} {b : Block} {ps : List Block} (h : ∀ p ∈ ps, p.id ≠ k) : exchange k b ps = none := by
  induction ps with
  | nil => rfl
  | cons q ps ih => rw [exchange, if_neg (h q (.head _)), ih fun p hp => h p (.tail _ hp)]

/-! ## STATUS -/

/-- The bits of STATUS (R40, R44). -/
theorem State.status_getLsbD (s : State) (i : Nat) :
    s.status.getLsbD i =
      if i < 8 then s.err.getLsbD i else if i = 8 then s.br.bound else if i = 9 then s.br.fault
      else if i = 10 then s.bw.bound else if i = 11 then s.bw.fault else if i = 12 then s.short
      else if i = 13 then s.bw.dirty else false := by
  unfold State.status
  show BitVec.getLsbD (w := 50 + 1 + 1 + 1 + 1 + 1 + 1 + 8) _ i = _
  simp only [BitVec.getLsbD_append, BitVec.getLsbD_ofBool, BitVec.getLsbD_zero]
  by_cases h : i < 8
  · simp [h]
  by_cases h8 : i = 8
  · simp [h8]
  by_cases h9 : i = 9
  · simp [h9]
  by_cases h10 : i = 10
  · simp [h10]
  by_cases h11 : i = 11
  · simp [h11]
  by_cases h12 : i = 12
  · simp [h12]
  by_cases h13 : i = 13
  · simp [h13]
  simp [h, h8, h9, h10, h11, h12, h13, show ¬i - 8 < 1 by omega, show ¬i - 8 - 1 < 1 by omega,
    show ¬i - 8 - 1 - 1 < 1 by omega, show ¬i - 8 - 1 - 1 - 1 < 1 by omega,
    show ¬i - 8 - 1 - 1 - 1 - 1 < 1 by omega, show ¬i - 8 - 1 - 1 - 1 - 1 - 1 < 1 by omega]

end Sys2Proof.Machine
end

