-- ==== Sys2Proof/Laws/Memory.lean ====
section
/-! SUPPORT. Memory: read after write, every other byte kept, and the canonical form. -/

namespace Sys2Proof.Machine

open Sys2Proof

theorem Memory.read_erase (m : Memory) (a x : Nat) :
    Memory.read (Memory.erase m a) x = if x = a then blankByte else Memory.read m x := by
  induction m with
  | nil => simp [Memory.erase, Memory.read]
  | cons c m ih =>
    obtain ⟨k, v⟩ := c
    simp only [Memory.erase]
    split
    · subst k
      rw [ih]
      by_cases h : x = a
      · simp [h]
      · simp [h, Memory.read, Ne.symm h]
    · rename_i hk
      simp only [Memory.read]
      rw [ih]
      by_cases h : k = x
      · subst h
        simp [hk]
      · simp [h]

theorem Memory.read_insert (m : Memory) (a : Nat) (b : Byte) (x : Nat) :
    Memory.read (Memory.insert m a b) x = if x = a then b else Memory.read m x := by
  induction m with
  | nil => simp [Memory.insert, Memory.read, eq_comm]
  | cons c m ih =>
    obtain ⟨k, v⟩ := c
    simp only [Memory.insert]
    split
    · simp [Memory.read, eq_comm]
    · split
      · subst a
        by_cases h : x = k
        · simp [h, Memory.read]
        · simp [h, Memory.read, Ne.symm h]
      · rename_i h1 h2
        simp only [Memory.read]
        rw [ih]
        by_cases h : k = x
        · subst h
          simp [Ne.symm h2]
        · simp [h]

/-- What a byte reads as after a write, for any address. -/
theorem Memory.read_write (m : Memory) (a : Nat) (b : Byte) (x : Nat) :
    Memory.read (Memory.write m a b) x = if x = a then b else Memory.read m x := by
  unfold Memory.write
  split
  · rename_i h
    rw [Memory.read_erase, h]
  · rw [Memory.read_insert]

@[simp] theorem Memory.read_write_same (m : Memory) (a : Nat) (b : Byte) :
    Memory.read (Memory.write m a b) a = b := by simp [Memory.read_write]

theorem Memory.read_write_ne {m : Memory} {a x : Nat} {b : Byte} (h : x ≠ a) :
    Memory.read (Memory.write m a b) x = Memory.read m x := by simp [Memory.read_write, h]

/-! ## The canonical form -/

theorem Memory.wfFrom_mono {lo lo' : Nat} {m : Memory} (h : Memory.wfFrom lo m = true) (hle : lo' ≤ lo) :
    Memory.wfFrom lo' m = true := by
  cases m with
  | nil => rfl
  | cons c m =>
    obtain ⟨k, v⟩ := c
    simp only [Memory.wfFrom, Bool.and_eq_true, decide_eq_true_eq] at h ⊢
    exact ⟨⟨by omega, h.1.2⟩, h.2⟩

theorem Memory.wfFrom_erase {m : Memory} {lo : Nat} (a : Nat) (h : Memory.wfFrom lo m = true) :
    Memory.wfFrom lo (Memory.erase m a) = true := by
  induction m generalizing lo with
  | nil => exact h
  | cons c m ih =>
    obtain ⟨k, v⟩ := c
    simp only [Memory.wfFrom, Bool.and_eq_true, decide_eq_true_eq] at h
    simp only [Memory.erase]
    split
    · exact ih (Memory.wfFrom_mono h.2 (by omega))
    · simp only [Memory.wfFrom, Bool.and_eq_true, decide_eq_true_eq]
      exact ⟨h.1, ih h.2⟩

theorem Memory.wfFrom_insert {m : Memory} {lo a : Nat} {b : Byte} (hlo : lo ≤ a) (hb : b ≠ blankByte)
    (h : Memory.wfFrom lo m = true) : Memory.wfFrom lo (Memory.insert m a b) = true := by
  induction m generalizing lo with
  | nil => simpa [Memory.insert, Memory.wfFrom, hlo] using hb
  | cons c m ih =>
    obtain ⟨k, v⟩ := c
    simp only [Memory.wfFrom, Bool.and_eq_true, decide_eq_true_eq] at h
    simp only [Memory.insert]
    split
    · simp only [Memory.wfFrom, Bool.and_eq_true, decide_eq_true_eq]
      exact ⟨⟨hlo, by simpa using hb⟩, ⟨by omega, h.1.2⟩, h.2⟩
    · split
      · subst a
        simp only [Memory.wfFrom, Bool.and_eq_true, decide_eq_true_eq]
        exact ⟨⟨hlo, by simpa using hb⟩, h.2⟩
      · simp only [Memory.wfFrom, Bool.and_eq_true, decide_eq_true_eq]
        exact ⟨h.1, ih (by omega) h.2⟩

/-- A write keeps the canonical form. -/
theorem Memory.wf_write {m : Memory} (a : Nat) (b : Byte) (h : Memory.wf m = true) :
    Memory.wf (Memory.write m a b) = true := by
  unfold Memory.write
  split
  · exact Memory.wfFrom_erase a h
  · exact Memory.wfFrom_insert (Nat.zero_le a) ‹_› h

theorem Memory.mem_erase {m : Memory} {a : Nat} {c : Host.Cell} (h : c ∈ Memory.erase m a) : c ∈ m := by
  induction m with
  | nil => exact h
  | cons d m ih =>
    obtain ⟨k, v⟩ := d
    simp only [Memory.erase] at h
    split at h
    · exact List.mem_cons_of_mem _ (ih h)
    · rcases List.mem_cons.mp h with h | h
      · exact h ▸ List.mem_cons_self
      · exact List.mem_cons_of_mem _ (ih h)

theorem Memory.mem_insert {m : Memory} {a : Nat} {b : Byte} {c : Host.Cell} (h : c ∈ Memory.insert m a b) :
    c = (a, b) ∨ c ∈ m := by
  induction m with
  | nil => exact .inl (by simpa [Memory.insert] using h)
  | cons d m ih =>
    obtain ⟨k, v⟩ := d
    simp only [Memory.insert] at h
    split at h
    · exact List.mem_cons.mp h
    · split at h
      · rcases List.mem_cons.mp h with h | h
        · exact .inl h
        · exact .inr (List.mem_cons_of_mem _ h)
      · rcases List.mem_cons.mp h with h | h
        · exact .inr (h ▸ List.mem_cons_self)
        · exact (ih h).imp_right (List.mem_cons_of_mem _)

/-- A write lists no address but its own and those listed before. -/
theorem Memory.mem_write {m : Memory} {a : Nat} {b : Byte} {c : Host.Cell} (h : c ∈ Memory.write m a b) :
    c.1 = a ∨ c ∈ m := by
  unfold Memory.write at h
  split at h
  · exact .inr (Memory.mem_erase h)
  · exact (Memory.mem_insert h).imp_left fun e => by simp [e]

/-! ## Consecutive bytes -/

@[simp] theorem Memory.length_bytes (m : Memory) (a n : Nat) : (Memory.bytes m a n).length = n := by
  induction n generalizing a with
  | zero => rfl
  | succ n ih => simp [Memory.bytes, ih]

theorem Memory.getElem?_bytes (m : Memory) (a n k : Nat) :
    (Memory.bytes m a n)[k]? = if k < n then some (Memory.read m (a + k)) else none := by
  induction n generalizing a k with
  | zero => simp [Memory.bytes]
  | succ n ih =>
    cases k with
    | zero => simp [Memory.bytes]
    | succ k => simp [Memory.bytes, ih, Nat.add_assoc, Nat.add_comm 1 k]

theorem Memory.bytes_append (m : Memory) (a n k : Nat) :
    Memory.bytes m a (n + k) = Memory.bytes m a n ++ Memory.bytes m (a + n) k := by
  induction n generalizing a with
  | zero => simp [Memory.bytes]
  | succ n ih => simp [Memory.bytes, Nat.succ_add, ih, Nat.add_assoc]

theorem Memory.bytes_congr {m m' : Memory} {a n : Nat}
    (h : ∀ k, k < n → Memory.read m (a + k) = Memory.read m' (a + k)) :
    Memory.bytes m a n = Memory.bytes m' a n := by
  apply List.ext_getElem?
  intro k
  rw [Memory.getElem?_bytes, Memory.getElem?_bytes]
  split
  · rw [h k ‹_›]
  · rfl

/-- Bytes that memory holds from `a` up are the list read there. -/
theorem Memory.bytes_eq_of_read {m : Memory} {a : Nat} {bs : List Byte}
    (h : ∀ k, k < bs.length → some (Memory.read m (a + k)) = bs[k]?) : Memory.bytes m a bs.length = bs := by
  apply List.ext_getElem?
  intro k
  rw [Memory.getElem?_bytes]
  split
  · exact h k ‹_›
  · exact (List.getElem?_eq_none (by omega)).symm

end Sys2Proof.Machine
end

