-- ==== Sys2Proof/Laws/Writes.lean ====
section
/-! SUPPORT. What each write of memory can do: where it can change a byte, that it keeps the canonical form, and what its
bytes read as afterwards (70_reset_and_hazards.md R300 to R303). -/

namespace Sys2Proof.Machine

open Sys2Proof

/-- What the writes of one instance's command, or of the host, can do to another instance: its registers and units stay,
no record is dropped of its reader, and what is recorded anew is about its units as they are (R278, R300, R303). -/
structure Block.KeptBy (p p' : Block) : Prop where
  registers : p'.registers = p.registers
  stale : ∀ k ∈ p.stale, k ∈ p'.stale
  sound : p.Sound → p'.Sound

theorem Block.KeptBy.refl (p : Block) : p.KeptBy p := ⟨rfl, fun _ h => h, fun h => h⟩

theorem Block.KeptBy.trans {p q r : Block} (h : p.KeptBy q) (h' : q.KeptBy r) : p.KeptBy r :=
  ⟨h'.registers.trans h.registers, fun k hk => h'.stale k (h.stale k hk), fun hp => h'.sound (h.sound hp)⟩

theorem Block.KeptBy.trans_all {ps qs rs : List Block} (h : List.Forall₂ Block.KeptBy ps qs)
    (h' : List.Forall₂ Block.KeptBy qs rs) : List.Forall₂ Block.KeptBy ps rs := by
  induction h generalizing rs with
  | nil => exact h'
  | cons hp _ ih =>
    cases h' with
    | cons hq hr => exact .cons (hp.trans hq) (ih hr)

/-- Kept instances have the registers, units and numbers they had. -/
theorem Block.KeptBy.map_registers {ps qs : List Block} (h : List.Forall₂ Block.KeptBy ps qs) :
    qs.map Block.registers = ps.map Block.registers := by
  induction h with
  | nil => rfl
  | cons hp _ ih => rw [List.map_cons, List.map_cons, hp.registers, ih]

theorem Block.id_of_registers {ps qs : List Block} (h : qs.map Block.registers = ps.map Block.registers) :
    qs.map Block.id = ps.map Block.id := by
  have := congrArg (List.map Block.id) h
  simpa only [List.map_map, Function.comp_def, Block.registers] using this

/-- Kept instances satisfy the invariant if they did. -/
theorem Block.KeptBy.sound_all {ps qs : List Block} (h : List.Forall₂ Block.KeptBy ps qs) (hp : ∀ p ∈ ps, p.Sound) :
    ∀ q ∈ qs, q.Sound := by
  induction h with
  | nil => exact hp
  | cons hk _ ih =>
    intro q hq
    rcases List.mem_cons.mp hq with rfl | hq
    · exact hk.sound (hp _ (.head _))
    · exact ih (fun p hm => hp p (.tail _ hm)) q hq

/-! ## The records of the hazards -/

theorem BitReader.mem_noteWrite {br : BitReader} {a k : Nat} {stale : List Nat} :
    k ∈ br.noteWrite a stale ↔ (br.covers a = true ∧ k = a - br.base.toNat) ∨ k ∈ stale := by
  unfold BitReader.noteWrite
  split
  · simp [mem_insertNat, *]
  · simp [*]

/-- A byte of the bound reader's range that is written is recorded (R300). -/
theorem BitReader.mem_noteWrite_self {br : BitReader} {a : Nat} {stale : List Nat} (h : br.covers a = true) :
    a - br.base.toNat ∈ br.noteWrite a stale := BitReader.mem_noteWrite.mpr (.inl ⟨h, rfl⟩)

theorem BitReader.mem_noteWrite_of_mem {br : BitReader} {a k : Nat} {stale : List Nat} (h : k ∈ stale) :
    k ∈ br.noteWrite a stale := BitReader.mem_noteWrite.mpr (.inr h)

/-- What is recorded as stored early after another's write is a byte the write hit, or was so before (R303 (b)). -/
theorem BitWriter.mem_noteWrite {bw : BitWriter} {a k : Nat} {free : Bool} {drained : List Nat}
    (h : k ∈ bw.noteWrite a free drained) : (bw.awaits a = true ∧ k = a - bw.base.toNat) ∨ k ∈ drained := by
  unfold BitWriter.noteWrite at h
  split at h
  · split at h
    · exact (mem_insertNat.mp h).imp_left fun e => ⟨‹_›, e⟩
    · exact .inr (mem_eraseNat.mp h).2
  · exact .inr h

theorem BitReader.covers_iff (br : BitReader) (a : Nat) :
    br.covers a = true ↔ br.bound = true ∧ br.base.toNat ≤ a ∧ a < br.base.toNat + br.len.toNat := by
  simp [BitReader.covers, and_assoc]

theorem BitWriter.awaits_iff (bw : BitWriter) (a : Nat) :
    bw.awaits a = true ↔ bw.bound = true ∧ bw.fault = false ∧ bw.base.toNat + bw.final.toNat ≤ a
      ∧ 8 * (a - bw.base.toNat + 1) ≤ bw.bits.length := by
  simp [BitWriter.awaits, and_assoc]

/-- The records stay about the units as they are. -/
theorem hazardsSound.noteWrite {br : BitReader} {bw : BitWriter} {stale drained : List Nat}
    (h : hazardsSound br bw stale drained) (a : Nat) (free : Bool) :
    hazardsSound br bw (br.noteWrite a stale) (bw.noteWrite a free drained) := by
  refine ⟨fun k hk => ?_, fun k hk => ?_⟩
  · rcases BitReader.mem_noteWrite.mp hk with ⟨hc, rfl⟩ | hk
    · have := (br.covers_iff a).mp hc
      exact ⟨this.1, by omega⟩
    · exact h.1 k hk
  · rcases BitWriter.mem_noteWrite hk with ⟨hc, rfl⟩ | hk
    · have := (bw.awaits_iff a).mp hc
      exact ⟨this.1, this.2.1, by omega, this.2.2.2⟩
    · exact h.2 k hk

theorem Block.keptBy_noteWrite (p : Block) (a draw : Nat) : p.KeptBy (p.noteWrite a draw) :=
  ⟨rfl, fun _ hk => BitReader.mem_noteWrite_of_mem hk, fun h => ⟨h.1, h.2.1, h.2.2.1, h.2.2.2.noteWrite a _⟩⟩

theorem keptBy_noteWrites (a draw : Nat) (ps : List Block) : List.Forall₂ Block.KeptBy ps (noteWrites a draw ps) := by
  induction ps generalizing draw with
  | nil => exact .nil
  | cons p ps ih => exact .cons (p.keptBy_noteWrite a draw) (ih _)

/-- Every other instance whose bound reader's range holds the byte has it recorded as written (R300). -/
theorem stale_noteWrites {a draw : Nat} {ps : List Block} {q : Block} (hq : q ∈ noteWrites a draw ps)
    (hc : q.br.covers a = true) : a - q.br.base.toNat ∈ q.stale := by
  induction ps generalizing draw with
  | nil => simp [noteWrites] at hq
  | cons p ps ih =>
    rcases List.mem_cons.mp hq with rfl | hq
    · exact BitReader.mem_noteWrite_self hc
    · exact ih hq

/-! ## Where writes land -/

/-- From `m` to `m'`, memory changed at most in `[lo, hi)`, listed no address elsewhere and kept the canonical form, and the
other instances were kept. -/
structure MemSystem.TouchesOnly (m m' : MemSystem) (lo hi : Nat) : Prop where
  read : ∀ x, ¬(lo ≤ x ∧ x < hi) → Memory.read m'.cells x = Memory.read m.cells x
  wf : Memory.wf m.cells = true → Memory.wf m'.cells = true
  keys : ∀ c ∈ m'.cells, c ∈ m.cells ∨ (lo ≤ c.1 ∧ c.1 < hi)
  others : List.Forall₂ Block.KeptBy m.others m'.others

theorem MemSystem.TouchesOnly.of_cells {m m' : MemSystem} (lo hi : Nat) (h : m'.cells = m.cells)
    (ho : m'.others = m.others) : m.TouchesOnly m' lo hi :=
  ⟨fun _ _ => by rw [h], fun w => by rw [h]; exact w, fun c hc => .inl (h ▸ hc),
    ho ▸ List.forall₂_same.mpr fun p _ => .refl p⟩

theorem MemSystem.TouchesOnly.trans {m m' m'' : MemSystem} {lo hi : Nat} (h : m.TouchesOnly m' lo hi)
    (h' : m'.TouchesOnly m'' lo hi) : m.TouchesOnly m'' lo hi :=
  ⟨fun x hx => (h'.read x hx).trans (h.read x hx), fun w => h'.wf (h.wf w),
    fun c hc => (h'.keys c hc).elim (h.keys c) .inr, Block.KeptBy.trans_all h.others h'.others⟩

theorem MemSystem.TouchesOnly.mono {m m' : MemSystem} {lo hi lo' hi' : Nat} (h : m.TouchesOnly m' lo hi)
    (hlo : lo' ≤ lo) (hhi : hi ≤ hi') : m.TouchesOnly m' lo' hi' :=
  ⟨fun x hx => h.read x (fun hx' => hx ⟨by omega, by omega⟩), h.wf,
    fun c hc => (h.keys c hc).imp_right fun k => ⟨by omega, by omega⟩, h.others⟩

theorem MemSystem.TouchesOnly.write {m m' : MemSystem} {lo hi a : Nat} {b : Byte} (ha : lo ≤ a) (ha' : a < hi)
    (h : m'.cells = Memory.write m.cells a b) (ho : List.Forall₂ Block.KeptBy m.others m'.others) :
    m.TouchesOnly m' lo hi :=
  ⟨fun x hx => by rw [h, Memory.read_write_ne (fun e => hx (by subst e; exact ⟨ha, ha'⟩))],
    fun w => by rw [h]; exact Memory.wf_write a b w,
    fun c hc => by
      rw [h] at hc
      exact (Memory.mem_write hc).elim (fun e => .inr (e ▸ ⟨ha, ha'⟩)) .inl,
    ho⟩

/-! ## One byte -/

@[simp] theorem MemSystem.put_cells (m : MemSystem) (br : BitReader) (a : Nat) (b : Byte) :
    (m.put br a b).cells = Memory.write m.cells a b := rfl
@[simp] theorem MemSystem.put_stale (m : MemSystem) (br : BitReader) (a : Nat) (b : Byte) :
    (m.put br a b).stale = br.noteWrite a m.stale := rfl
@[simp] theorem MemSystem.put_drained (m : MemSystem) (br : BitReader) (a : Nat) (b : Byte) :
    (m.put br a b).drained = m.drained := rfl
@[simp] theorem MemSystem.put_others (m : MemSystem) (br : BitReader) (a : Nat) (b : Byte) :
    (m.put br a b).others = noteWrites a m.draws m.others := rfl
@[simp] theorem MemSystem.put_draws (m : MemSystem) (br : BitReader) (a : Nat) (b : Byte) :
    (m.put br a b).draws = m.draws + m.others.length := rfl

@[simp] theorem MemSystem.putForeign_cells (m : MemSystem) (br : BitReader) (bw : BitWriter) (a : Nat) (b : Byte) :
    (m.putForeign br bw a b).cells = Memory.write m.cells a b := rfl

@[simp] theorem MemSystem.putForeign_stale (m : MemSystem) (br : BitReader) (bw : BitWriter) (a : Nat) (b : Byte) :
    (m.putForeign br bw a b).stale = br.noteWrite a m.stale := rfl
@[simp] theorem MemSystem.putForeign_drained (m : MemSystem) (br : BitReader) (bw : BitWriter) (a : Nat) (b : Byte) :
    (m.putForeign br bw a b).drained = bw.noteWrite a (Config.freeBit m.draws) m.drained := rfl
@[simp] theorem MemSystem.putForeign_others (m : MemSystem) (br : BitReader) (bw : BitWriter) (a : Nat) (b : Byte) :
    (m.putForeign br bw a b).others = noteWrites a (m.draws + 1) m.others := rfl

theorem MemSystem.putForeign_touches (m : MemSystem) (br : BitReader) (bw : BitWriter) (a : Nat) (b : Byte) :
    m.TouchesOnly (m.putForeign br bw a b) a (a + 1) :=
  .write (Nat.le_refl a) (Nat.lt_succ_self a) (MemSystem.putForeign_cells m br bw a b) (keptBy_noteWrites _ _ _)

/-! ## Output of a Gorilla or BSS command -/

theorem MemSystem.putAll_touches (br : BitReader) (bw : BitWriter) (m : MemSystem) (a : Nat) (bs : List Byte) :
    m.TouchesOnly (MemSystem.putAll br bw m a bs) a (a + bs.length) := by
  induction bs generalizing m a with
  | nil => exact .of_cells _ _ rfl rfl
  | cons b bs ih =>
    refine .trans ((m.putForeign_touches br bw a b).mono (Nat.le_refl a) ?_) ((ih _ _).mono ?_ ?_)
    all_goals first | omega | (rw [List.length_cons]; omega)

/-- The bytes stored read back. -/
theorem MemSystem.putAll_read (br : BitReader) (bw : BitWriter) (m : MemSystem) (a : Nat) (bs : List Byte) (k : Nat)
    (hk : k < bs.length) : some (Memory.read (MemSystem.putAll br bw m a bs).cells (a + k)) = bs[k]? := by
  induction bs generalizing m a k with
  | nil => simp at hk
  | cons b bs ih =>
    cases k with
    | zero =>
      rw [MemSystem.putAll, (MemSystem.putAll_touches br bw _ (a + 1) bs).read _ (by omega)]
      simp
    | succ k =>
      have := ih (m.putForeign br bw a b) (a + 1) k (by simpa using hk)
      rw [show a + 1 + k = a + (k + 1) by omega] at this
      simpa [MemSystem.putAll] using this

/-- Memory holds the bytes stored. -/
theorem MemSystem.bytes_putAll (br : BitReader) (bw : BitWriter) (m : MemSystem) (a : Nat) (bs : List Byte) :
    Memory.bytes (MemSystem.putAll br bw m a bs).cells a bs.length = bs :=
  Memory.bytes_eq_of_read fun k hk => MemSystem.putAll_read br bw m a bs k hk

/-! ## Bytes left unspecified -/

theorem MemSystem.scramble_touches (br : BitReader) (bw : BitWriter) (m : MemSystem) (a n : Nat) :
    m.TouchesOnly (MemSystem.scramble br bw m a n) a (a + n) := by
  induction n generalizing m a with
  | zero => exact .of_cells _ _ rfl rfl
  | succ n ih =>
    refine .trans (m' := { m with draws := m.draws + 1 }) (.of_cells _ _ rfl rfl) (.trans ?_ ((ih _ _).mono ?_ ?_))
    · exact (MemSystem.putForeign_touches _ br bw a _).mono (Nat.le_refl a) (by omega)
    all_goals omega

/-! ## Output that an error cuts short -/

theorem MemSystem.putSome_touches (br : BitReader) (bw : BitWriter) (m : MemSystem) (a : Nat) (bs : List Byte) :
    m.TouchesOnly (MemSystem.putSome br bw m a bs) a (a + bs.length) := by
  induction bs generalizing m a with
  | nil => exact .of_cells _ _ rfl rfl
  | cons b bs ih =>
    refine .trans (.trans (m' := { m with draws := m.draws + 1 }) (.of_cells _ _ rfl rfl) ?_) ((ih _ _).mono ?_ ?_)
    · split
      · exact (MemSystem.putForeign_touches _ br bw a b).mono (Nat.le_refl a) (by rw [List.length_cons]; omega)
      · exact .of_cells _ _ rfl rfl
    all_goals first | omega | (rw [List.length_cons]; omega)

/-- Each byte keeps its value or gets the one the command would have stored (R211). -/
theorem MemSystem.putSome_read (br : BitReader) (bw : BitWriter) (m : MemSystem) (a : Nat) (bs : List Byte) (k : Nat)
    (hk : k < bs.length) :
    Memory.read (MemSystem.putSome br bw m a bs).cells (a + k) = Memory.read m.cells (a + k)
      ∨ some (Memory.read (MemSystem.putSome br bw m a bs).cells (a + k)) = bs[k]? := by
  induction bs generalizing m a k with
  | nil => simp at hk
  | cons b bs ih =>
    cases k with
    | zero =>
      rw [MemSystem.putSome, (MemSystem.putSome_touches br bw _ (a + 1) bs).read _ (by omega)]
      split
      · exact .inr (by simp)
      · exact .inl rfl
    | succ k =>
      have h := ih (if Config.freeBit m.draws then ({ m with draws := m.draws + 1 }).putForeign br bw a b
        else { m with draws := m.draws + 1 }) (a + 1) k (by simpa using hk)
      rw [show a + 1 + k = a + (k + 1) by omega] at h
      refine h.imp_left fun e => e.trans ?_
      split
      · exact (MemSystem.putForeign_touches _ br bw a b).read _ (by omega)
      · rfl

/-! ## The writer before a flush -/

theorem MemSystem.drainByte_touches (m : MemSystem) (br : BitReader) (bw : BitWriter) (k : Nat) (b : Byte) :
    m.TouchesOnly (m.drainByte br bw k b) (bw.base.toNat + k) (bw.base.toNat + k + 1) := by
  unfold MemSystem.drainByte
  split
  · exact .of_cells _ _ rfl rfl
  · split
    · exact .write (b := b) (Nat.le_refl _) (Nat.lt_succ_self _) rfl (keptBy_noteWrites _ _ _)
    · exact .of_cells _ _ rfl rfl

theorem MemSystem.drain_touches (br : BitReader) (bw : BitWriter) (m : MemSystem) (k : Nat) (bs : List Byte) :
    m.TouchesOnly (MemSystem.drain br bw m k bs) (bw.base.toNat + k) (bw.base.toNat + k + bs.length) := by
  induction bs generalizing m k with
  | nil => exact .of_cells _ _ rfl rfl
  | cons b bs ih =>
    refine .trans ((m.drainByte_touches br bw k b).mono (Nat.le_refl _) ?_) ((ih _ _).mono ?_ ?_)
    all_goals first | omega | (rw [List.length_cons]; omega)

/-- A byte the writer may store before a flush reads as it did or as the writer's byte (R302 (b)). -/
theorem MemSystem.drain_read (br : BitReader) (bw : BitWriter) (m : MemSystem) (k : Nat) (bs : List Byte) (j : Nat)
    (hj : j < bs.length) :
    Memory.read (MemSystem.drain br bw m k bs).cells (bw.base.toNat + k + j)
        = Memory.read m.cells (bw.base.toNat + k + j)
      ∨ some (Memory.read (MemSystem.drain br bw m k bs).cells (bw.base.toNat + k + j)) = bs[j]? := by
  induction bs generalizing m k j with
  | nil => simp at hj
  | cons b bs ih =>
    cases j with
    | zero =>
      rw [MemSystem.drain, (MemSystem.drain_touches br bw _ (k + 1) bs).read _ (by omega)]
      simp only [Nat.add_zero]
      unfold MemSystem.drainByte
      split
      · exact .inl rfl
      · split
        · exact .inr (by simp)
        · exact .inl rfl
    | succ j =>
      have h := ih (m.drainByte br bw k b) (k + 1) j (by simpa using hj)
      have h1 := (m.drainByte_touches br bw k b).read (bw.base.toNat + k + (j + 1)) (by omega)
      rw [show bw.base.toNat + (k + 1) + j = bw.base.toNat + k + (j + 1) by omega] at h
      rw [h1] at h
      simpa [MemSystem.drain] using h

/-- Every index the writer has stored early was one before, or is one of the bytes it could store. -/
theorem MemSystem.mem_drained_drain {br : BitReader} {bw : BitWriter} {m : MemSystem} {k : Nat} {bs : List Byte} {j : Nat}
    (h : j ∈ (MemSystem.drain br bw m k bs).drained) : j ∈ m.drained ∨ (k ≤ j ∧ j < k + bs.length) := by
  induction bs generalizing m k with
  | nil => exact .inl h
  | cons b bs ih =>
    rcases ih h with h | h
    · unfold MemSystem.drainByte at h
      split at h
      · exact .inl h
      · split at h
        · rcases mem_insertNat.mp h with h | h
          · exact .inr (by simp only [List.length_cons]; omega)
          · exact .inl h
        · exact .inl h
    · exact .inr (by simp only [List.length_cons]; omega)

/-- A byte the writer stored before this command, and what memory holds of it, stay. -/
theorem MemSystem.drain_of_mem {br : BitReader} {bw : BitWriter} {m : MemSystem} {k : Nat} {bs : List Byte} {j : Nat}
    (h : j ∈ m.drained) :
    j ∈ (MemSystem.drain br bw m k bs).drained
      ∧ Memory.read (MemSystem.drain br bw m k bs).cells (bw.base.toNat + j) = Memory.read m.cells (bw.base.toNat + j) := by
  induction bs generalizing m k with
  | nil => exact ⟨h, rfl⟩
  | cons b bs ih =>
    have h1 : j ∈ (m.drainByte br bw k b).drained
        ∧ Memory.read (m.drainByte br bw k b).cells (bw.base.toNat + j) = Memory.read m.cells (bw.base.toNat + j) := by
      unfold MemSystem.drainByte
      split
      · exact ⟨h, rfl⟩
      · rename_i hk
        have hne : j ≠ k := fun e => hk (by subst e; simpa using h)
        split
        · exact ⟨mem_insertNat.mpr (.inr h), by simp [Memory.read_write_ne (show bw.base.toNat + j ≠ bw.base.toNat + k by omega)]⟩
        · exact ⟨h, rfl⟩
    exact ⟨(ih h1.1).1, (ih h1.1).2.trans h1.2⟩

/-- A byte the writer stores during this command reads as the writer's byte. -/
theorem MemSystem.drain_new {br : BitReader} {bw : BitWriter} {m : MemSystem} {k : Nat} {bs : List Byte} {j : Nat}
    (hj : j ∉ m.drained) (h : j ∈ (MemSystem.drain br bw m k bs).drained) :
    k ≤ j ∧ some (Memory.read (MemSystem.drain br bw m k bs).cells (bw.base.toNat + j)) = bs[j - k]? := by
  induction bs generalizing m k with
  | nil => exact absurd h hj
  | cons b bs ih =>
    by_cases h1 : j ∈ (m.drainByte br bw k b).drained
    · have hjk : j = k ∧ Memory.read (m.drainByte br bw k b).cells (bw.base.toNat + k) = b := by
        unfold MemSystem.drainByte at h1 ⊢
        split at h1
        · exact absurd h1 hj
        · rename_i hk
          split at h1
          · rename_i hf
            rcases mem_insertNat.mp h1 with e | e
            · have hk' : k ∉ m.drained := by simpa using hk
              exact ⟨e, by simp [hk', hf]⟩
            · exact absurd e hj
          · exact absurd h1 hj
      obtain ⟨rfl, hb⟩ := hjk
      refine ⟨Nat.le_refl _, ?_⟩
      rw [MemSystem.drain, (MemSystem.drain_of_mem h1).2, hb]
      simp
    · obtain ⟨hle, hr⟩ := ih h1 h
      refine ⟨by omega, ?_⟩
      rw [show j - k = j - (k + 1) + 1 by omega, List.getElem?_cons_succ]
      exact hr

/-! ## A flush -/

@[simp] theorem MemSystem.flushByte_drained (m : MemSystem) (br : BitReader) (bw : BitWriter) (k : Nat) (b : Byte) :
    (m.flushByte br bw k b).drained = m.drained := rfl

@[simp] theorem MemSystem.flushByte_stale (m : MemSystem) (br : BitReader) (bw : BitWriter) (k : Nat) (b : Byte) :
    (m.flushByte br bw k b).stale = br.noteWrite (bw.base.toNat + k) m.stale := rfl

theorem MemSystem.flushByte_touches (m : MemSystem) (br : BitReader) (bw : BitWriter) (k : Nat) (b : Byte) :
    m.TouchesOnly (m.flushByte br bw k b) (bw.base.toNat + k) (bw.base.toNat + k + 1) := by
  by_cases h : m.drained.contains k
  · exact ⟨fun _ _ => by rw [flushByte, if_pos h], fun w => by rw [flushByte, if_pos h]; exact w,
      fun c hc => .inl (by rwa [flushByte, if_pos h] at hc), keptBy_noteWrites _ _ _⟩
  · exact .write (Nat.le_refl _) (Nat.lt_succ_self _) (if_neg h) (keptBy_noteWrites _ _ _)

@[simp] theorem MemSystem.flushBytes_drained (br : BitReader) (bw : BitWriter) (m : MemSystem) (k : Nat) (bs : List Byte) :
    (MemSystem.flushBytes br bw m k bs).drained = m.drained := by
  induction bs generalizing m k with
  | nil => rfl
  | cons b bs ih => rw [MemSystem.flushBytes, ih, MemSystem.flushByte_drained]

theorem MemSystem.flushBytes_touches (br : BitReader) (bw : BitWriter) (m : MemSystem) (k : Nat) (bs : List Byte) :
    m.TouchesOnly (MemSystem.flushBytes br bw m k bs) (bw.base.toNat + k) (bw.base.toNat + k + bs.length) := by
  induction bs generalizing m k with
  | nil => exact .of_cells _ _ rfl rfl
  | cons b bs ih =>
    refine .trans ((m.flushByte_touches br bw k b).mono (Nat.le_refl _) ?_) ((ih _ _).mono ?_ ?_)
    all_goals first | omega | (rw [List.length_cons]; omega)

/-- A byte made final reads as the writer's byte, unless the writer had stored it before: then it keeps what memory
holds (R161, R303 (b)). -/
theorem MemSystem.flushBytes_read (br : BitReader) (bw : BitWriter) (m : MemSystem) (k : Nat) (bs : List Byte) (j : Nat)
    (hj : j < bs.length) :
    some (Memory.read (MemSystem.flushBytes br bw m k bs).cells (bw.base.toNat + k + j))
      = if k + j ∈ m.drained then some (Memory.read m.cells (bw.base.toNat + k + j)) else bs[j]? := by
  induction bs generalizing m k j with
  | nil => simp at hj
  | cons b bs ih =>
    cases j with
    | zero =>
      rw [MemSystem.flushBytes, (MemSystem.flushBytes_touches br bw _ (k + 1) bs).read _ (by omega)]
      by_cases h : k ∈ m.drained
      · simp [MemSystem.flushByte, h]
      · simp [MemSystem.flushByte, h]
    | succ j =>
      have h := ih (m.flushByte br bw k b) (k + 1) j (by simpa using hj)
      have h1 := (m.flushByte_touches br bw k b).read (bw.base.toNat + k + (j + 1)) (by omega)
      rw [show bw.base.toNat + (k + 1) + j = bw.base.toNat + k + (j + 1) by omega,
        show k + 1 + j = k + (j + 1) by omega, MemSystem.flushByte_drained, h1] at h
      simpa [MemSystem.flushBytes] using h

end Sys2Proof.Machine
end

