-- ==== Sys2Proof/Laws/ByteStreamSplit.lean ====
section
/-! SUPPORT. The byte planes (44_bytestreamsplit.md R241, R243) and what the two commands can do. -/

namespace Sys2Proof.Machine

open Sys2Proof

theorem length_grid (w n : Nat) (f : Nat → Nat → Byte) :
    ((List.range w).flatMap fun b => (List.range n).map (f b)).length = w * n := by
  induction w with
  | zero => simp
  | succ w ih => simp [List.range_succ, ih, Nat.succ_mul]

theorem getElem?_grid {w n b i : Nat} (f : Nat → Nat → Byte) (hb : b < w) (hi : i < n) :
    ((List.range w).flatMap fun b => (List.range n).map (f b))[b * n + i]? = some (f b i) := by
  induction w with
  | zero => omega
  | succ w ih =>
    rw [List.range_succ, List.flatMap_append]
    by_cases h : b < w
    · have hlt : b * n + i < w * n := by
        calc b * n + i < b * n + n := by omega
          _ = (b + 1) * n := (Nat.succ_mul b n).symm
          _ ≤ w * n := Nat.mul_le_mul_right n h
      rw [List.getElem?_append_left (by rw [length_grid]; exact hlt), ih h]
    · have hbw : b = w := by omega
      subst hbw
      rw [List.getElem?_append_right (by rw [length_grid]; omega), length_grid]
      simp [hi]

@[simp] theorem length_bssSplit (w n : Nat) (bs : List Byte) : (bssSplit w n bs).length = w * n := length_grid _ _ _

@[simp] theorem length_bssJoin (w n : Nat) (bs : List Byte) : (bssJoin w n bs).length = n * w := length_grid _ _ _

/-- Byte `b * N + i` of the planes is byte `i * W + b` of the elements (R241). -/
theorem getElem?_bssSplit {w n b i : Nat} (bs : List Byte) (hb : b < w) (hi : i < n) :
    (bssSplit w n bs)[b * n + i]? = some (bs.getD (i * w + b) 0) := getElem?_grid _ hb hi

/-- Byte `i * W + b` of the elements is byte `b * N + i` of the planes (R241). -/
theorem getElem?_bssJoin {w n b i : Nat} (bs : List Byte) (hb : b < w) (hi : i < n) :
    (bssJoin w n bs)[i * w + b]? = some (bs.getD (b * n + i) 0) := getElem?_grid _ hi hb

theorem index_lt {w n b i : Nat} (hb : b < w) (hi : i < n) : i * w + b < n * w := by
  calc i * w + b < i * w + w := by omega
    _ = (i + 1) * w := (Nat.succ_mul i w).symm
    _ ≤ n * w := Nat.mul_le_mul_right w hi

/-- Joining the planes gives the elements back (R243). -/
theorem bssJoin_bssSplit {w n : Nat} {bs : List Byte} (h : bs.length = n * w) : bssJoin w n (bssSplit w n bs) = bs := by
  apply List.ext_getElem?
  intro k
  by_cases hk : k < n * w
  · have hw : 0 < w := Nat.pos_of_ne_zero (by rintro rfl; simp at hk)
    have hi : k / w < n := Nat.div_lt_of_lt_mul (by rwa [Nat.mul_comm] at hk)
    have hb : k % w < w := Nat.mod_lt _ hw
    have hkk : k / w * w + k % w = k := Nat.div_add_mod' k w
    have h1 := getElem?_bssJoin (bssSplit w n bs) hb hi
    rw [hkk] at h1
    rw [h1, List.getD_eq_getElem?_getD, getElem?_bssSplit bs hb hi, hkk, List.getD_eq_getElem?_getD, Option.getD_some,
      List.getElem?_eq_getElem (by omega), Option.getD_some]
  · rw [List.getElem?_eq_none (by rw [length_bssJoin]; omega), List.getElem?_eq_none (by omega)]

/-- Splitting the elements gives the planes back (R243). -/
theorem bssSplit_bssJoin {w n : Nat} {bs : List Byte} (h : bs.length = n * w) : bssSplit w n (bssJoin w n bs) = bs := by
  apply List.ext_getElem?
  intro k
  by_cases hk : k < n * w
  · have hn : 0 < n := Nat.pos_of_ne_zero (by rintro rfl; simp at hk)
    have hb : k / n < w := Nat.div_lt_of_lt_mul hk
    have hi : k % n < n := Nat.mod_lt _ hn
    have hkk : k / n * n + k % n = k := Nat.div_add_mod' k n
    have h1 := getElem?_bssSplit (bssJoin w n bs) hb hi
    rw [hkk] at h1
    rw [h1, List.getD_eq_getElem?_getD, getElem?_bssJoin bs hb hi, hkk, List.getD_eq_getElem?_getD, Option.getD_some,
      List.getElem?_eq_getElem (by omega), Option.getD_some]
  · rw [List.getElem?_eq_none (by rw [length_bssSplit, Nat.mul_comm]; omega), List.getElem?_eq_none (by omega)]

@[simp] theorem State.length_srcBytes (s : State) : s.srcBytes.length = s.srcLen.toNat := Memory.length_bytes _ _ _

/-- Everything BSS.ENC can do (R240). -/
theorem execBssEnc_next {w : Width} {s t : State} (h : execBssEnc w s = .next t) :
    (∃ e, s.arrayAdmission = .error e ∧ t = s.raise .none e)
    ∨ (s.arrayAdmission = .pass ∧ t = s.bssMove w (bssSplit w.bytes)) := by
  unfold execBssEnc at h
  split at h
  · cases h
    exact .inl ⟨_, ‹_›, rfl⟩
  · cases h
  · cases h
  · cases h
    exact .inr ⟨‹_›, rfl⟩

/-- Everything BSS.DEC can do (R242). -/
theorem execBssDec_next {w : Width} {s t : State} (h : execBssDec w s = .next t) :
    (∃ e, s.arrayAdmission = .error e ∧ t = s.raise .none e)
    ∨ (s.arrayAdmission = .pass ∧ t = s.bssMove w (bssJoin w.bytes)) := by
  unfold execBssDec at h
  split at h
  · cases h
    exact .inl ⟨_, ‹_›, rfl⟩
  · cases h
  · cases h
  · cases h
    exact .inr ⟨‹_›, rfl⟩

/-- The outcomes of BSS.ENC and BSS.DEC once their checks pass (R240, R242). -/
theorem State.bssMove_cases (s : State) (w : Width) (f : Nat → List Byte → List Byte) :
    (s.srcLen.toNat % w.bytes ≠ 0 ∧ s.bssMove w f = s.raise .none .length)
    ∨ (s.srcLen.toNat % w.bytes = 0 ∧ s.dstCap.toNat < s.srcLen.toNat ∧ s.bssMove w f = s.raise .none .capacity)
    ∨ (s.srcLen.toNat % w.bytes = 0 ∧ s.srcLen.toNat ≤ s.dstCap.toNat
        ∧ s.bssMove w f
          = (s.store s.dstBase.toNat (f (s.srcLen.toNat / w.bytes) s.srcBytes)).deliver s.srcLen.toNat false) := by
  unfold State.bssMove
  by_cases h1 : s.srcLen.toNat % w.bytes ≠ 0
  · exact .inl ⟨h1, if_pos h1⟩
  · by_cases h2 : s.dstCap.toNat < s.srcLen.toNat
    · exact .inr (.inl ⟨by simpa using h1, h2, by rw [if_neg h1, if_pos h2]⟩)
    · exact .inr (.inr ⟨by simpa using h1, by omega, by rw [if_neg h1, if_neg h2]⟩)

end Sys2Proof.Machine
end

