-- ==== Sys2Proof/Laws/Gorilla.lean ====
section
/-! SUPPORT. Leading and trailing zeros (00_scope.md R15), the item codes of the Gorilla engine and their decoding
(43_gorilla.md R191 to R213), and what the two commands can do. -/

namespace Sys2Proof.Machine

open Sys2Proof

/-! ## Leading and trailing zeros -/

theorem leadingZeros_le (s : List Bool) : leadingZeros s ≤ s.length := by
  induction s with
  | nil => simp [leadingZeros]
  | cons b s ih => cases b <;> simp [leadingZeros, ih]

theorem take_leadingZeros (s : List Bool) : s.take (leadingZeros s) = zeros (leadingZeros s) := by
  induction s with
  | nil => simp [leadingZeros, zeros]
  | cons b s ih =>
    cases b
    · simpa [leadingZeros, zeros, List.replicate_succ] using ih
    · simp [leadingZeros, zeros]

theorem getElem?_leadingZeros (s : List Bool) (h : leadingZeros s < s.length) : s[leadingZeros s]? = some true := by
  induction s with
  | nil => simp at h
  | cons b s ih =>
    cases b
    · rw [leadingZeros, List.getElem?_cons_succ]
      exact ih (by simpa [leadingZeros] using h)
    · simp [leadingZeros]

theorem leadingZeros_eq_length {s : List Bool} (h : leadingZeros s = s.length) : s = zeros s.length := by
  have := take_leadingZeros s
  rwa [h, List.take_length] at this

theorem val_zeros (k : Nat) : val (zeros k) = 0 := by
  induction k with
  | zero => rfl
  | succ k ih =>
    have : zeros (k + 1) = false :: zeros k := List.replicate_succ
    simp [this, val, ih]

theorem getElem?_bitsN (n v k : Nat) (h : k < n) : (bitsN n v)[k]? = some (v.testBit (n - 1 - k)) := by
  induction n generalizing k with
  | zero => omega
  | succ n ih =>
    cases k with
    | zero => simp [bitsN]
    | succ k =>
      rw [bitsN, List.getElem?_cons_succ, ih k (by omega)]
      congr 2
      omega

theorem clz_lt {w x : Nat} (hx : x ≠ 0) (hlt : x < 2 ^ w) : clz w x < w := by
  have hle : clz w x ≤ w := (leadingZeros_le _).trans_eq (length_bitsN w x)
  rcases Nat.lt_or_eq_of_le hle with h | h
  · exact h
  · have hz := leadingZeros_eq_length (s := bitsN w x) (by rw [length_bitsN]; exact h)
    have := val_bitsN_of_lt hlt
    rw [hz, val_zeros] at this
    exact absurd this.symm hx

/-- The bits above the leading one are 0 (R15). -/
theorem testBit_of_clz {w x i : Nat} (hi : w - clz w x ≤ i) (hiw : i < w) : x.testBit i = false := by
  have h1 : (bitsN w x)[w - 1 - i]? = some (x.testBit i) := by
    rw [getElem?_bitsN _ _ _ (by omega)]
    congr 2
    omega
  have h2 : (bitsN w x)[w - 1 - i]? = some false := by
    have hk : w - 1 - i < clz w x := by omega
    rw [← List.getElem?_take_of_lt hk, clz, take_leadingZeros, zeros,
      List.getElem?_replicate_of_lt (show w - 1 - i < leadingZeros (bitsN w x) from hk)]
  rw [h1] at h2
  exact Option.some.inj h2

/-- `x < 2^(w - clz_w(x))` (R198). -/
theorem lt_two_pow_clz {w x : Nat} (hlt : x < 2 ^ w) : x < 2 ^ (w - clz w x) := by
  apply Nat.lt_pow_two_of_testBit
  intro i hi
  by_cases h : i < w
  · exact testBit_of_clz hi h
  · exact Nat.testBit_lt_two_pow (hlt.trans_le (Nat.pow_le_pow_right (by omega) (by omega)))

/-- The bit below the leading zeros is 1 (R15). -/
theorem testBit_clz {w x : Nat} (hx : x ≠ 0) (hlt : x < 2 ^ w) : x.testBit (w - 1 - clz w x) = true := by
  have hc := clz_lt hx hlt
  have h := getElem?_leadingZeros (bitsN w x) (by rw [length_bitsN]; exact hc)
  rw [show leadingZeros (bitsN w x) = clz w x from rfl, getElem?_bitsN _ _ _ hc] at h
  exact Option.some.inj h

theorem ctz_lt {w x : Nat} (hx : x ≠ 0) (hlt : x < 2 ^ w) : ctz w x < w := by
  have hle : ctz w x ≤ w := (leadingZeros_le _).trans_eq (by simp)
  rcases Nat.lt_or_eq_of_le hle with h | h
  · exact h
  · have hz := leadingZeros_eq_length (s := (bitsN w x).reverse) (by simpa [ctz] using h)
    have hz' : bitsN w x = zeros w := by
      have := congrArg List.reverse hz
      simpa [zeros] using this
    have := val_bitsN_of_lt hlt
    rw [hz', val_zeros] at this
    exact absurd this.symm hx

theorem getElem?_reverse_bitsN (n v k : Nat) (h : k < n) : (bitsN n v).reverse[k]? = some (v.testBit k) := by
  rw [List.getElem?_reverse (by simpa using h), length_bitsN, getElem?_bitsN _ _ _ (by omega)]
  congr 2
  omega

/-- The bits below the trailing one are 0 (R15). -/
theorem testBit_of_ctz {w x i : Nat} (hi : i < ctz w x) : x.testBit i = false := by
  have hle : ctz w x ≤ w := (leadingZeros_le _).trans_eq (by simp)
  have h1 := getElem?_reverse_bitsN w x i (by omega)
  have h2 : (bitsN w x).reverse[i]? = some false := by
    rw [← List.getElem?_take_of_lt hi, ctz, take_leadingZeros, zeros,
      List.getElem?_replicate_of_lt (show i < leadingZeros (bitsN w x).reverse from hi)]
  rw [h1] at h2
  exact Option.some.inj h2

/-- The bit above the trailing zeros is 1 (R15). -/
theorem testBit_ctz {w x : Nat} (hx : x ≠ 0) (hlt : x < 2 ^ w) : x.testBit (ctz w x) = true := by
  have hc := ctz_lt hx hlt
  have h := getElem?_leadingZeros (bitsN w x).reverse (by rw [List.length_reverse, length_bitsN]; exact hc)
  rw [show leadingZeros (bitsN w x).reverse = ctz w x from rfl, getElem?_reverse_bitsN _ _ _ hc] at h
  exact Option.some.inj h

/-- Shifting out at most the trailing zeros loses no bit (R198, R199). -/
theorem shiftLeft_shiftRight_of_ctz {w x k : Nat} (hk : k ≤ ctz w x) : (x >>> k) <<< k = x := by
  apply Nat.eq_of_testBit_eq
  intro i
  rw [Nat.testBit_shiftLeft]
  by_cases h : k ≤ i
  · simp [h, Nat.testBit_shiftRight, Nat.add_sub_cancel' h]
  · simp only [h, decide_false, Bool.false_and]
    exact (testBit_of_ctz (w := w) (by omega)).symm

/-- Leading and trailing zeros of a non-zero word leave at least one bit (R197). -/
theorem clz_add_ctz_lt {w x : Nat} (hx : x ≠ 0) (hlt : x < 2 ^ w) : clz w x + ctz w x < w := by
  have h1 := testBit_clz hx hlt
  have hc := clz_lt hx hlt
  by_contra h
  have := testBit_of_ctz (w := w) (x := x) (i := w - 1 - clz w x) (by omega)
  rw [this] at h1
  cases h1

/-! ## Windows -/

/-- A window that the encoder or the decoder can hold: none yet, or one that spans the word (R200, R209). -/
def Window.Fits (w : Width) (win : Window) : Prop :=
  win.dataBits = 0 ∨ win.lz + win.dataBits + win.tz = w.bits

theorem Window.fits_initial (w : Width) : Window.initial.Fits w := .inl rfl

theorem Window.ofXor_sum {w : Width} {x : Nat} (hx : x ≠ 0) (hlt : x < 2 ^ w.bits) :
    (Window.ofXor w x).lz + (Window.ofXor w x).dataBits + (Window.ofXor w x).tz = w.bits := by
  have := clz_add_ctz_lt hx hlt
  simp only [Window.ofXor]
  omega

theorem Window.ofXor_dataBits_pos {w : Width} {x : Nat} (hx : x ≠ 0) (hlt : x < 2 ^ w.bits) :
    0 < (Window.ofXor w x).dataBits := by
  have := clz_add_ctz_lt hx hlt
  simp only [Window.ofXor]
  omega

/-! ## Item codes -/

theorem takeVal_bitsN (n v : Nat) (r : List Bool) (hv : v < 2 ^ n) : takeVal n (bitsN n v ++ r) = .ok (v, r) := by
  have h := takeBits_append (bitsN n v) r
  rw [length_bitsN] at h
  simp [takeVal, h, val_bitsN_of_lt hv]

/-- What `takeVal` answers (R132, R206). -/
theorem takeVal_eq (n : Nat) (s : List Bool) :
    takeVal n s = if n ≤ s.length then .ok (val (s.take n), s.drop n) else .error .underrun := by
  rw [takeVal, takeBits_eq]
  by_cases h : n ≤ s.length <;> simp [h]

/-- A payload read back through the window it was written in gives the XOR (R198, R199, R208, R209). -/
theorem decPayload_bitsN {w : Width} {win : Window} {x : Nat} (r : List Bool) (hlt : x < 2 ^ w.bits)
    (hsum : win.lz + win.dataBits + win.tz = w.bits) (hlz : win.lz ≤ clz w.bits x) (htz : win.tz ≤ ctz w.bits x) :
    decPayload win (bitsN win.dataBits (x >>> win.tz) ++ r) = .ok (x, win, r) := by
  have hb : x >>> win.tz < 2 ^ win.dataBits := by
    rw [Nat.shiftRight_eq_div_pow]
    apply Nat.div_lt_of_lt_mul
    rw [← Nat.pow_add]
    exact (lt_two_pow_clz hlt).trans_le (Nat.pow_le_pow_right (by omega) (by omega))
  rw [decPayload, takeVal_bitsN _ _ _ hb]
  simp only [shiftLeft_shiftRight_of_ctz htz]

theorem encItem_ne_nil (w : Width) (x : Nat) (win : Window) : (encItem w x win).1 ≠ [] := by
  unfold encItem
  split
  · simp
  · split <;> simp

/-- The decoder reads an item code back: the XOR, the encoder's window and the bits after the code (R196 to R199, R207 to
R209). -/
theorem decItem_encItem {w : Width} {x : Nat} {win : Window} (r : List Bool) (hlt : x < 2 ^ w.bits) (hw : win.Fits w) :
    decItem w win ((encItem w x win).1 ++ r) = .ok (x, (encItem w x win).2, r) := by
  unfold encItem
  split
  · subst x
    rfl
  · rename_i hx
    split
    · rename_i hre
      obtain ⟨hlz, htz, hdb⟩ := hre
      have hsum := hw.resolve_left hdb
      simp only [List.cons_append, decItem, if_neg hdb]
      exact decPayload_bitsN r hlt hsum hlz htz
    · have hsum := Window.ofXor_sum hx hlt
      have hpos := Window.ofXor_dataBits_pos hx hlt
      have hlz : (Window.ofXor w x).lz < 2 ^ w.leadingZeroBitlen := by
        rw [Width.two_pow_leadingZeroBitlen]
        omega
      have hdb : (Window.ofXor w x).dataBits < 2 ^ w.dataBitlen := by
        have := w.bits_lt_two_pow_dataBitlen
        omega
      simp only [List.cons_append, List.append_assoc, decItem, decNewWindow]
      rw [takeVal_bitsN _ _ _ hlz]
      simp only
      rw [takeVal_bitsN _ _ _ hdb]
      simp only
      rw [if_neg (by omega)]
      have hwin : (⟨(Window.ofXor w x).lz, (Window.ofXor w x).dataBits,
          w.bits - (Window.ofXor w x).lz - (Window.ofXor w x).dataBits⟩ : Window) = Window.ofXor w x := by
        have : w.bits - (Window.ofXor w x).lz - (Window.ofXor w x).dataBits = (Window.ofXor w x).tz := by omega
        rw [this]
      rw [hwin]
      exact decPayload_bitsN r hlt hsum (Nat.le_refl _) (Nat.le_refl _)

theorem encItem_fits {w : Width} {x : Nat} {win : Window} (hlt : x < 2 ^ w.bits) (hw : win.Fits w) :
    (encItem w x win).2.Fits w := by
  unfold encItem
  split
  · exact hw
  · split
    · exact hw
    · exact .inr (Window.ofXor_sum ‹_› hlt)

/-- The decode loop reads back the words of a tail, whatever bits follow it (R212, R213). -/
theorem decTail_encTail {w : Width} (xs : List Nat) {win : Window} {prev : Nat} (r : List Bool)
    (hprev : prev < 2 ^ w.bits) (hxs : ∀ x ∈ xs, x < 2 ^ w.bits) (hw : win.Fits w) :
    decTail w xs.length win prev (encTail w win prev xs ++ r) = .ok (xs, false) := by
  induction xs generalizing win prev with
  | nil => rfl
  | cons x xs ih =>
    have hx : x < 2 ^ w.bits := hxs x List.mem_cons_self
    have hxor : x ^^^ prev < 2 ^ w.bits := Nat.xor_lt_two_pow hx hprev
    have hd := decItem_encItem (encTail w (encItem w (x ^^^ prev) win).2 x xs ++ r) hxor hw
    obtain ⟨b, s, hs⟩ : ∃ b s, encTail w win prev (x :: xs) ++ r = b :: s := by
      cases h : (encItem w (x ^^^ prev) win).1 with
      | nil => exact absurd h (encItem_ne_nil _ _ _)
      | cons b s => exact ⟨b, _, by rw [encTail, h]; rfl⟩
    have hcode : (encItem w (x ^^^ prev) win).1 ++ (encTail w (encItem w (x ^^^ prev) win).2 x xs ++ r) = b :: s := by
      rw [← hs, encTail, List.append_assoc]
    rw [hcode] at hd
    have hback : prev ^^^ (x ^^^ prev) = x := by
      rw [Nat.xor_comm x prev, ← Nat.xor_assoc, Nat.xor_self, Nat.zero_xor]
    rw [hs, List.length_cons, decTail, hd]
    simp only [hback]
    rw [ih hx (fun y hy => hxs y (List.mem_cons_of_mem _ hy)) (encItem_fits hxor hw)]

/-! ## Lengths -/

/-- The bits of an item code are at most `2 + LZB + DB + w` (R191, R201). -/
theorem length_encItem_le {w : Width} {x : Nat} {win : Window} (hlt : x < 2 ^ w.bits) (hw : win.Fits w) :
    (encItem w x win).1.length ≤ 2 + w.leadingZeroBitlen + w.dataBitlen + w.bits := by
  unfold encItem
  split
  · simp only [List.length_singleton]
    omega
  · split
    · rename_i hre
      have := hw.resolve_left hre.2.2
      simp only [List.length_cons, length_bitsN]
      omega
    · have := Window.ofXor_sum ‹_› hlt
      simp only [List.length_cons, List.length_append, length_bitsN]
      omega

theorem length_encTail_le {w : Width} (xs : List Nat) {win : Window} {prev : Nat} (hprev : prev < 2 ^ w.bits)
    (hxs : ∀ x ∈ xs, x < 2 ^ w.bits) (hw : win.Fits w) :
    (encTail w win prev xs).length ≤ xs.length * (2 + w.leadingZeroBitlen + w.dataBitlen + w.bits) := by
  induction xs generalizing win prev with
  | nil => simp [encTail]
  | cons x xs ih =>
    have hx : x < 2 ^ w.bits := hxs x List.mem_cons_self
    have hxor : x ^^^ prev < 2 ^ w.bits := Nat.xor_lt_two_pow hx hprev
    have h1 := length_encItem_le (x := x ^^^ prev) hxor hw
    have h2 := ih hx (fun y hy => hxs y (List.mem_cons_of_mem _ hy)) (encItem_fits hxor hw)
    rw [encTail, List.length_append, List.length_cons, Nat.succ_mul]
    omega

/-- Equal words encode to one 0 bit each (R197, R214). -/
theorem encTail_replicate (w : Width) (win : Window) (x n : Nat) :
    encTail w win x (List.replicate n x) = zeros n := by
  induction n with
  | zero => rfl
  | succ n ih =>
    have hz : zeros (n + 1) = false :: zeros n := List.replicate_succ
    rw [List.replicate_succ, encTail, Nat.xor_self, hz]
    simp [encItem, ih]

/-! ## Words in memory -/

@[simp] theorem Memory.length_words (m : Memory) (a w n : Nat) : (Memory.words m a w n).length = n := by
  induction n generalizing a with
  | zero => rfl
  | succ n ih => simp [Memory.words, ih]

theorem Memory.word_lt (m : Memory) (a w : Nat) : Memory.word m a w < 2 ^ (8 * w) := by
  have := leVal_lt (Memory.bytes m a w)
  rwa [Memory.length_bytes] at this

theorem Memory.mem_words_lt {m : Memory} {a w n x : Nat} (h : x ∈ Memory.words m a w n) : x < 2 ^ (8 * w) := by
  induction n generalizing a with
  | zero => simp [Memory.words] at h
  | succ n ih =>
    rcases List.mem_cons.mp h with rfl | h
    · exact Memory.word_lt _ _ _
    · exact ih h

/-- The little-endian bytes of the words of a range are the bytes of the range (R77, R192). -/
theorem Memory.flatMap_leBytes_words (m : Memory) (a w n : Nat) :
    (Memory.words m a w n).flatMap (leBytes w) = Memory.bytes m a (n * w) := by
  induction n generalizing a with
  | zero => simp [Memory.words, Memory.bytes]
  | succ n ih =>
    have h := leBytes_leVal (Memory.bytes m a w)
    rw [Memory.length_bytes] at h
    rw [Memory.words, List.flatMap_cons, ih, Memory.word, h, Nat.succ_mul, Nat.add_comm (n * w) w,
      Memory.bytes_append]

/-! ## Commands -/

/-- Everything GOR.ENC can do (R195). -/
theorem execGorEnc_next {w : Width} {s t : State} (h : execGorEnc w s = .next t) :
    (∃ e, s.arrayAdmission = .error e ∧ t = s.raise .none e) ∨ (s.arrayAdmission = .pass ∧ t = s.gorEncode w) := by
  unfold execGorEnc at h
  split at h
  · cases h
    exact .inl ⟨_, ‹_›, rfl⟩
  · cases h
  · cases h
  · cases h
    exact .inr ⟨‹_›, rfl⟩

/-- Everything GOR.DEC can do (R204). -/
theorem execGorDec_next {w : Width} {s t : State} (h : execGorDec w s = .next t) :
    (∃ e, s.arrayAdmission = .error e ∧ t = s.raise .none e) ∨ (s.arrayAdmission = .pass ∧ t = s.gorDecode w) := by
  unfold execGorDec at h
  split at h
  · cases h
    exact .inl ⟨_, ‹_›, rfl⟩
  · cases h
  · cases h
  · cases h
    exact .inr ⟨‹_›, rfl⟩

/-- The outcomes of GOR.ENC once its checks pass (R195, R201, R202). -/
theorem State.gorEncode_cases (s : State) (w : Width) :
    (s.srcLen.toNat % w.bytes ≠ 0 ∧ s.gorEncode w = s.raise .none .length)
    ∨ (s.srcLen.toNat % w.bytes = 0 ∧ s.dstCap.toNat < (gorillaEncode w (s.srcWords w)).length
        ∧ s.gorEncode w = (s.scramble s.dstBase.toNat s.dstCap.toNat).raise .none .capacity)
    ∨ (s.srcLen.toNat % w.bytes = 0 ∧ (gorillaEncode w (s.srcWords w)).length ≤ s.dstCap.toNat
        ∧ s.gorEncode w = (s.store s.dstBase.toNat (gorillaEncode w (s.srcWords w))).deliver
            (gorillaEncode w (s.srcWords w)).length false) := by
  unfold State.gorEncode
  by_cases h1 : s.srcLen.toNat % w.bytes ≠ 0
  · exact .inl ⟨h1, if_pos h1⟩
  · by_cases h2 : s.dstCap.toNat < (gorillaEncode w (s.srcWords w)).length
    · exact .inr (.inl ⟨by simpa using h1, h2, by rw [if_neg h1, if_pos h2]⟩)
    · exact .inr (.inr ⟨by simpa using h1, by omega, by rw [if_neg h1, if_neg h2]⟩)

/-- A decode produces at most as many words as it is asked for (R206). -/
theorem decWords_length_le (w : Width) (n : Nat) (win : Window) (prev : Nat) (s : List Bool) :
    (decWords w n win prev s).length ≤ n := by
  induction n generalizing win prev s with
  | zero => simp [decWords]
  | succ n ih =>
    cases s with
    | nil => simp [decWords]
    | cons b s =>
      rw [decWords]
      split
      · simp
      · simpa using ih _ _ _

/-- A decode that succeeds gives the words produced (R206, R210). -/
theorem decWords_of_ok {w : Width} {n : Nat} {win : Window} {prev : Nat} {s : List Bool} {ys : List Nat} {short : Bool}
    (h : decTail w n win prev s = .ok (ys, short)) : decWords w n win prev s = ys := by
  induction n generalizing win prev s ys short with
  | zero => simp_all [decTail, decWords]
  | succ n ih =>
    cases s with
    | nil => simp_all [decTail, decWords]
    | cons b s =>
      rw [decTail] at h
      rw [decWords]
      split at h
      · cases h
      · split at h
        · cases h
        · rename_i ht
          simp only [Except.ok.injEq, Prod.mk.injEq] at h
          obtain ⟨rfl, rfl⟩ := h
          rw [ih ht]

/-- The words produced from a stream are at most its count (R206). -/
theorem State.length_streamWords_le {s : State} (w : Width) (h : s.streamCount ≠ 0) :
    (s.streamWords w).length ≤ s.streamCount := by
  have := decWords_length_le w (s.streamCount - 1) .initial (s.streamFirst w) (s.streamTail w)
  rw [State.streamWords, List.length_cons]
  omega

/-- Words of `W` bytes take `W` bytes each. -/
theorem length_flatMap_leBytes (w : Nat) (xs : List Nat) : (xs.flatMap (leBytes w)).length = xs.length * w := by
  simp [List.length_flatMap]

/-- The outcomes of GOR.DEC once its checks pass (R204 to R211). -/
theorem State.gorDecode_cases (s : State) (w : Width) :
    (s.srcLen.toNat < 8 ∧ s.gorDecode w = s.raise .none .corrupt)
    ∨ (8 ≤ s.srcLen.toNat ∧ s.streamCount = 0 ∧ s.gorDecode w = s.deliver 0 false)
    ∨ (8 ≤ s.srcLen.toNat ∧ s.srcLen.toNat < 8 + w.bytes ∧ s.streamCount ≠ 0
        ∧ s.gorDecode w = s.raise .none .corrupt)
    ∨ (8 + w.bytes ≤ s.srcLen.toNat ∧ s.streamCount ≠ 0 ∧ s.dstCap.toNat < s.streamCount * w.bytes
        ∧ s.gorDecode w = s.raise .none .capacity)
    ∨ (8 + w.bytes ≤ s.srcLen.toNat ∧ s.streamCount ≠ 0 ∧ s.streamCount * w.bytes ≤ s.dstCap.toNat
        ∧ ((∃ e, decTail w (s.streamCount - 1) .initial (s.streamFirst w) (s.streamTail w) = .error e
              ∧ s.gorDecode w
                = (s.storeSome s.dstBase.toNat ((s.streamWords w).flatMap (leBytes w.bytes))).raise .none e)
          ∨ (∃ xs short, decTail w (s.streamCount - 1) .initial (s.streamFirst w) (s.streamTail w) = .ok (xs, short)
              ∧ s.gorDecode w
                = (s.store s.dstBase.toNat ((s.streamFirst w :: xs).flatMap (leBytes w.bytes))).deliver
                    ((xs.length + 1) * w.bytes) short))) := by
  unfold State.gorDecode
  by_cases h1 : s.srcLen.toNat < 8
  · exact .inl ⟨h1, if_pos h1⟩
  · rw [if_neg h1]
    by_cases h2 : s.streamCount = 0
    · exact .inr (.inl ⟨by omega, h2, if_pos h2⟩)
    · rw [if_neg h2]
      by_cases h3 : s.srcLen.toNat < 8 + w.bytes
      · exact .inr (.inr (.inl ⟨by omega, h3, h2, if_pos h3⟩))
      · rw [if_neg h3]
        by_cases h4 : s.dstCap.toNat < s.streamCount * w.bytes
        · exact .inr (.inr (.inr (.inl ⟨by omega, h2, h4, if_pos h4⟩)))
        · rw [if_neg h4]
          refine .inr (.inr (.inr (.inr ⟨by omega, h2, by omega, ?_⟩)))
          split
          · exact .inl ⟨_, ‹_›, rfl⟩
          · exact .inr ⟨_, _, ‹_›, rfl⟩

/-- The errors of the decode loop (R206, R211). -/
theorem decItem_error {w : Width} {win : Window} {s : List Bool} {e : ErrorCode} (h : decItem w win s = .error e) :
    e = .underrun ∨ e = .corrupt := by
  have hv : ∀ n s' e', takeVal n s' = .error e' → e' = .underrun := by
    intro n s' e' h'
    rw [takeVal_eq] at h'
    split at h' <;> cases h'
    rfl
  have hp : ∀ win' s' e', decPayload win' s' = .error e' → e' = .underrun := by
    intro win' s' e' h'
    unfold decPayload at h'
    split at h'
    · cases h'
    · cases h'
      exact hv _ _ _ ‹_›
  unfold decItem at h
  split at h
  · cases h
    exact .inl rfl
  · cases h
  · cases h
    exact .inl rfl
  · split at h
    · cases h
      exact .inr rfl
    · exact .inl (hp _ _ _ h)
  · unfold decNewWindow at h
    split at h
    · cases h
      exact .inl (hv _ _ _ ‹_›)
    · split at h
      · cases h
        exact .inl (hv _ _ _ ‹_›)
      · split at h
        · cases h
          exact .inr rfl
        · exact .inl (hp _ _ _ h)

/-- What a successful decode loop leaves: at most as many words as asked for, and all of them unless the bits ended
(R206, R210). -/
theorem decTail_length {w : Width} {n : Nat} {win : Window} {prev : Nat} {s : List Bool} {ys : List Nat} {short : Bool}
    (h : decTail w n win prev s = .ok (ys, short)) :
    ys.length ≤ n ∧ (short = true ↔ ys.length < n) := by
  induction n generalizing win prev s ys short with
  | zero =>
    simp only [decTail, Except.ok.injEq, Prod.mk.injEq] at h
    obtain ⟨rfl, rfl⟩ := h
    simp
  | succ n ih =>
    cases s with
    | nil =>
      simp only [decTail, Except.ok.injEq, Prod.mk.injEq] at h
      obtain ⟨rfl, rfl⟩ := h
      simp
    | cons b s =>
      rw [decTail] at h
      split at h
      · cases h
      · split at h
        · cases h
        · rename_i ih'
          simp only [Except.ok.injEq, Prod.mk.injEq] at h
          obtain ⟨rfl, rfl⟩ := h
          have := ih ih'
          simp only [List.length_cons, Nat.add_le_add_iff_right, Nat.add_lt_add_iff_right]
          exact this

theorem decTail_error {w : Width} {n : Nat} {win : Window} {prev : Nat} {s : List Bool} {e : ErrorCode}
    (h : decTail w n win prev s = .error e) : e = .underrun ∨ e = .corrupt := by
  induction n generalizing win prev s with
  | zero => simp [decTail] at h
  | succ n ih =>
    cases s with
    | nil => simp [decTail] at h
    | cons b s =>
      rw [decTail] at h
      split at h
      · cases h
        exact decItem_error ‹_›
      · split at h
        · cases h
          exact ih ‹_›
        · cases h

end Sys2Proof.Machine
end

