-- ==== Sys2Proof/Laws/Commands.lean ====
section
/-! SUPPORT. What the commands that name a source and a destination range have in common (20_memory.md R71). -/

namespace Sys2Proof.Machine

open Sys2Proof

/-! ## Gorilla and BSS commands -/

/-- Everything a Gorilla or BSS command can do: an error that leaves memory as it was, an error that leaves bytes of the
destination range unspecified or stores some of the output there, or output stored at DST_BASE inside the range (R202, R210,
R211, R240, R242). -/
theorem exec_array_next {i : Instr} {s t : State} (hi : i.isArray = true) (ht : exec i s = .next t) :
    (∃ e, t = s.raise .none e) ∨ (∃ e n, n ≤ s.dstCap.toNat ∧ t = (s.scramble s.dstBase.toNat n).raise .none e)
    ∨ (∃ e bs, bs.length ≤ s.dstCap.toNat ∧ t = (s.storeSome s.dstBase.toNat bs).raise .none e)
    ∨ ∃ bs sh, bs.length ≤ s.dstCap.toNat ∧ t = (s.store s.dstBase.toNat bs).deliver bs.length sh := by
  cases i with
  | gorEnc w =>
    rcases execGorEnc_next ht with ⟨e, h, rfl⟩ | ⟨hp, rfl⟩
    · exact .inl ⟨_, rfl⟩
    · rcases s.gorEncode_cases w with ⟨_, e⟩ | ⟨_, _, e⟩ | ⟨_, hl, e⟩ <;> rw [e]
      · exact .inl ⟨_, rfl⟩
      · exact .inr (.inl ⟨_, _, Nat.le_refl _, rfl⟩)
      · exact .inr (.inr (.inr ⟨_, _, hl, rfl⟩))
  | gorDec w =>
    rcases execGorDec_next ht with ⟨e, h, rfl⟩ | ⟨hp, rfl⟩
    · exact .inl ⟨_, rfl⟩
    · rcases s.gorDecode_cases w with ⟨_, e⟩ | ⟨_, _, e⟩ | ⟨_, _, _, e⟩ | ⟨_, _, _, e⟩ | ⟨hL, h0, hl, ⟨e', he', e⟩ | ⟨xs, sh, hx, e⟩⟩ <;> rw [e]
      · exact .inl ⟨_, rfl⟩
      · exact .inr (.inr (.inr ⟨[], false, by simp, rfl⟩))
      · exact .inl ⟨_, rfl⟩
      · exact .inl ⟨_, rfl⟩
      · refine .inr (.inr (.inl ⟨_, _, ?_, rfl⟩))
        rw [length_flatMap_leBytes]
        exact (Nat.mul_le_mul_right _ (s.length_streamWords_le w h0)).trans hl
      · have := (decTail_length hx).1
        have hm : (xs.length + 1) * w.bytes ≤ s.streamCount * w.bytes := Nat.mul_le_mul_right _ (by omega)
        have hlen : ((s.streamFirst w :: xs).flatMap (leBytes w.bytes)).length = (xs.length + 1) * w.bytes := by
          simp [List.length_flatMap, Nat.add_mul, Nat.add_comm]
        exact .inr (.inr (.inr ⟨_, sh, by rw [hlen]; omega, by rw [hlen]⟩))
  | bssEnc w =>
    rcases execBssEnc_next ht with ⟨e, h, rfl⟩ | ⟨hp, rfl⟩
    · exact .inl ⟨_, rfl⟩
    · rcases s.bssMove_cases w (bssSplit w.bytes) with ⟨_, e⟩ | ⟨_, _, e⟩ | ⟨hm, hl, e⟩ <;> rw [e]
      · exact .inl ⟨_, rfl⟩
      · exact .inl ⟨_, rfl⟩
      · have hlen : (bssSplit w.bytes (s.srcLen.toNat / w.bytes) s.srcBytes).length = s.srcLen.toNat := by
          simp; exact Nat.mul_div_cancel' (Nat.dvd_of_mod_eq_zero hm)
        exact .inr (.inr (.inr ⟨_, false, by rw [hlen]; exact hl, by rw [hlen]⟩))
  | bssDec w =>
    rcases execBssDec_next ht with ⟨e, h, rfl⟩ | ⟨hp, rfl⟩
    · exact .inl ⟨_, rfl⟩
    · rcases s.bssMove_cases w (bssJoin w.bytes) with ⟨_, e⟩ | ⟨_, _, e⟩ | ⟨hm, hl, e⟩ <;> rw [e]
      · exact .inl ⟨_, rfl⟩
      · exact .inl ⟨_, rfl⟩
      · have hlen : (bssJoin w.bytes (s.srcLen.toNat / w.bytes) s.srcBytes).length = s.srcLen.toNat := by
          simp; exact Nat.div_mul_cancel (Nat.dvd_of_mod_eq_zero hm)
        exact .inr (.inr (.inr ⟨_, false, by rw [hlen]; exact hl, by rw [hlen]⟩))
  | _ => simp [Instr.isArray] at hi

end Sys2Proof.Machine
end

