-- ==== Sys2Proof/Laws/Encoding.lean ====
section
/-! SUPPORT. The fields of a command word, and what each shape of decoding can answer (30_encoding.md R100 to R107). -/

namespace Sys2Proof

theorem legalCount_iff (n : BitVec 7) : legalCount n = true ↔ 1 ≤ n.toNat ∧ n.toNat ≤ 64 := by simp [legalCount]

theorem Width.code_ofCode (b : BitVec 2) : (Width.ofCode b).code = b := by revert b; decide

theorem Width.ofCode_code (w : Width) : Width.ofCode w.code = w := by cases w <;> rfl

/-- A value whose reserved bits are 0 is the command word of its fields (R100). -/
theorem eq_commandWord {c : Word} (h : reservedClear c = true) :
    c = commandWord (opcField c) (widthField c) (countField c) := by
  simp only [reservedClear, Bool.and_eq_true, beq_iff_eq] at h
  obtain ⟨⟨h1, h2⟩, h3⟩ := h
  have bit : ∀ {lo n : Nat}, c.extractLsb' lo n = 0 → ∀ i, lo ≤ i → i < lo + n → c.getLsbD i = false := by
    intro lo n h i hlo hhi
    have := congrArg (fun b => b.getLsbD (i - lo)) h
    simpa [show i - lo < n by omega, show lo + (i - lo) = i by omega] using this
  apply BitVec.eq_of_getLsbD_eq
  intro i hi
  simp only [commandWord, opcField, widthField, countField, BitVec.getLsbD_append, BitVec.getLsbD_extractLsb',
    BitVec.getLsbD_zero]
  by_cases a1 : i < 8
  · simp [a1]
  by_cases a2 : i < 10
  · simp [a1, show i - 8 < 2 by omega, show 8 + (i - 8) = i by omega]
  by_cases a3 : i < 16
  · simp [a1, show ¬i - 8 < 2 by omega, show i - 8 - 2 < 6 by omega, bit h1 i (by omega) (by omega)]
  by_cases a4 : i < 23
  · simp [a1, show ¬i - 8 < 2 by omega, show ¬i - 8 - 2 < 6 by omega, show i - 8 - 2 - 6 < 7 by omega,
      show 16 + (i - 8 - 2 - 6) = i by omega]
  have hz : c.getLsbD i = false := by
    by_cases a5 : i < 32
    · exact bit h2 i (by omega) (by omega)
    · exact bit h3 i (by omega) (by omega)
  simp [a1, show ¬i - 8 < 2 by omega, show ¬i - 8 - 2 < 6 by omega, show ¬i - 8 - 2 - 6 < 7 by omega, hz]

theorem plainCommand_ok {c : Word} {i j : Instr} (h : plainCommand c i = .ok j) :
    j = i ∧ countField c = 0 ∧ widthField c = 0 := by
  unfold plainCommand at h
  split at h <;> simp_all

theorem countedCommand_ok {c : Word} {k : BitVec 7 → Instr} {j : Instr} (h : countedCommand c k = .ok j) :
    j = k (countField c) ∧ legalCount (countField c) = true ∧ widthField c = 0 := by
  unfold countedCommand at h
  split at h
  · split at h <;> simp_all
  · simp at h

theorem sizedCommand_ok {c : Word} {k : Width → Instr} {j : Instr} (h : sizedCommand c k = .ok j) :
    j = k (Width.ofCode (widthField c)) ∧ countField c = 0 := by
  unfold sizedCommand at h
  split at h <;> simp_all

end Sys2Proof
end

