-- ==== Sys2Proof/Laws/PerInstr.lean ====
section
/-! SUPPORT. Statements made once per constructor of Instr. -/

namespace Sys2Proof.Laws.EncodeMatchesRow

open Sys2Proof

/-- The encoding of a well-formed command spells the command's row of the match and mask table (R107, R112). -/
def Statement (i : Instr) : Prop := i.wellFormed = true → i.row.spells (encode i) = true

theorem brInit : Statement .brInit := fun _ => rfl
theorem brRead (n : BitVec 7) : Statement (.brRead n) := by
  revert n
  unfold Statement
  decide
theorem brReadbit : Statement .brReadbit := fun _ => rfl
theorem brPeek : Statement .brPeek := fun _ => rfl
theorem brEof : Statement .brEof := fun _ => rfl
theorem brCount : Statement .brCount := fun _ => rfl
theorem brRemain : Statement .brRemain := fun _ => rfl
theorem brRelease : Statement .brRelease := fun _ => rfl
theorem bwInit : Statement .bwInit := fun _ => rfl
theorem bwWrite (n : BitVec 7) : Statement (.bwWrite n) := by
  revert n
  unfold Statement
  decide
theorem bwFlush : Statement .bwFlush := fun _ => rfl
theorem bwCount : Statement .bwCount := fun _ => rfl
theorem bwRelease : Statement .bwRelease := fun _ => rfl
theorem gorEnc (w : Width) : Statement (.gorEnc w) := by cases w <;> exact fun _ => rfl
theorem gorDec (w : Width) : Statement (.gorDec w) := by cases w <;> exact fun _ => rfl
theorem bssEnc (w : Width) : Statement (.bssEnc w) := by cases w <;> exact fun _ => rfl
theorem bssDec (w : Width) : Statement (.bssDec w) := by cases w <;> exact fun _ => rfl

end Sys2Proof.Laws.EncodeMatchesRow
end

