-- ==== Sys2Proof/Laws/Reader.lean ====
section
/-! SUPPORT. What each BitReader operation can do (41_bitreader.md), and the bits a reader returns. -/

namespace Sys2Proof.Machine

open Sys2Proof

/-! ## Readiness -/

theorem State.brReady_eq_none_iff (s : State) : s.brReady = none ↔ s.br.bound = true ∧ s.br.fault = false := by
  unfold State.brReady
  cases s.br.bound <;> cases s.br.fault <;> simp

theorem State.brReady_of_ready {s : State} (hb : s.br.bound = true) (hf : s.br.fault = false) : s.brReady = none :=
  (State.brReady_eq_none_iff s).mpr ⟨hb, hf⟩

/-- The errors of a reader that is not ready (R131). -/
theorem State.brReady_eq_some_iff (s : State) (e : ErrorCode) :
    s.brReady = some e ↔
      (s.br.bound = false ∧ e = .unbound) ∨ (s.br.bound = true ∧ s.br.fault = true ∧ e = .faulted) := by
  unfold State.brReady
  cases s.br.bound <;> cases s.br.fault <;> simp [eq_comm]

/-! ## Operations -/

/-- Everything a read can do (R132): it is turned away, it runs out of bits, or it takes them. -/
theorem State.brTake_next {s t : State} {n : Nat} (h : s.brTake n = .next t) :
    (∃ e, s.brReady = some e ∧ t = s.raise .none e)
    ∨ (s.brReady = none ∧ s.br.remaining < n ∧ t = s.raise .reader .underrun)
    ∨ (s.brReady = none ∧ n ≤ s.br.remaining
        ∧ t = ({ s.spend n with
                 br := { s.br with pos := BitVec.ofNat 64 (s.br.pos.toNat + n) } }.answer (s.nextBits n))) := by
  unfold State.brTake at h
  split at h
  · cases h
    exact .inl ⟨_, ‹_›, rfl⟩
  · split at h
    · cases h
      exact .inr (.inl ⟨‹_›, ‹_›, rfl⟩)
    · cases h
      exact .inr (.inr ⟨‹_›, by omega, rfl⟩)

/-- Everything a command that reports a value of the reader can do (R137 to R139). -/
theorem State.brReport_next {s t : State} {v : Word} (h : s.brReport v = .next t) :
    (∃ e, s.brReady = some e ∧ t = s.raise .none e) ∨ (s.brReady = none ∧ t = s.answer v) := by
  unfold State.brReport at h
  split at h
  · cases h
    exact .inl ⟨_, ‹_›, rfl⟩
  · cases h
    exact .inr ⟨‹_›, rfl⟩

/-- Everything BR.INIT can do (R133). -/
theorem execBrInit_next {s t : State} (h : execBrInit s = .next t) :
    (∃ e, s.platform.admitOne s.srcBase s.srcLen = .error e ∧ t = s.raise .none e)
    ∨ (s.platform.admitOne s.srcBase s.srcLen = .pass
        ∧ t = { s with
                br := { bound := true, fault := false, base := s.srcBase, len := s.srcLen, pos := 0 }
                ms := { s.ms with stale := [] } }.complete) := by
  unfold execBrInit at h
  split at h
  · cases h
    exact .inl ⟨_, ‹_›, rfl⟩
  · cases h
  · cases h
  · cases h
    exact .inr ⟨‹_›, rfl⟩

/-- Everything BR.READ can do (R134). -/
theorem execBrRead_next {s t : State} {n : BitVec 7} (h : execBrRead n s = .next t) :
    (legalCount n = false ∧ t = s.raise .none .illegal) ∨ (legalCount n = true ∧ s.brTake n.toNat = .next t) := by
  unfold execBrRead at h
  split at h
  · exact .inr ⟨‹_›, h⟩
  · cases h
    exact .inl ⟨by simpa using ‹¬legalCount n = true›, rfl⟩

/-- Everything BR.PEEK can do (R136). -/
theorem execBrPeek_next {s t : State} (h : execBrPeek s = .next t) :
    (∃ e, s.brReady = some e ∧ t = s.raise .none e)
    ∨ (s.brReady = none ∧ s.br.remaining < 8 ∧ t = s.raise .reader .underrun)
    ∨ (s.brReady = none ∧ 8 ≤ s.br.remaining ∧ t = (s.spend 8).answer (s.nextBits 8)) := by
  unfold execBrPeek at h
  split at h
  · cases h
    exact .inl ⟨_, ‹_›, rfl⟩
  · split at h
    · cases h
      exact .inr (.inl ⟨‹_›, ‹_›, rfl⟩)
    · cases h
      exact .inr (.inr ⟨‹_›, by omega, rfl⟩)

/-! ## The bits a reader returns -/

theorem testBit_eq_getElem_bitsN (n v k : Nat) (h : k < n) : (bitsN n v)[k]? = some (v.testBit (n - 1 - k)) := by
  induction n generalizing k with
  | zero => omega
  | succ n ih =>
    cases k with
    | zero => simp [bitsN]
    | succ k =>
      rw [bitsN, List.getElem?_cons_succ, ih k (by omega)]
      congr 2
      omega

theorem getElem?_stream (bs : List Byte) (k : Nat) :
    (stream bs)[k]? = (bs[k / 8]?).map fun b => b.getLsbD (7 - k % 8) := by
  induction bs generalizing k with
  | nil => simp [stream]
  | cons b bs ih =>
    have hs : stream (b :: bs) = bitsN 8 b.toNat ++ stream bs := by simp [stream]
    rw [hs]
    by_cases h : k < 8
    · rw [List.getElem?_append_left (by simpa using h), testBit_eq_getElem_bitsN _ _ _ h,
        Nat.div_eq_of_lt h, Nat.mod_eq_of_lt h]
      simp [BitVec.getLsbD]
    · rw [List.getElem?_append_right (by simpa using h), length_bitsN, ih]
      have h1 : k / 8 = (k - 8) / 8 + 1 := by omega
      have h2 : k % 8 = (k - 8) % 8 := by omega
      rw [h1, h2, List.getElem?_cons_succ]

/-- Bit `k` of the stream of a range of memory (R17, R52). -/
theorem getElem?_stream_bytes (m : Memory) (a n k : Nat) (h : k < 8 * n) :
    (stream (Memory.bytes m a n))[k]? = some (Memory.streamBit m a k) := by
  rw [getElem?_stream, Memory.getElem?_bytes, if_pos (by omega)]
  rfl

@[simp] theorem State.length_readerBits (s : State) (k draw n : Nat) : (s.readerBits k draw n).length = n := by
  induction n generalizing k draw with
  | zero => rfl
  | succ n ih => simp [State.readerBits, ih]

theorem State.getElem?_readerBits (s : State) (k draw n j : Nat) (h : j < n) :
    (s.readerBits k draw n)[j]? = some (s.readerBit (k + j) (draw + j)) := by
  induction n generalizing k draw j with
  | zero => omega
  | succ n ih =>
    cases j with
    | zero => simp [State.readerBits]
    | succ j =>
      rw [State.readerBits, List.getElem?_cons_succ, ih _ _ j (by omega)]
      congr 2 <;> omega

/-- A reader none of whose source has been written since BR.INIT returns the substring of its stream (R52, R130). -/
theorem State.readerBits_of_clean {s : State} (hs : s.ms.stale = []) (draw n : Nat) {k : Nat}
    (hk : k + n ≤ 8 * s.br.len.toNat) :
    s.readerBits k draw n
      = ((stream (Memory.bytes s.ms.cells s.br.base.toNat s.br.len.toNat)).drop k).take n := by
  apply List.ext_getElem?
  intro j
  by_cases h : j < n
  · rw [State.getElem?_readerBits _ _ _ _ _ h, List.getElem?_take_of_lt h, List.getElem?_drop,
      getElem?_stream_bytes _ _ _ _ (by omega)]
    simp [State.readerBit, hs]
  · rw [List.getElem?_eq_none (by simpa using h), List.getElem?_eq_none]
    rw [List.length_take]
    omega

end Sys2Proof.Machine
end

