-- ==== Sys2Proof/Laws/Writer.lean ====
section
/-! SUPPORT. What each BitWriter operation can do (42_bitwriter.md). -/

namespace Sys2Proof.Machine

open Sys2Proof

/-! ## Readiness -/

theorem State.bwReady_eq_none_iff (s : State) : s.bwReady = none ↔ s.bw.bound = true ∧ s.bw.fault = false := by
  unfold State.bwReady
  cases s.bw.bound <;> cases s.bw.fault <;> simp

theorem State.bwReady_of_ready {s : State} (hb : s.bw.bound = true) (hf : s.bw.fault = false) : s.bwReady = none :=
  (State.bwReady_eq_none_iff s).mpr ⟨hb, hf⟩

/-- The errors of a writer that is not ready (R161). -/
theorem State.bwReady_eq_some_iff (s : State) (e : ErrorCode) :
    s.bwReady = some e ↔
      (s.bw.bound = false ∧ e = .unbound) ∨ (s.bw.bound = true ∧ s.bw.fault = true ∧ e = .faulted) := by
  unfold State.bwReady
  cases s.bw.bound <;> cases s.bw.fault <;> simp [eq_comm]

/-! ## The flush -/

/-- A flush leaves `ceil8` of the writer's bits as whole bytes (R161). -/
theorem BitWriter.length_padded (bw : BitWriter) : bw.padded.length = 8 * ceil8 bw.bits.length := by
  rw [BitWriter.padded, List.length_append, length_zeros, padLen_add]

theorem BitWriter.length_padded_div (bw : BitWriter) : bw.padded.length / 8 = ceil8 bw.bits.length := by
  rw [BitWriter.length_padded]
  omega

/-- The bytes a flush makes final are `pack` of the bits before the pad (R17, R161). -/
theorem BitWriter.pack_padded (bw : BitWriter) : pack bw.padded = pack bw.bits := Machine.pack_padded _

theorem State.bwFlush_final (s : State) : s.bwFlush.bw.final = BitVec.ofNat 64 (ceil8 s.bw.bits.length) := by
  rw [State.bwFlush_bw, BitWriter.length_padded_div]

theorem State.bwFlush_ms (s : State) :
    s.bwFlush.ms = { MemSystem.flushBytes s.br s.bw s.ms s.bw.final.toNat ((pack s.bw.bits).drop s.bw.final.toNat) with
                     drained := [] } := by
  rw [← BitWriter.pack_padded]
  rfl

/-- A flush writes at most the bytes not yet final (R161). -/
theorem State.bwFlush_touches (s : State) :
    s.ms.TouchesOnly s.bwFlush.ms (s.bw.base.toNat + s.bw.final.toNat)
      (s.bw.base.toNat + s.bw.final.toNat + (ceil8 s.bw.bits.length - s.bw.final.toNat)) := by
  have h := MemSystem.flushBytes_touches s.br s.bw s.ms s.bw.final.toNat ((pack s.bw.bits).drop s.bw.final.toNat)
  rw [List.length_drop, length_pack] at h
  rw [State.bwFlush_ms]
  exact ⟨h.read, h.wf, h.keys, h.others⟩

/-- What a byte that a flush makes final reads as: the writer's byte, or, where the writer had stored it before, what memory
held (R161, R303). -/
theorem State.bwFlush_byteAt (s : State) {k : Nat} (hlo : s.bw.final.toNat ≤ k) (hhi : k < ceil8 s.bw.bits.length) :
    some (s.bwFlush.byteAt (s.bw.base.toNat + k))
      = if k ∈ s.ms.drained then some (s.byteAt (s.bw.base.toNat + k)) else (pack s.bw.bits)[k]? := by
  have h := MemSystem.flushBytes_read s.br s.bw s.ms s.bw.final.toNat ((pack s.bw.bits).drop s.bw.final.toNat)
    (k - s.bw.final.toNat) (by rw [List.length_drop, length_pack]; omega)
  rw [List.getElem?_drop, show s.bw.base.toNat + s.bw.final.toNat + (k - s.bw.final.toNat) = s.bw.base.toNat + k by omega,
    show s.bw.final.toNat + (k - s.bw.final.toNat) = k by omega] at h
  rw [State.byteAt, State.bwFlush_ms]
  exact h

/-! ## Early stores -/

/-- The whole bytes of the writer that are not yet final. -/
theorem State.bwDrain_ms (s : State) :
    s.bwDrain.ms = MemSystem.drain s.br s.bw s.ms s.bw.final.toNat
      (((pack s.bw.bits).take (s.bw.bits.length / 8)).drop s.bw.final.toNat) := rfl

theorem length_wholeBytes (bits : List Bool) (k : Nat) :
    (((pack bits).take (bits.length / 8)).drop k).length = bits.length / 8 - k := by
  rw [List.length_drop, List.length_take, length_pack]
  unfold ceil8
  omega

/-- Before a flush the writer stores at most whole bytes that are not yet final (R84). -/
theorem State.bwDrain_touches (s : State) :
    s.ms.TouchesOnly s.bwDrain.ms (s.bw.base.toNat + s.bw.final.toNat)
      (s.bw.base.toNat + s.bw.final.toNat + (s.bw.bits.length / 8 - s.bw.final.toNat)) := by
  have h := MemSystem.drain_touches s.br s.bw s.ms s.bw.final.toNat
    (((pack s.bw.bits).take (s.bw.bits.length / 8)).drop s.bw.final.toNat)
  rwa [length_wholeBytes] at h

/-! ## Commands -/

/-- Everything BW.INIT can do (R162). -/
theorem execBwInit_next {s t : State} (h : execBwInit s = .next t) :
    (∃ e, s.platform.admitOne s.dstBase s.dstCap = .error e ∧ t = s.raise .none e)
    ∨ (s.platform.admitOne s.dstBase s.dstCap = .pass
        ∧ t = { s.bwSettle with
                bw := { bound := true, fault := false, base := s.dstBase, cap := s.dstCap,
                        bits := [], user := 0, final := 0 }
                ms := { s.bwSettle.ms with drained := [] } }.complete) := by
  unfold execBwInit at h
  split at h
  · cases h
    exact .inl ⟨_, ‹_›, rfl⟩
  · cases h
  · cases h
  · cases h
    exact .inr ⟨‹_›, rfl⟩

/-- Everything BW.WRITE can do (R163). -/
theorem execBwWrite_next {s t : State} {n : BitVec 7} (h : execBwWrite n s = .next t) :
    (legalCount n = false ∧ t = s.raise .none .illegal)
    ∨ (legalCount n = true ∧ ∃ e, s.bwReady = some e ∧ t = s.raise .none e)
    ∨ (legalCount n = true ∧ s.bwReady = none ∧ 8 * s.bw.cap.toNat < s.bw.bits.length + n.toNat
        ∧ t = (s.raise .writer .capacity).scramble (s.bw.base.toNat + s.bw.final.toNat)
                (s.bw.cap.toNat - s.bw.final.toNat))
    ∨ (legalCount n = true ∧ s.bwReady = none ∧ s.bw.bits.length + n.toNat ≤ 8 * s.bw.cap.toNat
        ∧ t = (s.bwAppend n.toNat).bwDrain.complete) := by
  unfold execBwWrite at h
  split at h
  · split at h
    · cases h
      exact .inr (.inl ⟨‹_›, _, ‹_›, rfl⟩)
    · split at h
      · cases h
        exact .inr (.inr (.inl ⟨‹_›, ‹_›, ‹_›, rfl⟩))
      · cases h
        exact .inr (.inr (.inr ⟨‹_›, ‹_›, by omega, rfl⟩))
  · cases h
    exact .inl ⟨by simpa using ‹¬legalCount n = true›, rfl⟩

/-- Everything BW.FLUSH can do (R164). -/
theorem execBwFlush_next {s t : State} (h : execBwFlush s = .next t) :
    (∃ e, s.bwReady = some e ∧ t = s.raise .none e)
    ∨ (s.bwReady = none ∧ t = s.bwFlush.deliver s.bwFlush.bw.final.toNat false) := by
  unfold execBwFlush at h
  split at h
  · cases h
    exact .inl ⟨_, ‹_›, rfl⟩
  · cases h
    exact .inr ⟨‹_›, rfl⟩

/-- Everything BW.COUNT can do (R165). -/
theorem execBwCount_next {s t : State} (h : execBwCount s = .next t) :
    (∃ e, s.bwReady = some e ∧ t = s.raise .none e)
    ∨ (s.bwReady = none
        ∧ t = s.answer (if Config.bwCountPad then BitVec.ofNat 64 s.bw.bits.length else s.bw.user)) := by
  unfold execBwCount at h
  split at h
  · cases h
    exact .inl ⟨_, ‹_›, rfl⟩
  · cases h
    exact .inr ⟨‹_›, rfl⟩

/-- The end of a binding flushes a writer that is ready and no other (R162, R166). -/
theorem State.bwSettle_eq (s : State) :
    (s.bw.bound = true ∧ s.bw.fault = false ∧ s.bwSettle = s.bwFlush)
      ∨ (¬(s.bw.bound = true ∧ s.bw.fault = false) ∧ s.bwSettle = s) := by
  unfold State.bwSettle
  cases s.bw.bound <;> cases s.bw.fault <;> simp

theorem State.bwSettle_br (s : State) : s.bwSettle.br = s.br := by
  rcases s.bwSettle_eq with ⟨_, _, h⟩ | ⟨_, h⟩ <;> rw [h]
  rfl

end Sys2Proof.Machine
end

