-- ==== Sys2Proof/Laws/Records.lean ====
section
/-! SUPPORT. The record of written source bytes (70_reset_and_hazards.md R300, R301): what a command writes, it records for every
bound reader over the byte, its own instance's and every other's. -/

namespace Sys2Proof.Machine

open Sys2Proof

/-- From `m` to `m'`, every byte that changed is recorded for the reader `br` and for the reader of every other instance, no
record was dropped, and the other instances were kept. -/
structure MemSystem.Records (br : BitReader) (m m' : MemSystem) : Prop where
  own : ∀ x, Memory.read m'.cells x ≠ Memory.read m.cells x → br.covers x = true → x - br.base.toNat ∈ m'.stale
  other : ∀ x, Memory.read m'.cells x ≠ Memory.read m.cells x →
    ∀ q ∈ m'.others, q.br.covers x = true → x - q.br.base.toNat ∈ q.stale
  mono : ∀ k ∈ m.stale, k ∈ m'.stale
  kept : List.Forall₂ Block.KeptBy m.others m'.others

namespace MemSystem.Records

theorem of_same {br : BitReader} {m m' : MemSystem} (hc : m'.cells = m.cells) (hs : m'.stale = m.stale)
    (ho : m'.others = m.others) : m.Records br m' :=
  ⟨fun _ h => absurd (by rw [hc]) h, fun _ h => absurd (by rw [hc]) h, fun _ h => hs ▸ h,
    ho ▸ List.forall₂_same.mpr fun p _ => .refl p⟩

theorem kept_stale {ps qs : List Block} (h : List.Forall₂ Block.KeptBy ps qs) {q : Block} (hq : q ∈ qs) :
    ∃ p ∈ ps, p.br = q.br ∧ ∀ k ∈ p.stale, k ∈ q.stale := by
  induction h with
  | nil => cases hq
  | cons hk _ ih =>
    rcases List.mem_cons.mp hq with rfl | hq
    · exact ⟨_, .head _, (congrArg Block.br hk.registers).symm, hk.stale⟩
    · obtain ⟨p, hp, h⟩ := ih hq
      exact ⟨p, .tail _ hp, h⟩

theorem trans {br : BitReader} {m m' m'' : MemSystem} (h : m.Records br m') (h' : m'.Records br m'') :
    m.Records br m'' := by
  refine ⟨fun x hx hc => ?_, fun x hx q hq hc => ?_, fun k hk => h'.mono k (h.mono k hk),
    Block.KeptBy.trans_all h.kept h'.kept⟩
  · by_cases he : Memory.read m''.cells x = Memory.read m'.cells x
    · exact h'.mono _ (h.own x (he ▸ hx) hc)
    · exact h'.own x he hc
  · by_cases he : Memory.read m''.cells x = Memory.read m'.cells x
    · obtain ⟨p, hp, hb, hk⟩ := kept_stale h'.kept hq
      exact hb ▸ hk _ (h.other x (he ▸ hx) p hp (hb ▸ hc))
    · exact h'.other x he q hq hc

/-- A write of one byte. -/
theorem of_write {br : BitReader} {m m' : MemSystem} {a draw : Nat} {b : Byte}
    (hc : m'.cells = Memory.write m.cells a b ∨ m'.cells = m.cells) (hs : m'.stale = br.noteWrite a m.stale)
    (ho : m'.others = noteWrites a draw m.others) : m.Records br m' := by
  have hne : ∀ x, Memory.read m'.cells x ≠ Memory.read m.cells x → x = a := by
    intro x hx
    by_contra hxa
    rcases hc with hc | hc
    · exact hx (by rw [hc, Memory.read_write_ne hxa])
    · exact hx (by rw [hc])
  refine ⟨fun x hx h => ?_, fun x hx q hq h => ?_, fun k hk => ?_, ho ▸ keptBy_noteWrites _ _ _⟩
  · cases hne x hx
    exact hs ▸ BitReader.mem_noteWrite_self h
  · cases hne x hx
    exact stale_noteWrites (ho ▸ hq) h
  · exact hs ▸ BitReader.mem_noteWrite_of_mem hk

theorem putForeign (br : BitReader) (bw : BitWriter) (m : MemSystem) (a : Nat) (b : Byte) :
    m.Records br (m.putForeign br bw a b) := of_write (.inl rfl) rfl rfl

theorem putAll (br : BitReader) (bw : BitWriter) (m : MemSystem) (a : Nat) (bs : List Byte) :
    m.Records br (MemSystem.putAll br bw m a bs) := by
  induction bs generalizing m a with
  | nil => exact of_same rfl rfl rfl
  | cons b bs ih => exact (putForeign br bw m a b).trans (ih _ _)

theorem scramble (br : BitReader) (bw : BitWriter) (m : MemSystem) (a n : Nat) :
    m.Records br (MemSystem.scramble br bw m a n) := by
  induction n generalizing m a with
  | zero => exact of_same rfl rfl rfl
  | succ n ih =>
    exact .trans (m' := { m with draws := m.draws + 1 }) (of_same rfl rfl rfl) ((putForeign br bw _ a _).trans (ih _ _))

theorem putSome (br : BitReader) (bw : BitWriter) (m : MemSystem) (a : Nat) (bs : List Byte) :
    m.Records br (MemSystem.putSome br bw m a bs) := by
  induction bs generalizing m a with
  | nil => exact of_same rfl rfl rfl
  | cons b bs ih =>
    refine .trans (m' := { m with draws := m.draws + 1 }) (of_same rfl rfl rfl) (.trans ?_ (ih _ _))
    split
    · exact putForeign br bw _ a b
    · exact of_same rfl rfl rfl

theorem drain (br : BitReader) (bw : BitWriter) (m : MemSystem) (k : Nat) (bs : List Byte) :
    m.Records br (MemSystem.drain br bw m k bs) := by
  induction bs generalizing m k with
  | nil => exact of_same rfl rfl rfl
  | cons b bs ih =>
    refine .trans ?_ (ih _ _)
    unfold MemSystem.drainByte
    split
    · exact of_same rfl rfl rfl
    · split
      · exact of_write (a := bw.base.toNat + k) (b := b) (.inl rfl) rfl rfl
      · exact of_same rfl rfl rfl

theorem flushBytes (br : BitReader) (bw : BitWriter) (m : MemSystem) (k : Nat) (bs : List Byte) :
    m.Records br (MemSystem.flushBytes br bw m k bs) := by
  induction bs generalizing m k with
  | nil => exact of_same rfl rfl rfl
  | cons b bs ih =>
    refine .trans (of_write (a := bw.base.toNat + k) (b := b) ?_ rfl rfl) (ih _ _)
    by_cases h : m.drained.contains k
    · exact .inr (by rw [MemSystem.flushByte, if_pos h])
    · exact .inl (by rw [MemSystem.flushByte, if_neg h])

theorem bwSettle (s : State) : s.ms.Records s.br s.bwSettle.ms := by
  rcases s.bwSettle_eq with ⟨_, _, h⟩ | ⟨_, h⟩ <;> rw [h]
  · exact (flushBytes s.br s.bw s.ms _ _).trans (of_same rfl rfl rfl)
  · exact of_same rfl rfl rfl

theorem brTake {s t : State} {n : Nat} (h : s.brTake n = .next t) : s.ms.Records s.br t.ms := by
  rcases s.brTake_next h with ⟨e, _, rfl⟩ | ⟨_, _, rfl⟩ | ⟨_, _, rfl⟩ <;> exact of_same rfl rfl rfl

theorem brReport {s t : State} {v : Word} (h : s.brReport v = .next t) : s.ms.Records s.br t.ms := by
  rcases s.brReport_next h with ⟨e, _, rfl⟩ | ⟨_, rfl⟩ <;> exact of_same rfl rfl rfl

end MemSystem.Records

/-- Every command but BR.INIT and BR.RELEASE records what it changes of memory (R300, R301). -/
theorem exec_records {i : Instr} {s t : State} (h : exec i s = .next t) (hi : i ≠ .brInit) (hr : i ≠ .brRelease) :
    s.ms.Records s.br t.ms := by
  by_cases ha : i.isArray = true
  · rcases exec_array_next ha h with ⟨e, rfl⟩ | ⟨e, n, _, rfl⟩ | ⟨e, bs, _, rfl⟩ | ⟨bs, sh, _, rfl⟩
    · exact .of_same rfl rfl rfl
    · exact .scramble s.br s.bw s.ms _ _
    · exact .putSome s.br s.bw s.ms _ _
    · exact .putAll s.br s.bw s.ms _ _
  · cases i with
    | brInit => exact absurd rfl hi
    | brRelease => exact absurd rfl hr
    | brRead n =>
      rcases execBrRead_next h with ⟨_, rfl⟩ | ⟨_, h⟩
      · exact .of_same rfl rfl rfl
      · exact .brTake h
    | brReadbit => exact .brTake h
    | brPeek =>
      rcases execBrPeek_next h with ⟨e, _, rfl⟩ | ⟨_, _, rfl⟩ | ⟨_, _, rfl⟩ <;> exact .of_same rfl rfl rfl
    | brEof => exact .brReport h
    | brCount => exact .brReport h
    | brRemain => exact .brReport h
    | bwInit =>
      rcases execBwInit_next h with ⟨e, _, rfl⟩ | ⟨_, rfl⟩
      · exact .of_same rfl rfl rfl
      · exact (MemSystem.Records.bwSettle s).trans (.of_same rfl rfl rfl)
    | bwWrite n =>
      rcases execBwWrite_next h with ⟨_, rfl⟩ | ⟨_, e, _, rfl⟩ | ⟨_, _, _, rfl⟩ | ⟨_, _, _, rfl⟩
      · exact .of_same rfl rfl rfl
      · exact .of_same rfl rfl rfl
      · exact .trans (m' := { s.ms with drained := [] }) (.of_same rfl rfl rfl) (.scramble _ _ _ _ _)
      · exact .drain s.br (s.bwAppend n.toNat).bw s.ms _ _
    | bwFlush =>
      rcases execBwFlush_next h with ⟨e, _, rfl⟩ | ⟨_, rfl⟩
      · exact .of_same rfl rfl rfl
      · exact (MemSystem.Records.flushBytes s.br s.bw s.ms _ _).trans (.of_same rfl rfl rfl)
    | bwCount =>
      rcases execBwCount_next h with ⟨e, _, rfl⟩ | ⟨_, rfl⟩ <;> exact .of_same rfl rfl rfl
    | bwRelease =>
      cases h
      exact (MemSystem.Records.bwSettle s).trans (.of_same rfl rfl rfl)
    | gorEnc w => exact absurd rfl ha
    | gorDec w => exact absurd rfl ha
    | bssEnc w => exact absurd rfl ha
    | bssDec w => exact absurd rfl ha

/-- No command changes another instance's registers or units, drops a record of it or unsettles its invariant (R278). -/
theorem exec_keeps_others {i : Instr} {s t : State} (h : exec i s = .next t) :
    List.Forall₂ Block.KeptBy s.ms.others t.ms.others := by
  by_cases hi : i = .brInit
  · subst hi
    rcases execBrInit_next h with ⟨e, _, rfl⟩ | ⟨_, rfl⟩ <;> exact List.forall₂_same.mpr fun p _ => .refl p
  · by_cases hr : i = .brRelease
    · subst hr
      cases h
      exact List.forall₂_same.mpr fun p _ => .refl p
    · exact (exec_records h hi hr).kept

end Sys2Proof.Machine
end

