-- ==== Sys2Proof/Tests/Slice0.lean ====
section
/-! SUPPORT. Tests of the model: words and results from spec/95_test_vectors.md and the examples of the rules, and for each
obligation that has hypotheses a witness, `witness_<obligation>`, that meets them. -/

namespace Sys2Proof.Tests

open Sys2Proof Sys2Proof.Machine

/-! ## Helpers -/

/-- The next state, if there is one. -/
def nextOf : Result → Option State
  | .next t => some t
  | .fault _ => none
  | .refused _ => none

/-- `f` of the next state of a command. -/
def after {α : Type} (f : State → α) (i : Instr) (s : State) : Option α := (nextOf (exec i s)).map f

/-- Memory with the bytes `bs` at `a`. -/
def memOf (a : Nat) (bs : List Byte) : MemSystem := ⟨bs.zipIdx.filterMap fun (b, k) =>
  if b = 0 then none else some (a + k, b), [], [], 0, []⟩

/-- The reader of the examples of 41_bitreader.md: two bytes A5 3C at 0x1000, `pos` bits consumed. -/
def reading (pos : Word) : State :=
  { State.reset with br := ⟨true, false, 0x1000, 2, pos⟩, ms := memOf 0x1000 [0xA5, 0x3C] }

/-- A writer of capacity `cap` at 0x2000 that holds `bits`, of which `final` bytes are final. -/
def writing (cap : Word) (bits : List Bool) (final : Word) : State :=
  { State.reset with bw := ⟨true, false, 0x2000, cap, bits, BitVec.ofNat 64 bits.length, final⟩ }

/-- Bytes at 0x1000 as the source, `cap` bytes at 0x2000 as the destination. -/
def source (bs : List Byte) (cap : Word) : State :=
  { State.reset with
    srcBase := 0x1000, srcLen := BitVec.ofNat 64 bs.length, dstBase := 0x2000, dstCap := cap
    ms := memOf 0x1000 bs }

/-- The bytes of OUT_LEN at 0x2000. -/
def output (s : State) : Byte × Bool × List Byte := (s.err, s.short, Memory.bytes s.ms.cells 0x2000 s.outLen.toNat)

/-! ## Well-formed commands -/

theorem test_wellFormed_read_zero : (Instr.brRead 0).wellFormed = false := by decide
theorem test_wellFormed_read_sixty_five : (Instr.brRead 65).wellFormed = false := by decide
theorem test_wellFormed_read_sixty_four : (Instr.brRead 64).wellFormed = true := by decide
theorem test_wellFormed_write_zero : (Instr.bwWrite 0).wellFormed = false := by decide
theorem test_wellFormed_write_max : (Instr.bwWrite 127).wellFormed = false := by decide
theorem test_wellFormed_write_one : (Instr.bwWrite 1).wellFormed = true := by decide

/-! ## Decoding: words written out from R100, R106 and R112 -/

theorem test_decode_brInit : decode 0x0000000000000001 = .ok .brInit := by decide
theorem test_decode_brRead : decode 0x0000000000030002 = .ok (.brRead 3) := by decide
theorem test_decode_brRead_max : decode 0x0000000000400002 = .ok (.brRead 64) := by decide
theorem test_decode_brReadbit : decode 0x0000000000000003 = .ok .brReadbit := by decide
theorem test_decode_brPeek : decode 0x0000000000000004 = .ok .brPeek := by decide
theorem test_decode_brEof : decode 0x0000000000000005 = .ok .brEof := by decide
theorem test_decode_brCount : decode 0x0000000000000006 = .ok .brCount := by decide
theorem test_decode_brRemain : decode 0x0000000000000007 = .ok .brRemain := by decide
theorem test_decode_brRelease : decode 0x0000000000000008 = .ok .brRelease := by decide
theorem test_decode_bwInit : decode 0x0000000000000011 = .ok .bwInit := by decide
theorem test_decode_bwWrite : decode 0x0000000000040012 = .ok (.bwWrite 4) := by decide
theorem test_decode_bwWrite_max : decode 0x0000000000400012 = .ok (.bwWrite 64) := by decide
theorem test_decode_bwFlush : decode 0x0000000000000013 = .ok .bwFlush := by decide
theorem test_decode_bwCount : decode 0x0000000000000014 = .ok .bwCount := by decide
theorem test_decode_bwRelease : decode 0x0000000000000015 = .ok .bwRelease := by decide
theorem test_decode_gorEnc : decode 0x0000000000000321 = .ok (.gorEnc .w8) := by decide
theorem test_decode_gorDec : decode 0x0000000000000222 = .ok (.gorDec .w4) := by decide
theorem test_decode_bssEnc : decode 0x0000000000000131 = .ok (.bssEnc .w2) := by decide
theorem test_decode_bssDec : decode 0x0000000000000032 = .ok (.bssDec .w1) := by decide

theorem test_decode_zero : decode 0 = .error .unknownOpcode := by decide
theorem test_decode_bit_32 : decode 0x0000000100000021 = .error .reservedBit := by decide
theorem test_decode_bit_10 : decode 0x0000000000000421 = .error .reservedBit := by decide
theorem test_decode_unused_count : decode 0x0000000000010001 = .error .unusedField := by decide
theorem test_decode_unused_width : decode 0x0000000000030102 = .error .unusedField := by decide
theorem test_decode_read_sixty_five : decode 0x0000000000410002 = .error .countOutOfRange := by decide
theorem test_decode_neighbours : decode 0x09 = .error .unknownOpcode ∧ decode 0x16 = .error .unknownOpcode
    ∧ decode 0x23 = .error .unknownOpcode ∧ decode 0x33 = .error .unknownOpcode := by decide

theorem test_decodeTableWord : decodeTableWord 64 0x00030002 = some (.brRead 3) := by decide
theorem test_encode_bwWrite : encode (.bwWrite 64) = 0x0000000000400012 := by decide
theorem test_rows_disjoint :
    opcodeTable.Pairwise fun r q => r.pattern &&& (r.mask &&& q.mask) ≠ q.pattern &&& (r.mask &&& q.mask) := by decide

/-! ## BitReader: vectors V-R1 to V-R24 -/

theorem test_brInit : after (fun t => (t.err, t.br, t.status)) .brInit { State.reset with srcBase := 0x1000, srcLen := 2 }
    = some (0, ⟨true, false, 0x1000, 2, 0⟩, 0x100) := by decide
theorem test_brRead_three : after (fun t => (t.result, t.br.pos)) (.brRead 3) (reading 0) = some (5, 3) := by decide
theorem test_brRead_seven : after (fun t => (t.result, t.br.pos)) (.brRead 7) (reading 3) = some (0x14, 10) := by decide
theorem test_brReadbit : after (fun t => (t.result, t.br.pos)) .brReadbit (reading 1) = some (0, 2) := by decide
theorem test_brReadbit_end : after (fun t => (t.result, t.status)) .brReadbit (reading 16) = some (0, 0x308) := by decide
theorem test_brPeek : after (fun t => (t.result, t.br.pos)) .brPeek (reading 3) = some (0x29, 3) := by decide
theorem test_brPeek_end : after (fun t => (t.result, t.status)) .brPeek (reading 10) = some (0, 0x308) := by decide
theorem test_brEof : after State.result .brEof (reading 16) = some 1 := by decide
theorem test_brEof_not : after State.result .brEof (reading 15) = some 0 := by decide
theorem test_brCount : after State.result .brCount (reading 10) = some 10 := by decide
theorem test_brRemain : after State.result .brRemain (reading 10) = some 6 := by decide
theorem test_brRelease : after State.status .brRelease (reading 3) = some 0 := by decide
theorem test_brCount_unbound : after State.status .brCount State.reset = some 2 := by decide

/-! ## BitWriter: vectors V-W1 to V-W16 -/

theorem test_bwInit : after (fun t => (t.bw.bits, t.status)) .bwInit { State.reset with dstBase := 0x2000, dstCap := 1 }
    = some ([], 0x400) := by decide
theorem test_bwInit_flushes : after (fun t => (t.byteAt 0x2000, t.bw.base)) .bwInit
    { writing 1 [true, true, true] 0 with dstBase := 0x2100, dstCap := 1 } = some (0xE0, 0x2100) := by decide
theorem test_bwWrite : after (fun t => (t.bw.bits, t.status)) (.bwWrite 4) { writing 1 [] 0 with arg := 0xFA }
    = some ([true, false, true, false], 0x2400) := by decide
theorem test_bwWrite_overflow : after State.status (.bwWrite 1) (writing 1 (bitsN 8 0xA5) 0) = some 0xC07 := by decide
theorem test_bwFlush : after output .bwFlush (writing 1 [true, false, true, false] 0) = some (0, false, [0xA0]) := by decide
theorem test_bwFlush_second : after output .bwFlush (writing 2 (bitsN 8 0xA0 ++ bitsN 4 0x5) 1)
    = some (0, false, [0, 0x50]) := by decide
theorem test_bwCount : after State.err .bwCount (writing 1 [true] 0) = some 0 := by decide
theorem test_bwRelease : after (fun t => (output t, t.status)) .bwRelease (writing 1 [true, false, true, false] 0)
    = some ((0, false, [0xA0]), 0) := by decide
theorem test_bwFlush_unbound : after State.status .bwFlush State.reset = some 2 := by decide

/-! ## Gorilla: vectors V-G and V-D -/

/-- V-G10: 00 01 at width 1. -/
theorem test_gorEnc : after output (.gorEnc .w1) (source [0x00, 0x01] 16)
    = some (0, false, [2, 0, 0, 0, 0, 0, 0, 0, 0x00, 0xF8, 0xC0]) := by decide
/-- V-G8: new window, reuse, repeat, reuse at width 1. -/
theorem test_gorEnc_reuse : after output (.gorEnc .w1) (source [0x00, 0x81, 0x80, 0x80, 0x01] 32)
    = some (0, false, [5, 0, 0, 0, 0, 0, 0, 0, 0x00, 0xC4, 0x40, 0xC0, 0x2A, 0x04]) := by decide
/-- V-D18: a payload whose top bit is 0 is accepted. -/
theorem test_gorDec : after output (.gorDec .w1) (source [2, 0, 0, 0, 0, 0, 0, 0, 0x00, 0xC4, 0x00, 0x80] 2)
    = some (0, false, [0x00, 0x01]) := by decide
/-- V-D14: a new-window item with lz + data_bits > w. -/
theorem test_gorDec_corrupt : after State.status (.gorDec .w1)
    (source [2, 0, 0, 0, 0, 0, 0, 0, 0x00, 0xEA, 0x00] 2) = some 9 := by decide

/-! ## Byte-stream split: vectors V-B -/

/-- V-B1. -/
theorem test_bssEnc : after output (.bssEnc .w2) (source [0x34, 0x12, 0x78, 0x56] 4)
    = some (0, false, [0x34, 0x78, 0x12, 0x56]) := by decide
/-- V-B10. -/
theorem test_bssEnc_capacity : after State.status (.bssEnc .w4) (source [1, 2, 3, 4, 5, 6, 7, 8] 7) = some 7 := by decide
/-- V-B6. -/
theorem test_bssDec : after output (.bssDec .w4) (source [1, 5, 9, 2, 6, 10, 3, 7, 11, 4, 8, 12] 12)
    = some (0, false, [1, 2, 3, 4, 5, 6, 7, 8, 9, 10, 11, 12]) := by decide

/-! ## Host operations -/

theorem test_step_runs_command : (nextOf (step (State.reset.withFetchWord 64 0x06))).map (fun t => (t.cmd, t.status, t.host))
    = some (6, 2, []) := by decide
theorem test_idle : step State.reset = .next State.reset := rfl
theorem test_window_byte_access : step { State.reset with host := [.regRead 0x08 .byte] } = .refused .windowAccess := rfl
theorem test_stuck_platform :
    exec .brInit { State.reset with srcLen := 1, platform := { Platform.default with checksAhead := false } }
      = .fault .noAdmissionCheck := rfl
theorem test_window_range : exec .bwInit { State.reset with dstBase := 0xFFFFFFFF00000000, dstCap := 1 }
    = .refused .deviceRange := rfl

/-! ## Witnesses -/

/-- A state whose host will do `op`. -/
def hosting (op : HostOp) (s : State) : State := { s with host := [op] }

/-- A command answers a next state with STATUS.ERR = `e`. -/
def endsWith (e : Byte) (i : Instr) (s : State) : Prop := ∃ t, exec i s = .next t ∧ t.err = e

/-- A platform with two instances, the second as after reset. -/
def twoInstances (op : HostOp) : State :=
  { hosting op (reading 0) with
    platform := { Platform.default with windows := [0xFFFFFFFF00000000, 0xFFFFFFFF00000100] }
    ms := { (reading 0).ms with others := [{ State.reset.block with id := 1 }] } }

/-- R278: the other instance has its own reader, and a host write that its reader covers is recorded for it. -/
theorem test_select : (nextOf (step (twoInstances (.select 1)))).map (fun t => (t.id, t.br.bound, t.ms.others.map Block.br))
    = some (1, false, [(reading 0).br]) := by decide
theorem test_select_absent : step (hosting (.select 1) State.reset) = .refused .noInstance := rfl
/-- R277: the accesses of a second agent are refused until the first hands the instance over. -/
theorem test_two_agents : step { hosting (.wr .arg 5) State.reset with agent := 1 } = .refused .sharedInstance := rfl
theorem test_hand_over : (nextOf (step { hosting (.wr .arg 5) State.reset with agent := 1, driver := 1 })).map State.arg
    = some 5 := by decide

theorem writing_sound {cap : Word} {bits : List Bool} {final : Word} (hc : cap.toNat ≤ 1000)
    (hb : bits.length ≤ 8 * cap.toNat) (hf : 8 * final.toNat ≤ bits.length) : (writing cap bits final).Sound := by
  have hno : ∀ {p : Prop}, false = true → p := fun h => Bool.noConfusion h
  refine ⟨⟨rfl, fun _ h => absurd h List.not_mem_nil⟩, ⟨⟨Nat.zero_le _, fun h => hno h⟩,
    ⟨fun h => hno h, fun h => hno h, fun h => hno h⟩, ⟨fun h => hno h, fun _ => ⟨?_, ?_⟩, fun _ _ => ⟨hb, hf, ?_⟩⟩,
    fun _ h => absurd h List.not_mem_nil, fun _ h => absurd h List.not_mem_nil⟩,
    fun _ h => absurd h List.not_mem_nil, List.Perm.refl _⟩
  · show cap.toNat ≤ 2 ^ 61 - 1
    omega
  · show (0x2000 : Word).toNat + cap.toNat ≤ 2 ^ 64
    have : (0x2000 : Word).toNat = 0x2000 := rfl
    omega
  · show (BitVec.ofNat 64 bits.length).toNat ≤ bits.length
    exact Nat.mod_le _ _

theorem reset_not_ready : ¬State.reset.bw.ready := fun h => Bool.noConfusion h.1

theorem witness_DecodeOfEncode : (Instr.brRead 64).wellFormed = true ∧ (Instr.bwWrite 1).wellFormed = true := by decide
theorem witness_EncodeOfDecode : decode 0x00400002 = .ok (.brRead 64) := by decide
theorem witness_DecodeIsMatchAndMask :
    decode 0x00000321 = .ok (.gorEnc .w8) ∧ (Instr.gorEnc .w1).row.spells 0x00000321 = true := by decide
theorem witness_StepPerformsDecodedCommand :
    decode 0x06 = .ok .brCount ∧ (State.reset.withFetchWord 64 0x06).host = .regWrite 0x00 .dword 0x06 :: []
    ∧ (State.reset.withFetchWord 64 0x06).agent = (State.reset.withFetchWord 64 0x06).driver := by decide
theorem witness_IllegalValueRaisesErrIllegal :
    (∀ r ∈ opcodeTable, r.spells 0 = false) ∧ (State.reset.withFetchWord 64 0).host = .regWrite 0x00 .dword 0 :: []
    ∧ (State.reset.withFetchWord 64 0).agent = (State.reset.withFetchWord 64 0).driver := by decide
theorem witness_ReadOnlyAndReservedOffsets :
    (hosting (.regWrite 0x40 .dword 1) State.reset).host = .regWrite 0x40 .dword 1 :: []
    ∧ 0x48 ≤ (0x48 : BitVec 8).toNat ∧ (0x48 : BitVec 8).toNat % 8 = 0
    ∧ 0x48 ≤ (0xF8 : BitVec 8).toNat ∧ (0xF8 : BitVec 8).toNat % 8 = 0
    ∧ (hosting (.regRead 0xF8 .dword) State.reset).host = .regRead 0xF8 .dword :: []
    ∧ State.reset.agent = State.reset.driver := by decide
theorem witness_RegisterWindow :
    (hosting (.regWrite 0x38 .dword 7) State.reset).host = .regWrite 0x38 .dword 7 :: []
    ∧ (hosting (.regRead 0x40 .dword) State.reset).host = .regRead 0x40 .dword :: []
    ∧ State.reset.agent = State.reset.driver
    ∧ 1 ≠ (twoInstances (.select 1)).id ∧ (∃ p ∈ (twoInstances (.select 1)).ms.others, p.id = 1) := by decide
theorem witness_OtherWindowAccessesAreRefused :
    (AccessSize.word ≠ .dword ∨ (0x00 : BitVec 8).toNat % 8 ≠ 0)
    ∧ (AccessSize.dword ≠ .dword ∨ (0x04 : BitVec 8).toNat % 8 ≠ 0)
    ∧ (hosting (.regWrite 0x04 .dword 1) State.reset).host = .regWrite 0x04 .dword 1 :: []
    ∧ { hosting (.regRead 0x00 .dword) State.reset with agent := 1 }.agent ≠ State.reset.driver
    ∧ 1 ≠ (hosting (.select 1) State.reset).id ∧ ∀ p ∈ State.reset.ms.others, p.id ≠ 1 := by decide
theorem witness_ResultOfEveryCommand :
    endsWith 2 .brCount State.reset ∧ endsWith 0 .brRelease State.reset ∧ Instr.brRelease.reports = false :=
  ⟨⟨_, rfl, rfl⟩, ⟨_, rfl, rfl⟩, rfl⟩
theorem witness_OutLenOutsideTheEngines :
    endsWith 0 .bwFlush (writing 1 [true] 0) ∧ endsWith 0 .bwRelease (writing 1 [true] 0)
    ∧ (writing 1 [true] 0).bw.ready ∧ endsWith 0 .bwRelease State.reset ∧ ¬State.reset.bw.ready
    ∧ endsWith 0 .brRelease State.reset :=
  ⟨⟨_, rfl, rfl⟩, ⟨_, rfl, rfl⟩, ⟨rfl, rfl⟩, ⟨_, rfl, rfl⟩, reset_not_ready, ⟨_, rfl, rfl⟩⟩
/-- V-D9: count 2 and no tail bit. -/
theorem witness_ShortOnlyAfterGorillaDecode :
    ∃ t, exec (.gorDec .w1) (source [2, 0, 0, 0, 0, 0, 0, 0, 0x07] 2) = .next t ∧ t.short = true := ⟨_, rfl, by decide⟩
theorem witness_ResetState : (hosting .reset (writing 1 [true] 0)).host = .reset :: [] := rfl
theorem witness_ResetDuringACommand :
    decode 0x13 = .ok .bwFlush ∧ (writing 1 [true] 0).admissionOf .bwFlush ≠ .stuck
    ∧ (writing 1 [true] 0).admissionOf .bwFlush ≠ .device ∧ Instr.bwFlush.mayStore = true ∧ (writing 1 [true] 0).bw.ready
    ∧ ¬State.reset.bw.ready
    ∧ decode 0x231 = .ok (.bssEnc .w4) ∧ (source [1] 1).admissionOf (.bssEnc .w4) = .pass
    ∧ (Instr.bssEnc .w4).isArray = true ∧ Instr.brPeek.isArray = false ∧ Instr.brPeek.mayStore = false
    ∧ (hosting (.resetDuring 0x13) (writing 1 [true] 0)).host = .resetDuring 0x13 :: []
    ∧ (writing 1 [true] 0).agent = (writing 1 [true] 0).driver :=
  ⟨by decide, by decide, by decide, rfl, ⟨rfl, rfl⟩, reset_not_ready, by decide, by decide, rfl, rfl, rfl, rfl, rfl⟩
theorem witness_StepKeepsSound : (hosting (.command .bwFlush) (writing 1 [true] 0)).Sound
    ∧ ∃ t, step (hosting (.command .bwFlush) (writing 1 [true] 0)) = .next t :=
  ⟨writing_sound (by decide) (by decide) (by decide), _, rfl⟩
theorem witness_CommandsKeepTheInputs : endsWith 0 .brRelease State.reset := ⟨_, rfl, rfl⟩
theorem witness_ErrorsByCommand : endsWith 2 .bwFlush State.reset := ⟨_, rfl, rfl⟩
theorem witness_ErrorEntry :
    endsWith 8 .brPeek (reading 9) ∧ Instr.brPeek.takesBits = true ∧ endsWith 2 .brPeek State.reset
    ∧ endsWith 7 (.bwWrite 1) (writing 0 [] 0) := ⟨⟨_, rfl, rfl⟩, rfl, ⟨_, rfl, rfl⟩, ⟨_, rfl, rfl⟩⟩
theorem witness_PreciseErrorsKeepMemory :
    endsWith 2 (.bwWrite 1) State.reset ∧ endsWith 9 (.gorDec .w1) (source [1, 0, 0, 0, 0, 0, 0, 0] 1)
    ∧ (source [1, 0, 0, 0, 0, 0, 0, 0] 1).streamCount ≠ 0
    ∧ (source [1, 0, 0, 0, 0, 0, 0, 0] 1).srcLen.toNat < 8 + Width.w1.bytes :=
  ⟨⟨_, rfl, rfl⟩, ⟨_, rfl, rfl⟩, by decide, by decide⟩
/-- Each clause in turn: a range that ends one byte past the top, ranges that share one byte, one byte not admitted. -/
theorem witness_ArrayChecksInOrder :
    (Instr.bssEnc .w1).isArray = true
    ∧ ¬((0xFFFFFFFFFFFFFFFF : Word).toNat + (2 : Word).toNat ≤ 2 ^ 64)
    ∧ ((0x1000 : Word).toNat ≤ 0x1001 ∧ 0x1001 < (0x1000 : Word).toNat + (2 : Word).toNat
        ∧ (0x1001 : Word).toNat ≤ 0x1001 ∧ 0x1001 < (0x1001 : Word).toNat + (1 : Word).toNat)
    ∧ { Platform.default with denied := [⟨0x1001, 1⟩] }.checksAhead = true
    ∧ { Platform.default with denied := [⟨0x1001, 1⟩] }.admits 0x1001 = false
    ∧ after State.err (.bssEnc .w1) { source [1, 2] 1 with srcBase := 0xFFFFFFFFFFFFFFFF } = some 4
    ∧ after State.err (.bssEnc .w1) { source [1, 2] 1 with dstBase := 0x1001 } = some 5
    ∧ after State.err (.bssEnc .w1)
        { source [1, 2] 2 with platform := { Platform.default with denied := [⟨0x1001, 1⟩] } } = some 10 := by decide
/-- Each clause in turn, at a length one past MAX_LEN and at a range whose last byte is not admitted. -/
theorem witness_InitErrors :
    ¬((0x2000000000000000 : Word).toNat ≤ 2 ^ 61 - 1) ∧ (0x1FFFFFFFFFFFFFFF : Word).toNat ≤ 2 ^ 61 - 1
    ∧ after State.err .brInit { State.reset with srcLen := 0x2000000000000000 } = some 4
    ∧ after State.err .bwInit { State.reset with dstCap := 0x2000000000000000 } = some 4
    ∧ after State.err .brInit { source [1, 2] 2 with platform := { Platform.default with denied := [⟨0x1001, 1⟩] } }
        = some 10
    ∧ after State.err .bwInit { source [1, 2] 2 with platform := { Platform.default with denied := [⟨0x2001, 1⟩] } }
        = some 10 := by decide
theorem witness_BrInitBindsTheReader :
    (source [1, 2] 2).platform.admitOne (source [1, 2] 2).srcBase (source [1, 2] 2).srcLen = .pass := by decide
theorem witness_BrReadReturnsTheNextBits :
    (reading 10).br.ready ∧ (reading 10).ms.stale = [] ∧ 1 ≤ (6 : BitVec 7).toNat ∧ (6 : BitVec 7).toNat ≤ 64
    ∧ (reading 10).br.pos.toNat + (6 : BitVec 7).toNat ≤ 8 * (reading 10).br.len.toNat
    ∧ (reading 15).br.ready ∧ (reading 15).br.pos.toNat + 1 ≤ 8 * (reading 15).br.len.toNat :=
  ⟨⟨rfl, rfl⟩, rfl, by decide, by decide, by decide, ⟨rfl, rfl⟩, by decide⟩
theorem witness_BrPeekReturnsTheNextByte :
    (reading 8).br.ready ∧ (reading 8).ms.stale = [] ∧ (reading 8).br.pos.toNat + 8 ≤ 8 * (reading 8).br.len.toNat :=
  ⟨⟨rfl, rfl⟩, rfl, by decide⟩
theorem witness_ReadPastTheEndFaultsTheReader :
    (reading 16).br.ready ∧ 8 * (reading 16).br.len.toNat - (reading 16).br.pos.toNat < 1
    ∧ 8 * (reading 9).br.len.toNat - (reading 9).br.pos.toNat < 8
    ∧ 8 * (reading 10).br.len.toNat - (reading 10).br.pos.toNat < (7 : BitVec 7).toNat :=
  ⟨⟨rfl, rfl⟩, by decide, by decide, by decide⟩
theorem witness_ReaderQueries : (reading 16).br.ready ∧ (reading 16).br.inBounds ∧ (reading 15).br.ready :=
  ⟨⟨rfl, rfl⟩, by simp [BitReader.inBounds, reading, Config.maxLen, Config.addrSpace], ⟨rfl, rfl⟩⟩
theorem witness_ReaderNotReady :
    State.reset.br.bound = false ∧ { (reading 0).br with fault := true }.bound = true
    ∧ { (reading 0).br with fault := true }.fault = true := by decide
theorem witness_SplittingARead :
    (reading 0).br.ready ∧ (reading 0).br.inBounds ∧ (reading 0).ms.stale = []
    ∧ (10 : BitVec 7).toNat = (3 : BitVec 7).toNat + (7 : BitVec 7).toNat
    ∧ ∃ t u v, exec (.brRead 3) (reading 0) = .next t ∧ t.err = 0 ∧ exec (.brRead 7) t = .next u ∧ u.err = 0
        ∧ exec (.brRead 10) (reading 0) = .next v :=
  ⟨⟨rfl, rfl⟩, by simp [BitReader.inBounds, reading, Config.maxLen, Config.addrSpace], rfl, by decide,
    _, _, _, rfl, rfl, rfl, rfl, rfl⟩
theorem witness_ReadsReturnTheSource :
    (reading 0).br.ready ∧ (reading 0).br.inBounds ∧ (reading 0).ms.stale = []
    ∧ (∀ n ∈ [(3 : BitVec 7), 13], 1 ≤ n.toNat ∧ n.toNat ≤ 64)
    ∧ ([(3 : BitVec 7), 13].map BitVec.toNat).sum = 8 * (reading 0).br.len.toNat ∧ (reading 0).br.pos = 0 :=
  ⟨⟨rfl, rfl⟩, by simp [BitReader.inBounds, reading, Config.maxLen, Config.addrSpace], rfl, by decide, by decide, rfl⟩
theorem witness_ReadsOfAWrittenSource :
    ({ reading 0 with ms := { (reading 0).ms with stale := [0] } } : State).br.ready
    ∧ (reading 0).br.pos.toNat + (16 : BitVec 7).toNat ≤ 8 * (reading 0).br.len.toNat
    ∧ ((reading 0).br.pos.toNat + 8) / 8 ∉ [0] ∧ (reading 8).br.ready
    ∧ (reading 8).br.pos.toNat + 8 ≤ 8 * (reading 8).br.len.toNat :=
  ⟨⟨rfl, rfl⟩, by decide, by decide, ⟨rfl, rfl⟩, by decide⟩
/-- A reader over the writer's destination, for the writes of a writer command. -/
def readingOwn (cap : Word) (bits : List Bool) : State := { writing cap bits 0 with br := ⟨true, false, 0x2000, cap, 0⟩ }
theorem witness_WritesToTheBoundSourceAreRecorded :
    (∃ t, step (hosting (.memWrite 0x1001 7) (reading 0)) = .next t) ∧ (reading 0).br.covers 0x1001 = true
    ∧ (∃ t, exec (.bssEnc .w1) { source [7] 1 with br := ⟨true, false, 0x2000, 1, 0⟩ } = .next t ∧ t.err = 0
        ∧ t.byteAt 0x2000 ≠ (source [7] 1).byteAt 0x2000 ∧ 0x2000 < 0x2000 + t.outLen.toNat)
    ∧ (∃ t, exec (.bssEnc .w1) { source [7] 1 with
          ms := { (source [7] 1).ms with others := [{ State.reset.block with id := 1, br := ⟨true, false, 0x2000, 1, 0⟩ }] } } = .next t
        ∧ ∃ p ∈ t.ms.others, p.br.covers 0x2000 = true)
    ∧ (readingOwn 1 [true]).br.covers 0x2000 = true ∧ (readingOwn 1 [true]).bw.ready
    ∧ endsWith 0 .bwFlush (readingOwn 1 [true]) ∧ 0 < ceil8 [true].length
    ∧ endsWith 0 (.bwWrite 7) (readingOwn 1 [true]) ∧ endsWith 7 (.bwWrite 8) (readingOwn 1 [true])
    ∧ endsWith 7 (.gorEnc .w1) { source [7] 1 with br := ⟨true, false, 0x2000, 1, 0⟩ }
    ∧ 0 ∈ ({ reading 0 with ms := { (reading 0).ms with stale := [0] } } : State).ms.stale :=
  ⟨⟨_, rfl⟩, by decide, ⟨_, rfl, rfl, by decide, by decide⟩, ⟨_, rfl, _, .head _, rfl⟩, by decide, ⟨rfl, rfl⟩,
    ⟨_, rfl, rfl⟩, by decide, ⟨_, rfl, rfl⟩, ⟨_, rfl, rfl⟩, ⟨_, rfl, rfl⟩, by decide⟩
theorem witness_BwInitBindsTheWriter :
    (source [] 1).platform.admitOne (source [] 1).dstBase (source [] 1).dstCap = .pass ∧ ¬State.reset.bw.ready
    ∧ ({ writing 2 (bitsN 9 0x1FF) 0 with dstBase := 0x2100, dstCap := 1 } : State).platform.admitOne 0x2100 1 = .pass
    ∧ (writing 2 (bitsN 9 0x1FF) 0).bw.ready ∧ 1 < ceil8 (bitsN 9 0x1FF).length :=
  ⟨by decide, reset_not_ready, by decide, ⟨rfl, rfl⟩, by decide⟩
theorem witness_BwWriteAppends :
    (writing 1 [true] 0).bw.ready ∧ 1 ≤ (7 : BitVec 7).toNat ∧ (7 : BitVec 7).toNat ≤ 64
    ∧ (writing 1 [true] 0).bw.bits.length + (7 : BitVec 7).toNat ≤ 8 * (writing 1 [true] 0).bw.cap.toNat :=
  ⟨⟨rfl, rfl⟩, by decide, by decide, by decide⟩
theorem witness_BwWriteOverflowFaultsTheWriter :
    (writing 1 [true] 0).bw.ready ∧ 1 ≤ (8 : BitVec 7).toNat ∧ (8 : BitVec 7).toNat ≤ 64
    ∧ 8 * (writing 1 [true] 0).bw.cap.toNat < (writing 1 [true] 0).bw.bits.length + (8 : BitVec 7).toNat :=
  ⟨⟨rfl, rfl⟩, by decide, by decide, by decide⟩
theorem witness_BwFlushMakesEveryByteFinal :
    (writing 2 (bitsN 9 0x1FF) 1).bw.ready ∧ (writing 2 (bitsN 9 0x1FF) 1).bw.final.toNat ≤ 1
    ∧ 1 < ceil8 (writing 2 (bitsN 9 0x1FF) 1).bw.bits.length := ⟨⟨rfl, rfl⟩, by decide, by decide⟩
theorem witness_FlushFitsAndIsIdempotent :
    (writing 1 [true] 0).bw.ready ∧ (writing 1 [true] 0).bw.inBounds
    ∧ ∃ t, exec .bwFlush (writing 1 [true] 0) = .next t :=
  ⟨⟨rfl, rfl⟩, by simp [BitWriter.inBounds, writing, Config.maxLen, Config.addrSpace], _, rfl⟩
theorem witness_BwCountReturnsTheBitsWritten : (writing 1 [true] 0).bw.ready := ⟨rfl, rfl⟩
theorem witness_BwReleaseDetachesTheWriter :
    (writing 1 [true] 0).bw.ready ∧ 0 < ceil8 (writing 1 [true] 0).bw.bits.length ∧ ¬State.reset.bw.ready :=
  ⟨⟨rfl, rfl⟩, by decide, reset_not_ready⟩
theorem witness_WriterNotReady :
    State.reset.bw.bound = false ∧ { (writing 1 [] 0).bw with fault := true }.bound = true
    ∧ { (writing 1 [] 0).bw with fault := true }.fault = true := by decide
theorem witness_WritesThenFlushGiveTheirBytes :
    (source [] 2).platform.admitOne (source [] 2).dstBase (source [] 2).dstCap = .pass
    ∧ (∃ t, exec .bwInit (source [] 2) = .next t)
    ∧ (∀ p ∈ [((3 : BitVec 7), (5 : Word)), (13, 1)], 1 ≤ p.1.toNat ∧ p.1.toNat ≤ 64)
    ∧ ([((3 : BitVec 7), (5 : Word)), (13, 1)].map fun p => p.1.toNat).sum ≤ 8 * (source [] 2).dstCap.toNat :=
  ⟨by decide, ⟨_, rfl⟩, by simp, by decide⟩
/-- A writer of 20 bits, one byte final: byte 0 is final, byte 1 whole and not final, byte 2 partial. -/
theorem witness_HostWritesToABoundDestination :
    (writing 3 (bitsN 20 0xABCDE) 1).Sound ∧ (writing 3 (bitsN 20 0xABCDE) 1).bw.ready
    ∧ (∃ t u, step (hosting (.memWrite 0x2000 7) (writing 3 (bitsN 20 0xABCDE) 1)) = .next t
        ∧ exec .bwFlush t = .next u)
    ∧ 0 < (writing 3 (bitsN 20 0xABCDE) 1).bw.final.toNat
    ∧ (writing 3 (bitsN 20 0xABCDE) 1).bw.final.toNat ≤ 1 ∧ 8 * (1 + 1) ≤ (bitsN 20 0xABCDE).length
    ∧ 8 * 2 < (bitsN 20 0xABCDE).length ∧ (bitsN 20 0xABCDE).length < 8 * (2 + 1)
    ∧ (bitsN 20 0xABCDE).length ≤ 8 * 3 :=
  ⟨writing_sound (by decide) (by decide) (by decide), ⟨rfl, rfl⟩, ⟨_, _, rfl, rfl⟩, by decide, by decide, by decide,
    by decide, by decide, by decide⟩
theorem witness_HostMemoryAccesses :
    (∀ b ∈ State.reset.platform.windows, ¬(b.toNat ≤ (0x1000 : Word).toNat ∧ (0x1000 : Word).toNat < b.toNat + 0x100))
    ∧ (∀ d ∈ State.reset.platform.devices, ¬(d.base ≤ (0x1000 : Word).toNat ∧ (0x1000 : Word).toNat < d.base + d.len))
    ∧ (∃ b ∈ State.reset.platform.windows,
        b.toNat ≤ (0xFFFFFFFF000000FF : Word).toNat ∧ (0xFFFFFFFF000000FF : Word).toNat < b.toNat + 0x100)
    ∧ (∃ d ∈ { Platform.default with devices := [⟨0x3000, 1⟩] }.devices, d.base ≤ 0x3000 ∧ 0x3000 < d.base + d.len)
    ∧ (hosting (.memWrite 0x1000 7) State.reset).host = .memWrite 0x1000 7 :: []
    ∧ (hosting (.memRead 0x1000) State.reset).host = .memRead 0x1000 :: [] :=
  ⟨by simp [State.reset, Platform.default], by simp [State.reset, Platform.default], ⟨_, .head _, by decide, by decide⟩,
    ⟨_, .head _, by decide⟩, rfl, rfl⟩
/-- One XOR that the window (4, 2, 2) contains, at width 1, and one that it does not. -/
theorem witness_GorillaItemCodes :
    (8 : Nat) ≠ 0 ∧ 8 < 2 ^ Width.w1.bits ∧ Window.ofXor .w1 8 = ⟨4, 1, 3⟩ ∧ (4 : Nat) + 2 + 2 = Width.w1.bits
    ∧ Window.ofXor .w1 0x81 = ⟨0, 8, 0⟩ ∧ ¬((4 : Nat) ≤ 0) := by decide
theorem witness_GorillaStreamFormat : ∀ y ∈ [(0x81 : Nat), 0xFF], y < 2 ^ Width.w1.bits := by decide
theorem witness_GorEncStoresTheStream :
    (source [0, 1] 11).arrayAdmission = .pass ∧ (source [0, 1] 11).srcLen.toNat % Width.w1.bytes = 0
    ∧ (gorillaEncode .w1 ((source [0, 1] 11).srcWords .w1)).length ≤ (source [0, 1] 11).dstCap.toNat := by decide
theorem witness_LengthAndCapacityErrors :
    (source [1, 2, 3] 2).arrayAdmission = .pass ∧ (source [1, 2, 3] 2).srcLen.toNat % Width.w2.bytes ≠ 0
    ∧ (source [1, 2, 3, 4] 3).arrayAdmission = .pass ∧ (source [1, 2, 3, 4] 3).srcLen.toNat % Width.w2.bytes = 0
    ∧ (source [1, 2, 3, 4] 3).dstCap.toNat < (source [1, 2, 3, 4] 3).srcLen.toNat
    ∧ (source [] 7).arrayAdmission = .pass
    ∧ (source [] 7).dstCap.toNat < (gorillaEncode .w2 ((source [] 7).srcWords .w2)).length := by decide
theorem witness_GorDecHeader :
    (source [1, 0, 0, 0, 0, 0, 0] 1).arrayAdmission = .pass ∧ (source [1, 0, 0, 0, 0, 0, 0] 1).srcLen.toNat < 8
    ∧ 8 ≤ (source [0, 0, 0, 0, 0, 0, 0, 0] 1).srcLen.toNat
    ∧ (source [0, 0, 0, 0, 0, 0, 0, 0] 1).streamCount = 0
    ∧ (source [1, 0, 0, 0, 0, 0, 0, 0] 1).srcLen.toNat < 8 + Width.w1.bytes
    ∧ (source [1, 0, 0, 0, 0, 0, 0, 0] 1).streamCount ≠ 0
    ∧ 8 + Width.w1.bytes ≤ (source [2, 0, 0, 0, 0, 0, 0, 0, 5] 1).srcLen.toNat
    ∧ (source [2, 0, 0, 0, 0, 0, 0, 0, 5] 1).dstCap.toNat
        < (source [2, 0, 0, 0, 0, 0, 0, 0, 5] 1).streamCount * Width.w1.bytes := by decide
theorem witness_GorillaItemDecoding :
    Window.initial.dataBits = 0 ∧ (Window.mk 4 2 2).dataBits ≠ 0 ∧ [true].length < (Window.mk 4 2 2).dataBits
    ∧ (Window.mk 4 2 2).dataBits ≤ [true, false].length
    ∧ (bitsN 6 0).length < Width.w1.leadingZeroBitlen + Width.w1.dataBitlen
    ∧ 7 < 2 ^ Width.w1.leadingZeroBitlen ∧ 2 < 2 ^ Width.w1.dataBitlen ∧ Width.w1.bits < 7 + 2 ∧ 7 + 1 ≤ Width.w1.bits
    ∧ ([] : List Bool).length < 1 ∧ 1 ≤ [true].length := by decide
theorem witness_GorDecStoresTheWords :
    (source [2, 0, 0, 0, 0, 0, 0, 0, 0, 0xF8, 0xC0] 2).arrayAdmission = .pass
    ∧ (source [2, 0, 0, 0, 0, 0, 0, 0, 0, 0xF8, 0xC0] 2).streamCount = 2
    ∧ decTail .w1 1 ⟨0, 0, 0⟩ ((source [2, 0, 0, 0, 0, 0, 0, 0, 0, 0xF8, 0xC0] 2).streamFirst .w1)
        ((source [2, 0, 0, 0, 0, 0, 0, 0, 0, 0xF8, 0xC0] 2).streamTail .w1) = .ok ([1], false) := by decide
/-- V-D16. -/
theorem witness_GorDecItemErrors :
    (source [2, 0, 0, 0, 0, 0, 0, 0, 0, 0xF8] 2).arrayAdmission = .pass
    ∧ (source [2, 0, 0, 0, 0, 0, 0, 0, 0, 0xF8] 2).streamCount = 2
    ∧ decTail .w1 1 ⟨0, 0, 0⟩ ((source [2, 0, 0, 0, 0, 0, 0, 0, 0, 0xF8] 2).streamFirst .w1)
        ((source [2, 0, 0, 0, 0, 0, 0, 0, 0, 0xF8] 2).streamTail .w1) = .error .underrun := by decide
theorem witness_GorillaDecodeLoop :
    decItem .w1 ⟨0, 0, 0⟩ [false, true] = .ok (0, ⟨0, 0, 0⟩, [true]) ∧ decTail .w1 0 ⟨0, 0, 0⟩ 5 [true] = .ok ([], false)
    ∧ decItem .w1 ⟨0, 0, 0⟩ [true] = .error .underrun ∧ decTail .w1 1 ⟨0, 0, 0⟩ 5 [true] = .error .underrun
    ∧ decTail .w1 1 ⟨0, 0, 0⟩ 5 [false] = .ok ([5], false) := by decide
/-- V-G10 there and back. -/
theorem witness_GorillaRoundTrip :
    endsWith 0 (.gorEnc .w1) (source [0, 1] 16)
    ∧ (source [2, 0, 0, 0, 0, 0, 0, 0, 0, 0xF8, 0xC0] 2).arrayAdmission = .pass
    ∧ after (fun t => (t.outLen, Memory.bytes t.ms.cells 0x2000 t.outLen.toNat)) (.gorEnc .w1) (source [0, 1] 16)
      = some ((source [2, 0, 0, 0, 0, 0, 0, 0, 0, 0xF8, 0xC0] 2).srcLen,
          Memory.bytes (source [2, 0, 0, 0, 0, 0, 0, 0, 0, 0xF8, 0xC0] 2).ms.cells 0x1000 11)
    ∧ (source [0, 1] 16).srcLen.toNat ≤ (source [2, 0, 0, 0, 0, 0, 0, 0, 0, 0xF8, 0xC0] 2).dstCap.toNat :=
  ⟨⟨_, rfl, rfl⟩, by decide, by decide, by decide⟩
theorem witness_BssMovesBytesBetweenElementsAndPlanes :
    (source [1, 2, 3, 4] 4).arrayAdmission = .pass ∧ (source [1, 2, 3, 4] 4).srcLen.toNat = 2 * Width.w2.bytes
    ∧ (source [1, 2, 3, 4] 4).srcLen.toNat ≤ (source [1, 2, 3, 4] 4).dstCap.toNat := by decide
theorem witness_BssRoundTrip :
    endsWith 0 (.bssEnc .w2) (source [1, 2, 3, 4] 4) ∧ (source [1, 3, 2, 4] 4).arrayAdmission = .pass
    ∧ after (fun t => (t.outLen, Memory.bytes t.ms.cells 0x2000 t.outLen.toNat)) (.bssEnc .w2) (source [1, 2, 3, 4] 4)
      = some ((source [1, 3, 2, 4] 4).srcLen, Memory.bytes (source [1, 3, 2, 4] 4).ms.cells 0x1000 4) :=
  ⟨⟨_, rfl, rfl⟩, by decide, by decide⟩
theorem witness_CommandsWriteOnlyTheirOwnRanges :
    endsWith 0 (.bssEnc .w1) (source [1] 1) ∧ (Instr.bssEnc .w1).isArray = true
    ∧ endsWith 0 .bwFlush (writing 1 [true] 0) ∧ Instr.bwFlush.mayStore = true ∧ (writing 1 [true] 0).bw.ready
    ∧ (writing 1 [true] 0).bw.inBounds ∧ endsWith 2 .bwFlush State.reset ∧ ¬State.reset.bw.ready
    ∧ endsWith 0 .brRelease State.reset :=
  ⟨⟨_, rfl, rfl⟩, rfl, ⟨_, rfl, rfl⟩, rfl, ⟨rfl, rfl⟩,
    by simp [BitWriter.inBounds, writing, Config.maxLen, Config.addrSpace], ⟨_, rfl, rfl⟩, reset_not_ready,
    ⟨_, rfl, rfl⟩⟩
/-- The second state has its source elsewhere, a larger destination elsewhere and a bound writer. -/
theorem witness_ArrayCommandsDependOnTheSourceAlone :
    endsWith 0 (.gorEnc .w1) (source [0, 1] 16)
    ∧ endsWith 0 (.gorEnc .w1) { writing 1 [true] 0 with
        srcBase := 0x3000, srcLen := 2, dstBase := 0x4000, dstCap := 99, ms := memOf 0x3000 [0, 1] }
    ∧ Memory.bytes (memOf 0x3000 [0, 1]).cells 0x3000 2 = Memory.bytes (source [0, 1] 16).ms.cells 0x1000 2 :=
  ⟨⟨_, rfl, rfl⟩, ⟨_, rfl, rfl⟩, by decide⟩
/-- Each clause: a platform that cannot check in advance, and a destination whose last byte is the window's first. -/
theorem witness_RangesTheModelStopsOn :
    exec (.bssEnc .w1) { source [1] 1 with platform := { Platform.default with checksAhead := false } }
      = .fault .noAdmissionCheck
    ∧ exec (.bssEnc .w1) { source [1] 2 with platform := { Platform.default with windows := [0x2001] } }
      = .refused .deviceRange
    ∧ exec .brInit { source [1] 1 with platform := { Platform.default with checksAhead := false } }
      = .fault .noAdmissionCheck
    ∧ exec .bwInit { source [1] 2 with platform := { Platform.default with devices := [⟨0x2001, 1⟩] } }
      = .refused .deviceRange
    ∧ (source [1] 1).srcRegion.contains 0x1000 = true ∧ (source [1] 1).dstRegion.contains 0x1000 = false :=
  ⟨rfl, rfl, rfl, rfl, by decide, by decide⟩

end Sys2Proof.Tests
end

/-! The register window and STATUS (10_state.md R31 to R54): one rule for each kind of window access, then the statements. -/

namespace Sys2Proof.Machine

open Sys2Proof

/-! ## The host's next operation -/

/-- A step performs the first operation of the host's list and takes it off (R8). -/
theorem step_of_host {s : State} {op : HostOp} {rest : List HostOp} (h : s.host = op :: rest) :
    step s = hostAccess { s with host := rest } op := by
  simp only [step, hostStep, h]

@[simp] theorem alignedAccess_iff (off : BitVec 8) (size : AccessSize) :
    alignedAccess off size = true ↔ size = .dword ∧ off.toNat % 8 = 0 := by
  simp [alignedAccess]

theorem State.driven_of_agent (s : State) (h : s.agent = s.driver) {r : Result} : s.driven r = r := if_pos h

/-- An aligned window write by the agent that drives the instance writes the register at that offset (R39, R277). -/
theorem hostAccess_regWrite {s : State} {off : BitVec 8} (v : Word) (hoff : off.toNat % 8 = 0)
    (hag : s.agent = s.driver) :
    hostAccess s (.regWrite off .dword v) = s.writeRegister v (Register.atOffset off) := by
  rw [hostAccess, if_pos ((alignedAccess_iff off .dword).2 ⟨rfl, hoff⟩), s.driven_of_agent hag]

/-- An aligned window read by the agent that drives the instance hands the host the register at that offset (R39, R277). -/
theorem hostAccess_regRead {s : State} {off : BitVec 8} (hoff : off.toNat % 8 = 0) (hag : s.agent = s.driver) :
    hostAccess s (.regRead off .dword) = .next { s with hostData := s.readRegister (Register.atOffset off) } := by
  rw [hostAccess, if_pos ((alignedAccess_iff off .dword).2 ⟨rfl, hoff⟩), s.driven_of_agent hag]

theorem step_regWrite {s : State} {off : BitVec 8} {v : Word} {rest : List HostOp} (hoff : off.toNat % 8 = 0)
    (hag : s.agent = s.driver) (h : s.host = .regWrite off .dword v :: rest) :
    step s = State.writeRegister { s with host := rest } v (Register.atOffset off) :=
  (step_of_host h).trans (hostAccess_regWrite v hoff hag)

theorem step_regRead {s : State} {off : BitVec 8} {rest : List HostOp} (hoff : off.toNat % 8 = 0)
    (hag : s.agent = s.driver) (h : s.host = .regRead off .dword :: rest) :
    step s = .next { s with
      host := rest, hostData := State.readRegister { s with host := rest } (Register.atOffset off) } :=
  (step_of_host h).trans (hostAccess_regRead hoff hag)

/-! ## Registers that ignore writes -/

/-- The registers whose writes are ignored: the read-only ones (R38) and the reserved offsets (R46). -/
def Register.ignoresWrites : Register → Bool
  | .status | .result | .outLen | .reserved => true
  | .cmd | .arg | .srcBase | .srcLen | .dstBase | .dstCap => false

theorem State.writeRegister_of_ignoresWrites (s : State) (v : Word) {r : Register} (h : r.ignoresWrites = true) :
    s.writeRegister v r = .next s := by
  cases r with
  | status | result | outLen | reserved => rfl
  | cmd | arg | srcBase | srcLen | dstBase | dstCap => exact Bool.noConfusion h

/-- Every offset from 0x48 on is reserved (R46). -/
theorem Register.atOffset_of_le {off : BitVec 8} (h : 0x48 ≤ off.toNat) : Register.atOffset off = .reserved := by
  unfold Register.atOffset
  split
  case h_10 => rfl -- the branch of every other offset
  all_goals omega

/-- A window write to a register that ignores writes only takes the operation off the host's list. -/
theorem step_regWrite_ignored {s : State} {off : BitVec 8} {v : Word} {rest : List HostOp}
    (hreg : (Register.atOffset off).ignoresWrites = true) (hoff : off.toNat % 8 = 0) (hag : s.agent = s.driver)
    (h : s.host = .regWrite off .dword v :: rest) : step s = .next { s with host := rest } := by
  rw [step_regWrite hoff hag h, State.writeRegister_of_ignoresWrites _ v hreg]

/-! ## Fields of STATUS -/

/-- BW_DIRTY says that the writer is ready and holds a bit that no flush has made final (R54). -/
theorem BitWriter.dirty_iff (bw : BitWriter) :
    bw.dirty = true ↔ bw.bound = true ∧ bw.fault = false ∧ 8 * bw.final.toNat < bw.bits.length := by
  simp [BitWriter.dirty, and_assoc]

/-- The low byte of STATUS is the stored ERR (R42). -/
theorem State.status_err (s : State) : s.status.extractLsb' 0 8 = s.err := by
  refine BitVec.eq_of_getLsbD_eq fun i hi => ?_
  have hbit : s.status.getLsbD i = s.err.getLsbD i := by rw [s.status_getLsbD, if_pos hi]
  simpa [hi] using hbit

/-- Bits [63:14] of STATUS read as 0 (R40). -/
theorem State.status_high (s : State) : s.status.extractLsb' 14 50 = 0 := by
  refine BitVec.eq_of_getLsbD_eq fun i hi => ?_
  have hbit : s.status.getLsbD (14 + i) = false := by
    rw [s.status_getLsbD]
    split_ifs
    case neg => rfl
    all_goals omega
  simp [hbit]

/-! ## The statements -/

/-- Settles O7: the three read-only offsets and every offset from 0x48 on name registers that ignore writes, and a reserved
one reads as 0. -/
theorem readOnlyAndReservedOffsets : Obligations.ReadOnlyAndReservedOffsets := by
  refine ⟨fun s off v rest hoff hag h => ?_, fun s off v rest hle hoff hag h => ?_, fun s off rest hle hoff hag h => ?_⟩
  · obtain rfl | rfl | rfl := hoff
    · exact step_regWrite_ignored rfl rfl hag h
    · exact step_regWrite_ignored rfl rfl hag h
    · exact step_regWrite_ignored rfl rfl hag h
  · have hreg : (Register.atOffset off).ignoresWrites = true := by rw [Register.atOffset_of_le hle]; rfl
    exact step_regWrite_ignored hreg hoff hag h
  · rw [step_regRead hoff hag h, Register.atOffset_of_le hle, State.readRegister]

/-- Settles O9: the single bits are read off `State.status_getLsbD`, and the two ranges of bits have a lemma each. -/
theorem statusFields : Obligations.StatusFields := by
  intro s
  have hdirty : s.status.getLsbD 13 = s.bw.dirty := s.status_getLsbD 13
  exact ⟨s.status_err, s.status_getLsbD 8, s.status_getLsbD 9, s.status_getLsbD 10, s.status_getLsbD 11,
    s.status_getLsbD 12, hdirty ▸ s.bw.dirty_iff, s.status_high⟩

end Sys2Proof.Machine

/-! The command encoding (30_encoding.md R100 to R112): the fields of a command word, the decoder as the inverse of the encoder,
and the rows of the match and mask table, each of which fixes every bit of a value but the field its command uses. Then the
statements. -/

namespace Sys2Proof

/-! ## Command words -/

/-- A command word bit by bit: the three fields at their positions, every other bit 0 (R100). -/
theorem getLsbD_commandWord (opc : BitVec 8) (wc : BitVec 2) (n : BitVec 7) (i : Nat) :
    (commandWord opc wc n).getLsbD i =
      (opc.getLsbD i || (decide (8 ≤ i) && wc.getLsbD (i - 8)) || (decide (16 ≤ i) && n.getLsbD (i - 16))) := by
  simp only [commandWord, BitVec.getLsbD_append, BitVec.getLsbD_zero]
  grind

theorem commandWord_eq_or (opc : BitVec 8) (wc : BitVec 2) (n : BitVec 7) :
    commandWord opc wc n = opc.setWidth 64 ||| (wc.setWidth 64 <<< 8) ||| (n.setWidth 64 <<< 16) := by
  refine BitVec.eq_of_getLsbD_eq fun i hi => ?_
  simp only [getLsbD_commandWord, BitVec.getLsbD_or, BitVec.getLsbD_shiftLeft, BitVec.getLsbD_setWidth]
  grind

@[simp] theorem opcField_commandWord (opc : BitVec 8) (wc : BitVec 2) (n : BitVec 7) :
    opcField (commandWord opc wc n) = opc := by
  refine BitVec.eq_of_getLsbD_eq fun i hi => ?_
  simp only [opcField, BitVec.getLsbD_extractLsb', getLsbD_commandWord]
  grind

@[simp] theorem widthField_commandWord (opc : BitVec 8) (wc : BitVec 2) (n : BitVec 7) :
    widthField (commandWord opc wc n) = wc := by
  refine BitVec.eq_of_getLsbD_eq fun i hi => ?_
  simp only [widthField, BitVec.getLsbD_extractLsb', getLsbD_commandWord]
  grind

@[simp] theorem countField_commandWord (opc : BitVec 8) (wc : BitVec 2) (n : BitVec 7) :
    countField (commandWord opc wc n) = n := by
  refine BitVec.eq_of_getLsbD_eq fun i hi => ?_
  simp only [countField, BitVec.getLsbD_extractLsb', getLsbD_commandWord]
  grind

/-- The bits of a command word outside its fields are 0. -/
theorem extractLsb'_commandWord_eq_zero (opc : BitVec 8) (wc : BitVec 2) (n : BitVec 7) {lo len : Nat}
    (h : ∀ i < len, 10 ≤ lo + i ∧ (lo + i < 16 ∨ 23 ≤ lo + i)) :
    (commandWord opc wc n).extractLsb' lo len = 0 := by
  refine BitVec.eq_of_getLsbD_eq fun i hi => ?_
  have hbit := h i hi
  simp only [BitVec.getLsbD_extractLsb', getLsbD_commandWord]
  grind

@[simp] theorem reservedClear_commandWord (opc : BitVec 8) (wc : BitVec 2) (n : BitVec 7) :
    reservedClear (commandWord opc wc n) = true := by
  simp only [reservedClear, Bool.and_eq_true, beq_iff_eq]
  exact ⟨⟨extractLsb'_commandWord_eq_zero opc wc n (by omega), extractLsb'_commandWord_eq_zero opc wc n (by omega)⟩,
    extractLsb'_commandWord_eq_zero opc wc n (by omega)⟩

/-- `eq_commandWord` with the opcode as the number that the decoder branches on. -/
theorem commandWord_of_opc {c : Word} {k : Nat} (hres : reservedClear c = true) (hopc : (opcField c).toNat = k) :
    commandWord (BitVec.ofNat 8 k) (widthField c) (countField c) = c := by
  rw [← hopc, BitVec.ofNat_toNat, BitVec.setWidth_eq]
  exact (eq_commandWord hres).symm

/-! ## Decoding inverts encoding -/

/-- Decoding the encoding of a well-formed command gives the command back (R109, R112). -/
theorem decode_encode {i : Instr} (h : i.wellFormed = true) : decode (encode i) = .ok i := by
  cases i with
  | brRead n | bwWrite n =>
    have hn : legalCount n = true := h
    simp [decode, encode, countedCommand, hn]
  | gorEnc w | gorDec w | bssEnc w | bssDec w => simp [decode, encode, sizedCommand, Width.ofCode_code]
  | _ => rfl

/-- A value taken for a command without fields is that command's word (R101). -/
theorem encode_of_plainCommand {c : Word} {i j : Instr} {k : Nat} (hres : reservedClear c = true)
    (hopc : (opcField c).toNat = k) (hi : i.wellFormed = true) (henc : encode i = commandWord (BitVec.ofNat 8 k) 0 0)
    (h : plainCommand c i = .ok j) : j.wellFormed = true ∧ encode j = c := by
  obtain ⟨rfl, hn, hwc⟩ := plainCommand_ok h
  have hc := commandWord_of_opc hres hopc
  rw [hn, hwc] at hc
  exact ⟨hi, henc.trans hc⟩

/-- A value taken for a command with a count is the word of that command at the value's count (R103). -/
theorem encode_of_countedCommand {c : Word} {f : BitVec 7 → Instr} {j : Instr} {k : Nat} (hres : reservedClear c = true)
    (hopc : (opcField c).toNat = k) (hf : ∀ n, (f n).wellFormed = legalCount n)
    (henc : ∀ n, encode (f n) = commandWord (BitVec.ofNat 8 k) 0 n) (h : countedCommand c f = .ok j) :
    j.wellFormed = true ∧ encode j = c := by
  obtain ⟨rfl, hn, hwc⟩ := countedCommand_ok h
  have hc := commandWord_of_opc hres hopc
  rw [hwc] at hc
  exact ⟨(hf _).trans hn, (henc _).trans hc⟩

/-- A value taken for a command with a width is the word of that command at the value's width (R104). -/
theorem encode_of_sizedCommand {c : Word} {f : Width → Instr} {j : Instr} {k : Nat} (hres : reservedClear c = true)
    (hopc : (opcField c).toNat = k) (hf : ∀ w, (f w).wellFormed = true)
    (henc : ∀ w, encode (f w) = commandWord (BitVec.ofNat 8 k) w.code 0) (h : sizedCommand c f = .ok j) :
    j.wellFormed = true ∧ encode j = c := by
  obtain ⟨rfl, hn⟩ := sizedCommand_ok h
  have hc := commandWord_of_opc hres hopc
  rw [hn] at hc
  exact ⟨hf _, (henc _).trans (by rw [Width.code_ofCode, hc])⟩

/-- What a value decodes to is well formed, and the value is its encoding (R109). -/
theorem encode_of_decode {c : Word} {i : Instr} (h : decode c = .ok i) : i.wellFormed = true ∧ encode i = c := by
  unfold decode at h
  split at h
  case isFalse => cases h
  case isTrue hres =>
    split at h
    case h_2 hopc | h_10 hopc => exact encode_of_countedCommand hres hopc (fun _ => rfl) (fun _ => rfl) h
    case h_14 hopc | h_15 hopc | h_16 hopc | h_17 hopc =>
      exact encode_of_sizedCommand hres hopc (fun _ => rfl) (fun _ => rfl) h
    case h_18 => cases h
    all_goals exact encode_of_plainCommand hres ‹_› rfl rfl h

theorem decode_eq_ok_iff {c : Word} {i : Instr} : decode c = .ok i ↔ i.wellFormed = true ∧ encode i = c :=
  ⟨encode_of_decode, fun ⟨hi, hc⟩ => hc ▸ decode_encode hi⟩

/-! ## The match and mask table -/

theorem OpcodeRow.spells_iff {r : OpcodeRow} {c : Word} :
    r.spells c = true ↔ c &&& r.mask = r.pattern ∧ (r.counted = true → legalCount (countField c) = true) := by
  cases hr : r.counted <;> simp [OpcodeRow.spells, hr]

/-- The table holds the row of every command, and no other row. -/
theorem mem_opcodeTable_iff {r : OpcodeRow} : r ∈ opcodeTable ↔ ∃ i : Instr, i.row = r := by
  constructor
  · revert r
    simp [opcodeTable]
  · rintro ⟨i, rfl⟩
    cases i <;> simp [opcodeTable, Instr.row]

/-- Bits that a mask covers are those of the pattern. -/
theorem extractLsb'_eq_of_and_eq {c m p : Word} {lo len : Nat} (h : c &&& m = p)
    (hm : m.extractLsb' lo len = BitVec.allOnes len) : c.extractLsb' lo len = p.extractLsb' lo len := by
  rw [← h, BitVec.extractLsb'_and, hm, BitVec.and_allOnes]

/-- Every row's mask covers the opcode and the reserved bits, and its pattern has the reserved bits 0 (R107). -/
theorem opcodeTable_masks : ∀ r ∈ opcodeTable,
    r.mask.extractLsb' 0 8 = BitVec.allOnes 8 ∧ r.mask.extractLsb' 10 6 = BitVec.allOnes 6
    ∧ r.mask.extractLsb' 23 9 = BitVec.allOnes 9 ∧ r.mask.extractLsb' 32 32 = BitVec.allOnes 32
    ∧ reservedClear r.pattern = true := by decide

theorem opcodeTable_opcodes_distinct :
    ∀ r ∈ opcodeTable, ∀ q ∈ opcodeTable, opcField r.pattern = opcField q.pattern → r = q := by decide

/-- A value that spells a row has the row's opcode. -/
theorem opcField_of_spells {r : OpcodeRow} {c : Word} (hr : r ∈ opcodeTable) (h : r.spells c = true) :
    opcField c = opcField r.pattern :=
  extractLsb'_eq_of_and_eq (OpcodeRow.spells_iff.1 h).1 (opcodeTable_masks r hr).1

/-- A value that spells a row is the command word of the row's opcode and of its own fields. -/
theorem commandWord_of_spells {r : OpcodeRow} {c : Word} (hr : r ∈ opcodeTable) (h : r.spells c = true) :
    commandWord (opcField r.pattern) (widthField c) (countField c) = c := by
  obtain ⟨hmask, -⟩ := OpcodeRow.spells_iff.1 h
  obtain ⟨-, h10, h23, h32, hpat⟩ := opcodeTable_masks r hr
  have hres : reservedClear c = true := by
    rw [reservedClear, extractLsb'_eq_of_and_eq hmask h10, extractLsb'_eq_of_and_eq hmask h23,
      extractLsb'_eq_of_and_eq hmask h32]
    exact hpat
  rw [← opcField_of_spells hr h]
  exact (eq_commandWord hres).symm

/-- The command with the fields it uses taken from a value (R103, R104). -/
def Instr.withFieldsOf (c : Word) : Instr → Instr
  | .brRead _ => .brRead (countField c)
  | .bwWrite _ => .bwWrite (countField c)
  | .gorEnc _ => .gorEnc (Width.ofCode (widthField c))
  | .gorDec _ => .gorDec (Width.ofCode (widthField c))
  | .bssEnc _ => .bssEnc (Width.ofCode (widthField c))
  | .bssDec _ => .bssDec (Width.ofCode (widthField c))
  | i => i

/-- A value that spells a row has the row's width field where the mask covers it. -/
theorem widthField_of_spells {r : OpcodeRow} {c : Word} (h : r.spells c = true)
    (hm : widthField r.mask = BitVec.allOnes 2) : widthField c = widthField r.pattern :=
  extractLsb'_eq_of_and_eq (OpcodeRow.spells_iff.1 h).1 hm

/-- A value that spells a row has the row's count field where the mask covers it. -/
theorem countField_of_spells {r : OpcodeRow} {c : Word} (h : r.spells c = true)
    (hm : countField r.mask = BitVec.allOnes 7) : countField c = countField r.pattern :=
  extractLsb'_eq_of_and_eq (OpcodeRow.spells_iff.1 h).1 hm

/-- A value that spells the row of a command is the encoding of that command with the value's own fields. -/
theorem encode_withFieldsOf {i : Instr} {c : Word} (h : i.row.spells c = true) :
    (i.withFieldsOf c).wellFormed = true ∧ encode (i.withFieldsOf c) = c := by
  have hc := commandWord_of_spells (mem_opcodeTable_iff.2 ⟨i, rfl⟩) h
  obtain ⟨-, hcount⟩ := OpcodeRow.spells_iff.1 h
  cases i with
  | brRead n | bwWrite n =>
    simp only [Instr.row] at h hc
    rw [widthField_of_spells h rfl] at hc
    exact ⟨hcount rfl, hc⟩
  | gorEnc w | gorDec w | bssEnc w | bssDec w =>
    simp only [Instr.row] at h hc
    rw [countField_of_spells h rfl] at hc
    exact ⟨rfl, by rw [Instr.withFieldsOf, encode, Width.code_ofCode]; exact hc⟩
  | _ =>
    rw [widthField_of_spells h rfl, countField_of_spells h rfl] at hc
    exact ⟨rfl, hc⟩

theorem decode_of_row_spells {i : Instr} {c : Word} (h : i.row.spells c = true) :
    decode c = .ok (i.withFieldsOf c) := decode_eq_ok_iff.2 (encode_withFieldsOf h)

/-- The encoding of a well-formed command spells the row of the command (R107, R112). -/
theorem row_spells_encode {i : Instr} (h : i.wellFormed = true) : i.row.spells (encode i) = true := by
  cases i with
  | brRead n => exact Laws.EncodeMatchesRow.brRead n h
  | bwWrite n => exact Laws.EncodeMatchesRow.bwWrite n h
  | gorEnc w => exact Laws.EncodeMatchesRow.gorEnc w h
  | gorDec w => exact Laws.EncodeMatchesRow.gorDec w h
  | bssEnc w => exact Laws.EncodeMatchesRow.bssEnc w h
  | bssDec w => exact Laws.EncodeMatchesRow.bssDec w h
  | _ => rfl

/-- A value spells the row of the command it decodes to. -/
theorem row_spells_of_decode {c : Word} {i : Instr} (h : decode c = .ok i) : i.row.spells c = true := by
  obtain ⟨hi, rfl⟩ := encode_of_decode h
  exact row_spells_encode hi

/-- A value is a command exactly when it spells a row of the table. -/
theorem exists_decode_iff_spells {c : Word} : (∃ i, decode c = .ok i) ↔ ∃ r ∈ opcodeTable, r.spells c = true := by
  constructor
  · rintro ⟨i, hi⟩
    exact ⟨i.row, mem_opcodeTable_iff.2 ⟨i, rfl⟩, row_spells_of_decode hi⟩
  · rintro ⟨r, hr, hc⟩
    obtain ⟨i, rfl⟩ := mem_opcodeTable_iff.1 hr
    exact ⟨i.withFieldsOf c, decode_of_row_spells hc⟩

/-! ## Operands -/

/-- The element width is W = 2^wc (R104). -/
theorem Width.bytes_eq_two_pow_code (w : Width) : w.bytes = 2 ^ w.code.toNat := by cases w <;> rfl

/-- log2(W) is the width code (R112). -/
theorem Width.ofNat_log_bytes (w : Width) : BitVec.ofNat 64 (Nat.log 2 w.bytes) = w.code.setWidth 64 := by
  rw [w.bytes_eq_two_pow_code, Nat.log_pow Nat.one_lt_two]
  exact BitVec.ofNat_toNat ..

/-- The encoding of a command with a count only (R112). -/
theorem commandWord_count (opc : BitVec 8) (n : BitVec 7) :
    commandWord opc 0 n = opc.setWidth 64 ||| (n.setWidth 64 <<< 16) := by
  simp [commandWord_eq_or]

/-- The encoding of a command with a width only (R112). -/
theorem commandWord_width (opc : BitVec 8) (w : Width) :
    commandWord opc w.code 0 = opc.setWidth 64 ||| (BitVec.ofNat 64 (Nat.log 2 w.bytes) <<< 8) := by
  simp [commandWord_eq_or, w.ofNat_log_bytes]

end Sys2Proof

namespace Sys2Proof.Machine

open Sys2Proof

/-- A write of CMD by the agent that drives the instance stores the value and performs its command (R32). -/
theorem step_writeCmd {s : State} {c : Word} {rest : List HostOp} (hag : s.agent = s.driver)
    (h : s.host = .regWrite 0x00 .dword c :: rest) : step s = runCommand c { s with host := rest, cmd := c } := by
  have hcmd : Register.atOffset 0x00 = .cmd := rfl
  rw [step_regWrite rfl hag h, hcmd, State.writeRegister]

/-- A value that decodes to no command raises ERR_ILLEGAL (R108). -/
theorem runCommand_of_not_decode {c : Word} (s : State) (h : ¬∃ i, decode c = .ok i) :
    runCommand c s = .next (s.raise .none .illegal) := by
  unfold runCommand
  split
  case h_1 i hi => exact absurd ⟨i, hi⟩ h
  case h_2 => rfl

/-! ## The statements -/

/-- Settles O4: the row of a command and the encoder fix the same bits, and the opcodes of the rows differ. -/
theorem decodeIsMatchAndMask : Obligations.DecodeIsMatchAndMask := by
  refine ⟨fun c => exists_decode_iff_spells, fun c i h => row_spells_of_decode h, fun c r hr q hq hrc hqc => ?_⟩
  exact opcodeTable_opcodes_distinct r hr q hq ((opcField_of_spells hr hrc).symm.trans (opcField_of_spells hq hqc))

/-- Settles O6: such a value decodes to no command, so the write of CMD ends in the error entry of R266, which faults no
unit here. -/
theorem illegalValueRaisesErrIllegal : Obligations.IllegalValueRaisesErrIllegal := by
  intro s c rest hnone hag h
  have hdec : ¬∃ i, decode c = .ok i := by
    intro hex
    obtain ⟨r, hr, hc⟩ := exists_decode_iff_spells.1 hex
    exact absurd hc (by simp [hnone r hr])
  rw [step_writeCmd hag h, runCommand_of_not_decode _ hdec]
  rfl

/-- Settles O1: the operand forms are the command words of one field, and each example is the encoding of its command. -/
theorem specEncodingsAndExamples : Obligations.SpecEncodingsAndExamples := by
  refine ⟨commandWord_count 0x02, commandWord_count 0x12, fun w => ⟨commandWord_width 0x21 w, commandWord_width 0x22 w,
    commandWord_width 0x31 w, commandWord_width 0x32 w⟩, ?_, ?_, ?_, ?_, ?_, ?_, ?_⟩
  all_goals exact decode_eq_ok_iff.2 ⟨rfl, rfl⟩

end Sys2Proof.Machine

/-! The BitReader commands (41_bitreader.md R130 to R142): what each does once the check of R131 has answered, then the
statements. -/

namespace Sys2Proof.Machine

open Sys2Proof

/-! ## A reader that is not ready -/

theorem State.brReady_of_unbound {s : State} (hb : s.br.bound = false) : s.brReady = some .unbound :=
  (s.brReady_eq_some_iff .unbound).2 (.inl ⟨hb, rfl⟩)

theorem State.brReady_of_faulted {s : State} (hb : s.br.bound = true) (hf : s.br.fault = true) :
    s.brReady = some .faulted :=
  (s.brReady_eq_some_iff .faulted).2 (.inr ⟨hb, hf, rfl⟩)

theorem State.brTake_of_notReady {s : State} {e : ErrorCode} (h : s.brReady = some e) (n : Nat) :
    s.brTake n = .next (s.raise .none e) := by rw [State.brTake, h]

theorem State.brReport_of_notReady {s : State} {e : ErrorCode} (h : s.brReady = some e) (v : Word) :
    s.brReport v = .next (s.raise .none e) := by rw [State.brReport, h]

theorem execBrPeek_of_notReady {s : State} {e : ErrorCode} (h : s.brReady = some e) :
    execBrPeek s = .next (s.raise .none e) := by rw [execBrPeek, h]

/-- BR.READ of a legal count is the consumption of that many bits (R134). -/
theorem execBrRead_of_legal {n : BitVec 7} (h1 : 1 ≤ n.toNat) (h64 : n.toNat ≤ 64) (s : State) :
    execBrRead n s = s.brTake n.toNat := if_pos ((legalCount_iff n).2 ⟨h1, h64⟩)

/-- Every command that reads the reader ends in the error of `br_ready()`, which faults no unit (R131). -/
theorem exec_reader_of_notReady {i : Instr} {s : State} {e : ErrorCode}
    (hi : (∃ n, i = .brRead n ∧ 1 ≤ n.toNat ∧ n.toNat ≤ 64) ∨ i = .brReadbit ∨ i = .brPeek ∨ i = .brEof ∨ i = .brCount
      ∨ i = .brRemain) (h : s.brReady = some e) : exec i s = .next (s.raise .none e) := by
  obtain ⟨n, rfl, h1, h64⟩ | rfl | rfl | rfl | rfl | rfl := hi
  case inl => exact (execBrRead_of_legal h1 h64 s).trans (State.brTake_of_notReady h _)
  case inr.inl => exact State.brTake_of_notReady h 1
  case inr.inr.inl => exact execBrPeek_of_notReady h
  all_goals exact State.brReport_of_notReady h _

/-! ## The statements -/

/-- Settles O30: both errors are the answer of `br_ready()`, and raising one without a unit writes only ERR, SHORT, RESULT
and OUT_LEN. -/
theorem readerNotReady : Obligations.ReaderNotReady := by
  intro i s hi
  constructor
  · intro hb
    exact exec_reader_of_notReady hi (State.brReady_of_unbound hb)
  · intro hb hf
    exact exec_reader_of_notReady hi (State.brReady_of_faulted hb hf)

end Sys2Proof.Machine

/-! The BitWriter commands (42_bitwriter.md R160 to R172): a writer that a flush has just made final, the early stores of a
run of writes, then the statements. -/

namespace Sys2Proof.Machine

open Sys2Proof

/-! ## Commands on a ready writer -/

/-- BW.FLUSH on a ready writer is the flush, delivering the count of final bytes (R164). -/
theorem exec_bwFlush_of_ready {s : State} (h : s.bw.ready) :
    exec .bwFlush s = .next (s.bwFlush.deliver s.bwFlush.bw.final.toNat false) := by
  change execBwFlush s = _
  rw [execBwFlush, State.bwReady_of_ready h.1 h.2]

/-- BW.WRITE of a legal count with room for its bits appends them and may store early (R163). -/
theorem exec_bwWrite_of_fits {s : State} {n : BitVec 7} (h : s.bw.ready) (hn : 1 ≤ n.toNat ∧ n.toNat ≤ 64)
    (hfit : s.bw.bits.length + n.toNat ≤ 8 * s.bw.cap.toNat) :
    exec (.bwWrite n) s = .next (s.bwAppend n.toNat).bwDrain.complete := by
  change execBwWrite n s = _
  rw [execBwWrite, if_pos ((legalCount_iff n).2 hn), State.bwReady_of_ready h.1 h.2]
  exact if_neg (Nat.not_lt.2 hfit)

/-! ## A flushed writer -/

/-- Every bit of the writer lies in a byte that a flush has made final (R168). -/
def BitWriter.Flushed (bw : BitWriter) : Prop := bw.bits.length = 8 * bw.final.toNat

/-- The bytes of a writer within its bounds fit its capacity (R167). -/
theorem BitWriter.ceil8_length_le_cap {bw : BitWriter} (h : bw.ready) (hb : bw.inBounds) :
    ceil8 bw.bits.length ≤ bw.cap.toNat := by
  obtain ⟨hbound, hfault⟩ := h
  obtain ⟨-, -, hsize⟩ := hb
  obtain ⟨hbits, -, -⟩ := hsize hbound hfault
  unfold ceil8
  omega

theorem State.toNat_bwFlush_final {s : State} (h : s.bw.ready) (hb : s.bw.inBounds) :
    s.bwFlush.bw.final.toNat = ceil8 s.bw.bits.length := by
  have hcap := BitWriter.ceil8_length_le_cap h hb
  rw [State.bwFlush_final, BitVec.toNat_ofNat, Nat.mod_eq_of_lt (hcap.trans_lt s.bw.cap.isLt)]

theorem State.bwFlush_flushed {s : State} (h : s.bw.ready) (hb : s.bw.inBounds) : s.bwFlush.bw.Flushed := by
  rw [BitWriter.Flushed, State.toNat_bwFlush_final h hb]
  exact s.bw.length_padded

/-- A flush of a flushed writer only clears the record of early stores: no pad bit, no byte (R168). -/
theorem State.bwFlush_of_flushed {s : State} (h : s.bw.Flushed) :
    s.bwFlush = { s with ms := { s.ms with drained := [] } } := by
  have hlen : s.bw.bits.length = 8 * s.bw.final.toNat := h
  have hpad : s.bw.padded = s.bw.bits := by
    rw [BitWriter.padded, padLen_of_dvd (by omega)]
    exact List.append_nil _
  have hfinal : BitVec.ofNat 64 (s.bw.bits.length / 8) = s.bw.final := by
    rw [hlen, Nat.mul_div_cancel_left _ (by decide), BitVec.ofNat_toNat, BitVec.setWidth_eq]
  have hnone : (pack s.bw.bits).drop s.bw.final.toNat = [] := by
    rw [List.drop_eq_nil_iff, length_pack]
    unfold ceil8
    omega
  rw [State.bwFlush, hpad, hfinal, hnone]
  rfl

theorem exec_bwFlush_of_flushed {s : State} (h : s.bw.ready) (hf : s.bw.Flushed) :
    exec .bwFlush s
      = .next (({ s with ms := { s.ms with drained := [] } } : State).deliver s.bw.final.toNat false) := by
  rw [exec_bwFlush_of_ready h, State.bwFlush_of_flushed hf]

/-! ## A run of writes -/

/-- Each byte the writer has stored before a flush is a whole byte of its bits, and memory holds it (R84, R302 (b)). -/
def State.EarlyStoresHeld (s : State) : Prop :=
  ∀ k ∈ s.ms.drained, 8 * (k + 1) ≤ s.bw.bits.length ∧ some (s.byteAt (s.bw.base.toNat + k)) = (pack s.bw.bits)[k]?

/-- From `s` to `t` the writer gained exactly the bits `added`, its early stores are held, and memory changed at most in its
whole bytes that are not final. -/
structure State.Gains (s t : State) (added : List Bool) : Prop where
  bw : t.bw = { s.bw with bits := s.bw.bits ++ added, user := t.bw.user }
  held : t.EarlyStoresHeld
  outside : s.SameMemoryOutside t (s.bw.base.toNat + s.bw.final.toNat) (t.bw.bits.length / 8 - s.bw.final.toNat)

section
variable {s t u : State} {added more : List Bool}

theorem State.Gains.ready (h : s.Gains t added) (hs : s.bw.ready) : t.bw.ready := by rwa [h.bw]
theorem State.Gains.base (h : s.Gains t added) : t.bw.base = s.bw.base := by rw [h.bw]
theorem State.Gains.final (h : s.Gains t added) : t.bw.final = s.bw.final := by rw [h.bw]
theorem State.Gains.bits (h : s.Gains t added) : t.bw.bits = s.bw.bits ++ added := by rw [h.bw]

theorem State.Gains.refl (h : s.EarlyStoresHeld) : s.Gains s [] where
  bw := by rw [List.append_nil]
  held := h
  outside _ _ := rfl

theorem State.Gains.trans (h : s.Gains t added) (h' : t.Gains u more) : s.Gains u (added ++ more) where
  bw := by rw [h'.bw, h.bw, List.append_assoc]
  held := h'.held
  outside a ha := by
    have hlen : u.bw.bits.length = t.bw.bits.length + more.length := by rw [h'.bits, List.length_append]
    have hlast : u.byteAt a = t.byteAt a := h'.outside a (by rw [h.base, h.final]; exact ha)
    have hfirst : t.byteAt a = s.byteAt a := h.outside a (by omega)
    exact hlast.trans hfirst

end

/-- The bytes that a write may store early are whole bytes of `pack(bw.bits)`. -/
theorem getElem?_wholeBytes {bits : List Bool} {final k : Nat} {b : Byte} (hk : final ≤ k)
    (h : some b = (((pack bits).take (bits.length / 8)).drop final)[k - final]?) :
    8 * (k + 1) ≤ bits.length ∧ some b = (pack bits)[k]? := by
  have hlt := (List.getElem?_eq_some_iff.1 h.symm).1
  rw [length_wholeBytes] at hlt
  rw [List.getElem?_drop, Nat.add_sub_cancel' hk, List.getElem?_take_of_lt (by omega)] at h
  exact ⟨by omega, h⟩

/-- The early stores of a write are held: those made before keep their bytes, which later bits do not change, and each new one
is a whole byte of the bits (R302 (b), (c)). -/
theorem State.EarlyStoresHeld.write {s : State} (h : s.EarlyStoresHeld) (n : Nat) :
    (s.bwAppend n).bwDrain.EarlyStoresHeld := by
  intro k hk
  by_cases hold : k ∈ s.ms.drained
  · obtain ⟨hwhole, hbyte⟩ := h k hold
    have hkept : (s.bwAppend n).bwDrain.byteAt (s.bw.base.toNat + k) = s.byteAt (s.bw.base.toNat + k) :=
      (MemSystem.drain_of_mem (bw := (s.bwAppend n).bw) hold).2
    refine ⟨hwhole.trans (by simp), ?_⟩
    calc some ((s.bwAppend n).bwDrain.byteAt (s.bw.base.toNat + k))
        = some (s.byteAt (s.bw.base.toNat + k)) := by rw [hkept]
      _ = (pack s.bw.bits)[k]? := hbyte
      _ = (pack (s.bw.bits ++ bitsN n s.arg.toNat))[k]? := (getElem?_pack_append hwhole).symm
  · obtain ⟨hle, hbyte⟩ := MemSystem.drain_new hold hk
    exact getElem?_wholeBytes hle hbyte

/-- A write of `n` bits of ARG on a writer whose early stores are held gains it those bits (R163). -/
theorem State.EarlyStoresHeld.gains_write {s : State} (h : s.EarlyStoresHeld) (n : Nat) :
    s.Gains (s.bwAppend n).bwDrain.complete (bitsN n s.arg.toNat) where
  bw := rfl
  held := h.write n
  outside := (State.bwDrain_touches (s.bwAppend n)).read

/-- Writes that fit the capacity all succeed, and together gain the writer their bits (R163, R171). -/
theorem State.writeRun_of_fits (ws : List (BitVec 7 × Word)) {s : State} (hs : s.bw.ready) (hh : s.EarlyStoresHeld)
    (hn : ∀ p ∈ ws, 1 ≤ p.1.toNat ∧ p.1.toNat ≤ 64)
    (hfit : s.bw.bits.length + (ws.map fun p => p.1.toNat).sum ≤ 8 * s.bw.cap.toNat) :
    ∃ t, s.writeRun ws = some t ∧ s.Gains t (ws.flatMap fun p => bitsN p.1.toNat p.2.toNat) := by
  induction ws generalizing s with
  | nil => exact ⟨s, rfl, .refl hh⟩
  | cons p ws ih =>
    obtain ⟨n, v⟩ := p
    have hsum : s.bw.bits.length + (n.toNat + (ws.map fun p => p.1.toNat).sum) ≤ 8 * s.bw.cap.toNat := hfit
    have hexec := exec_bwWrite_of_fits (s := { s with arg := v }) hs (hn _ (.head _))
      ((Nat.add_le_add_left (Nat.le_add_right _ _) _).trans hsum)
    have hput := State.EarlyStoresHeld.gains_write (s := { s with arg := v }) hh n.toNat
    have hroom : (s.bw.bits ++ bitsN n.toNat v.toNat).length + (ws.map fun p => p.1.toNat).sum ≤ 8 * s.bw.cap.toNat := by
      rw [List.length_append, length_bitsN]
      omega
    obtain ⟨t, hrun, hgains⟩ := ih (hput.ready hs) hput.held (fun p hp => hn p (.tail _ hp)) hroom
    have hall := hput.trans hgains
    refine ⟨t, ?_, hall.bw, hall.held, hall.outside⟩
    rw [State.writeRun, hexec]
    exact (if_pos rfl).trans hrun

/-- A flush leaves `pack` of the bits in memory when what the writer stored early is held (R161, R303 (b)). -/
theorem State.EarlyStoresHeld.bwFlush_byteAt {s : State} (h : s.EarlyStoresHeld) {k : Nat}
    (hlo : s.bw.final.toNat ≤ k) (hhi : k < ceil8 s.bw.bits.length) :
    some (s.bwFlush.byteAt (s.bw.base.toNat + k)) = (pack s.bw.bits)[k]? := by
  rw [State.bwFlush_byteAt s hlo hhi]
  split
  next hk => exact (h k hk).2
  next => rfl

/-- The bytes of a writer of which none was final before its flush. -/
theorem State.EarlyStoresHeld.bytes_bwFlush {s : State} (h : s.EarlyStoresHeld) (hfinal : s.bw.final.toNat = 0) :
    Memory.bytes s.bwFlush.ms.cells s.bw.base.toNat (ceil8 s.bw.bits.length) = pack s.bw.bits := by
  rw [← length_pack]
  exact Memory.bytes_eq_of_read fun k hk =>
    h.bwFlush_byteAt (hfinal.trans_le (Nat.zero_le k)) (hk.trans_eq (length_pack _))

/-- A writer that BW.INIT has bound holds no bit, and nothing of it is stored early (R162). -/
theorem bw_of_exec_bwInit {s t : State} (hpass : s.platform.admitOne s.dstBase s.dstCap = .pass)
    (h : exec .bwInit s = .next t) :
    t.bw = ⟨true, false, s.dstBase, s.dstCap, [], 0, 0⟩ ∧ t.ms.drained = [] := by
  obtain ⟨e, herr, -⟩ | ⟨-, rfl⟩ := execBwInit_next h
  · rw [hpass] at herr
    cases herr
  · exact ⟨rfl, rfl⟩

/-! ## The statements -/

/-- Settles O39: a flush leaves the writer flushed, and a flush of a flushed writer changes no unit and no byte. -/
theorem flushFitsAndIsIdempotent : Obligations.FlushFitsAndIsIdempotent := by
  intro s t hs hb ht
  rw [exec_bwFlush_of_ready hs] at ht
  cases ht
  have hcap := BitWriter.ceil8_length_le_cap hs hb
  have hfinal := State.toNat_bwFlush_final hs hb
  have hflushed : s.bwFlush.bw.bits.length = 8 * s.bwFlush.bw.final.toNat := State.bwFlush_flushed hs hb
  refine ⟨?_, ?_, hflushed, ?_, ?_⟩
  · calc s.bwFlush.bw.bits.length = 8 * ceil8 s.bw.bits.length := by rw [hflushed, hfinal]
      _ ≤ 8 * s.bw.cap.toNat := Nat.mul_le_mul_left 8 hcap
  · exact hfinal.trans_le hcap
  · exact exec_bwFlush_of_flushed hs hflushed
  · intro u hu
    have hready : u.bw.ready := by rw [hu]; exact hs
    have huf : u.bw.Flushed := by rw [hu]; exact hflushed
    refine ⟨_, exec_bwFlush_of_flushed hready huf, rfl, ?_, rfl⟩
    rw [State.deliver_outLen, hu]
    rfl

/-- Settles O43: after BW.INIT nothing is stored early, each write keeps the early stores held, and the flush stores the
rest. -/
theorem writesThenFlushGiveTheirBytes : Obligations.WritesThenFlushGiveTheirBytes := by
  intro s t ws hpass hinit hn hfit
  simp only [bitsN_mod]
  obtain ⟨hbw, hdrained⟩ := bw_of_exec_bwInit hpass hinit
  have hready : t.bw.ready := by rw [hbw]; exact ⟨rfl, rfl⟩
  have hheld : t.EarlyStoresHeld := by simp [State.EarlyStoresHeld, hdrained]
  obtain ⟨u, hrun, hgains⟩ := State.writeRun_of_fits ws hready hheld hn (by simpa [hbw] using hfit)
  have hbits : u.bw.bits = ws.flatMap fun p => bitsN p.1.toNat p.2.toNat := by rw [hgains.bits, hbw, List.nil_append]
  have hlen : u.bw.bits.length = (ws.map fun p => p.1.toNat).sum := by simp [hbits, List.length_flatMap]
  have hbase : u.bw.base = s.dstBase := by rw [hgains.base, hbw]
  have hfinal : u.bw.final.toNat = 0 := by rw [hgains.final, hbw]; rfl
  have hflush := exec_bwFlush_of_ready (hgains.ready hready)
  rw [← hbits, ← hlen, ← hbase]
  refine ⟨u, _, hrun, hflush, rfl, ?_, hgains.held.bytes_bwFlush hfinal, ?_⟩
  · rw [State.deliver_outLen, BitVec.ofNat_toNat, BitVec.setWidth_eq, State.bwFlush_final]
  · intro a ha
    have hflushed : u.bwFlush.byteAt a = u.byteAt a := by
      apply u.bwFlush_touches.read
      simpa [hfinal] using ha
    have hwritten : u.byteAt a = t.byteAt a := by
      apply hgains.outside
      rw [← hgains.base, ← hgains.final, hfinal]
      unfold ceil8 at ha
      omega
    exact hflushed.trans hwritten

end Sys2Proof.Machine

/-! The Gorilla commands, and the source of a Gorilla or BSS command (43_gorilla.md R190 to R216, 44_bytestreamsplit.md R243):
the shapes of an item, a successful command as a function of its source bytes, then the statements. -/

namespace Sys2Proof.Machine

open Sys2Proof

/-! ## The item codes -/

theorem encItem_zero (w : Width) (win : Window) : encItem w 0 win = ([false], win) := if_pos rfl

theorem encItem_of_reuse {w : Width} {x : Nat} {win : Window} (hx : x ≠ 0)
    (h : win.lz ≤ (Window.ofXor w x).lz ∧ win.tz ≤ (Window.ofXor w x).tz ∧ win.dataBits ≠ 0) :
    encItem w x win = ([true, false] ++ bitsN win.dataBits (x >>> win.tz), win) := by
  rw [encItem, if_neg hx, if_pos h]
  rfl

theorem encItem_of_newWindow {w : Width} {x : Nat} {win : Window} (hx : x ≠ 0)
    (h : ¬(win.lz ≤ (Window.ofXor w x).lz ∧ win.tz ≤ (Window.ofXor w x).tz ∧ win.dataBits ≠ 0)) :
    encItem w x win
      = ([true, true] ++ bitsN w.leadingZeroBitlen (Window.ofXor w x).lz
          ++ bitsN w.dataBitlen (Window.ofXor w x).dataBits
          ++ bitsN (Window.ofXor w x).dataBits (x >>> (Window.ofXor w x).tz), Window.ofXor w x) := by
  rw [encItem, if_neg hx, if_neg h]
  rfl

/-- What a window that contains an XOR leaves of it fits the window's bits (R198). -/
theorem shiftRight_lt_of_window {w : Width} {x : Nat} {win : Window} (hlt : x < 2 ^ w.bits)
    (hlz : win.lz ≤ clz w.bits x) (hsum : win.lz + win.dataBits + win.tz = w.bits) :
    x >>> win.tz < 2 ^ win.dataBits := by
  rw [Nat.shiftRight_eq_div_pow]
  apply Nat.div_lt_of_lt_mul
  calc x < 2 ^ (w.bits - clz w.bits x) := lt_two_pow_clz hlt
    _ ≤ 2 ^ (win.tz + win.dataBits) := Nat.pow_le_pow_right (by omega) (by omega)
    _ = 2 ^ win.tz * 2 ^ win.dataBits := Nat.pow_add 2 _ _

/-- The two fields of a new-window item are wide enough for the window of any XOR (R193, R199). -/
theorem Window.ofXor_fields_lt {w : Width} {x : Nat} (hx : x ≠ 0) (hlt : x < 2 ^ w.bits) :
    (Window.ofXor w x).lz < 2 ^ w.leadingZeroBitlen ∧ (Window.ofXor w x).dataBits < 2 ^ w.dataBitlen := by
  have hsum := Window.ofXor_sum hx hlt
  have hpos := Window.ofXor_dataBits_pos hx hlt
  have hfield := w.bits_lt_two_pow_dataBitlen
  rw [Width.two_pow_leadingZeroBitlen]
  omega

/-! ## Decoding one item -/

theorem takeVal_of_lt {n : Nat} {r : List Bool} (h : r.length < n) : takeVal n r = .error .underrun := by
  rw [takeVal_eq, if_neg (by omega)]

theorem takeVal_of_le {n : Nat} {r : List Bool} (h : n ≤ r.length) : takeVal n r = .ok (val (r.take n), r.drop n) := by
  rw [takeVal_eq, if_pos h]

theorem decPayload_of_lt {win : Window} {r : List Bool} (h : r.length < win.dataBits) :
    decPayload win r = .error .underrun := by rw [decPayload, takeVal_of_lt h]

theorem decPayload_of_le {win : Window} {r : List Bool} (h : win.dataBits ≤ r.length) :
    decPayload win r = .ok (val (r.take win.dataBits) <<< win.tz, win, r.drop win.dataBits) := by
  rw [decPayload, takeVal_of_le h]

/-- A new-window item too short for its two fields underruns at whichever of them is cut (R209, R264). -/
theorem decNewWindow_of_lt {w : Width} {r : List Bool} (h : r.length < w.leadingZeroBitlen + w.dataBitlen) :
    decNewWindow w r = .error .underrun := by
  by_cases hlz : r.length < w.leadingZeroBitlen
  · rw [decNewWindow, takeVal_of_lt hlz]
  · have hdb : (r.drop w.leadingZeroBitlen).length < w.dataBitlen := by
      rw [List.length_drop]
      omega
    rw [decNewWindow, takeVal_of_le (by omega)]
    simp only [takeVal_of_lt hdb]

/-- A new-window item with both fields: a bad window is corrupt, and a good one takes its payload (R209). -/
theorem decNewWindow_fields {w : Width} {lz db : Nat} (p : List Bool) (hlz : lz < 2 ^ w.leadingZeroBitlen)
    (hdb : db < 2 ^ w.dataBitlen) :
    decNewWindow w (bitsN w.leadingZeroBitlen lz ++ bitsN w.dataBitlen db ++ p)
      = if db = 0 ∨ w.bits < lz + db then .error .corrupt else decPayload ⟨lz, db, w.bits - lz - db⟩ p := by
  rw [List.append_assoc, decNewWindow, takeVal_bitsN _ _ _ hlz]
  simp only [takeVal_bitsN _ _ _ hdb]

theorem decItem_reuse {w : Width} {win : Window} (r : List Bool) (h : win.dataBits ≠ 0) :
    decItem w win (true :: false :: r) = decPayload win r := if_neg h

theorem decItem_newWindow (w : Width) (win : Window) (r : List Bool) :
    decItem w win (true :: true :: r) = decNewWindow w r := rfl

/-! ## The source bytes -/

theorem Memory.take_bytes (m : Memory) (a : Nat) {n k : Nat} (h : k ≤ n) :
    (Memory.bytes m a n).take k = Memory.bytes m a k := by
  have hsplit := Memory.bytes_append m a k (n - k)
  rw [Nat.add_sub_cancel' h] at hsplit
  rw [hsplit, List.take_left' (Memory.length_bytes m a k)]

theorem Memory.drop_bytes (m : Memory) (a : Nat) {n k : Nat} (h : k ≤ n) :
    (Memory.bytes m a n).drop k = Memory.bytes m (a + k) (n - k) := by
  have hsplit := Memory.bytes_append m a k (n - k)
  rw [Nat.add_sub_cancel' h] at hsplit
  rw [hsplit, List.drop_left' (Memory.length_bytes m a k)]

/-- The words of a range are those of its bytes, wherever they lie (R192). -/
theorem Memory.words_congr {m m' : Memory} {a a' w n : Nat}
    (h : Memory.bytes m' a' (n * w) = Memory.bytes m a (n * w)) : Memory.words m' a' w n = Memory.words m a w n := by
  induction n generalizing a a' with
  | zero => rfl
  | succ n ih =>
    rw [Nat.succ_mul, Nat.add_comm (n * w) w, Memory.bytes_append, Memory.bytes_append] at h
    obtain ⟨hfirst, hrest⟩ := List.append_inj h (by simp)
    rw [Memory.words, Memory.words, ih hrest, Memory.word, Memory.word, hfirst]

theorem State.streamCount_eq {s : State} (h : 8 ≤ s.srcLen.toNat) : s.streamCount = leVal (s.srcBytes.take 8) := by
  rw [State.srcBytes, Memory.take_bytes _ _ h]
  rfl

theorem State.streamFirst_eq {s : State} {w : Width} (h : 8 + w.bytes ≤ s.srcLen.toNat) :
    s.streamFirst w = leVal ((s.srcBytes.drop 8).take w.bytes) := by
  rw [State.srcBytes, Memory.drop_bytes _ _ (by omega), Memory.take_bytes _ _ (by omega)]
  rfl

theorem State.streamTail_eq {s : State} {w : Width} (h : 8 + w.bytes ≤ s.srcLen.toNat) :
    s.streamTail w = stream (s.srcBytes.drop (8 + w.bytes)) := by
  rw [State.srcBytes, Memory.drop_bytes _ _ h, State.streamTail, Nat.sub_sub, Nat.add_assoc]

theorem State.srcWords_lt {s : State} {w : Width} {x : Nat} (h : x ∈ s.srcWords w) : x < 2 ^ w.bits :=
  Memory.mem_words_lt h

/-- A source of whole words is the bytes of its words (R192). -/
theorem State.flatMap_leBytes_srcWords {s : State} {w : Width} (h : s.srcLen.toNat % w.bytes = 0) :
    (s.srcWords w).flatMap (leBytes w.bytes) = s.srcBytes := by
  rw [State.srcWords, Memory.flatMap_leBytes_words, Nat.div_mul_cancel (Nat.dvd_of_mod_eq_zero h), State.srcBytes]

theorem State.length_srcWords_mul {s : State} {w : Width} (h : s.srcLen.toNat % w.bytes = 0) :
    (s.srcWords w).length * w.bytes = s.srcLen.toNat := by
  rw [State.srcWords, Memory.length_words, Nat.div_mul_cancel (Nat.dvd_of_mod_eq_zero h)]

/-! ## Successful commands -/

theorem ErrorCode.code_ne_zero (e : ErrorCode) : e.code ≠ 0 := by cases e <;> decide

theorem State.err_ne_zero_of_raise {s t : State} {u : FaultUnit} {e : ErrorCode} (h : t = s.raise u e) : t.err ≠ 0 :=
  h ▸ e.code_ne_zero

/-- A successful GOR.ENC had whole words and room for their stream, and stored it (R195, R202). -/
theorem execGorEnc_success {w : Width} {s t : State} (h : exec (.gorEnc w) s = .next t) (herr : t.err = 0) :
    s.srcLen.toNat % w.bytes = 0 ∧ (gorillaEncode w (s.srcWords w)).length ≤ s.dstCap.toNat
      ∧ t = (s.store s.dstBase.toNat (gorillaEncode w (s.srcWords w))).deliver
          (gorillaEncode w (s.srcWords w)).length false := by
  obtain ⟨e, -, heq⟩ | ⟨-, rfl⟩ := execGorEnc_next h
  · exact absurd herr (State.err_ne_zero_of_raise heq)
  · obtain ⟨-, heq⟩ | ⟨-, -, heq⟩ | hstored := s.gorEncode_cases w
    · exact absurd herr (State.err_ne_zero_of_raise heq)
    · exact absurd herr (State.err_ne_zero_of_raise heq)
    · exact hstored

/-- The source holds the parts of a stream that a decode reads: the count, and the first word unless the count is 0
(R204). -/
def State.HoldsHeader (s : State) (w : Width) : Prop :=
  8 ≤ s.srcLen.toNat ∧ (s.streamCount ≠ 0 → 8 + w.bytes ≤ s.srcLen.toNat)

/-- The bytes that a Gorilla or BSS command stores when it succeeds (R195, R210, R241, R242). -/
def State.arrayBytes (s : State) : Instr → List Byte
  | .gorEnc w => gorillaEncode w (s.srcWords w)
  | .gorDec w => if s.streamCount = 0 then [] else (s.streamWords w).flatMap (leBytes w.bytes)
  | .bssEnc w => bssSplit w.bytes (s.srcLen.toNat / w.bytes) s.srcBytes
  | .bssDec w => bssJoin w.bytes (s.srcLen.toNat / w.bytes) s.srcBytes
  | _ => []

/-- The SHORT of a Gorilla or BSS command when it succeeds: fewer words than the count came out of GOR.DEC (R210). -/
def State.arrayShort (s : State) : Instr → Bool
  | .gorDec w => decide ((s.streamWords w).length < s.streamCount)
  | _ => false

/-- A successful GOR.DEC found its header and stored the words of the stream (R204, R206, R210). -/
theorem execGorDec_success {w : Width} {s t : State} (h : exec (.gorDec w) s = .next t) (herr : t.err = 0) :
    s.HoldsHeader w ∧ t = (s.store s.dstBase.toNat (s.arrayBytes (.gorDec w))).deliver
      (s.arrayBytes (.gorDec w)).length (s.arrayShort (.gorDec w)) := by
  obtain ⟨e, -, heq⟩ | ⟨-, rfl⟩ := execGorDec_next h
  · exact absurd herr (State.err_ne_zero_of_raise heq)
  · obtain ⟨-, heq⟩ | ⟨h8, h0, heq⟩ | ⟨-, -, -, heq⟩ | ⟨-, -, -, heq⟩
      | ⟨hW, h0, -, ⟨e, -, heq⟩ | ⟨xs, short, htail, heq⟩⟩ := s.gorDecode_cases w
    · exact absurd herr (State.err_ne_zero_of_raise heq)
    · have hbytes : s.arrayBytes (.gorDec w) = [] := by rw [State.arrayBytes, if_pos h0]
      have hshort : s.arrayShort (.gorDec w) = false := by simp [State.arrayShort, h0]
      rw [heq, hbytes, hshort]
      exact ⟨⟨h8, fun hc => absurd h0 hc⟩, rfl⟩
    · exact absurd herr (State.err_ne_zero_of_raise heq)
    · exact absurd herr (State.err_ne_zero_of_raise heq)
    · exact absurd herr (State.err_ne_zero_of_raise heq)
    · have hwords : s.streamWords w = s.streamFirst w :: xs := by rw [State.streamWords, decWords_of_ok htail]
      have hbytes : s.arrayBytes (.gorDec w) = (s.streamFirst w :: xs).flatMap (leBytes w.bytes) := by
        rw [State.arrayBytes, if_neg h0, hwords]
      have hshort : s.arrayShort (.gorDec w) = short := by
        have hiff := (decTail_length htail).2
        rw [Bool.eq_iff_iff, hiff, State.arrayShort, hwords, decide_eq_true_iff, List.length_cons]
        omega
      rw [heq, hbytes, hshort, length_flatMap_leBytes]
      exact ⟨⟨by omega, fun _ => hW⟩, rfl⟩

/-- A successful BSS command stored what it makes of the source bytes (R240, R242). -/
theorem State.bssMove_success {s : State} {w : Width} {f : Nat → List Byte → List Byte}
    (hf : ∀ n bs, (f n bs).length = n * w.bytes) (herr : (s.bssMove w f).err = 0) :
    s.bssMove w f = (s.store s.dstBase.toNat (f (s.srcLen.toNat / w.bytes) s.srcBytes)).deliver
      (f (s.srcLen.toNat / w.bytes) s.srcBytes).length false := by
  obtain ⟨-, heq⟩ | ⟨-, -, heq⟩ | ⟨hmod, -, heq⟩ := s.bssMove_cases w f
  · exact absurd herr (State.err_ne_zero_of_raise heq)
  · exact absurd herr (State.err_ne_zero_of_raise heq)
  · rw [heq, hf, Nat.div_mul_cancel (Nat.dvd_of_mod_eq_zero hmod)]

/-- A successful Gorilla or BSS command stores its bytes at DST_BASE and delivers their number and its SHORT (R202, R210,
R240, R242). -/
theorem exec_array_success {i : Instr} {s t : State} (hi : i.isArray = true) (h : exec i s = .next t)
    (herr : t.err = 0) :
    t = (s.store s.dstBase.toNat (s.arrayBytes i)).deliver (s.arrayBytes i).length (s.arrayShort i) := by
  cases i with
  | gorEnc w =>
    obtain ⟨-, -, hstored⟩ := execGorEnc_success h herr
    exact hstored
  | gorDec w => exact (execGorDec_success h herr).2
  | bssEnc w =>
    obtain ⟨e, -, heq⟩ | ⟨-, rfl⟩ := execBssEnc_next h
    · exact absurd herr (State.err_ne_zero_of_raise heq)
    · exact State.bssMove_success (fun n bs => by rw [length_bssSplit, Nat.mul_comm]) herr
  | bssDec w =>
    obtain ⟨e, -, heq⟩ | ⟨-, rfl⟩ := execBssDec_next h
    · exact absurd herr (State.err_ne_zero_of_raise heq)
    · exact State.bssMove_success (fun n bs => length_bssJoin _ _ _) herr
  | _ => exact Bool.noConfusion hi

/-- The bytes at an address of a store, as many as one asks for. -/
theorem State.bytes_store (s : State) (a : Nat) {bs : List Byte} {k : Nat} (h : k ≤ bs.length) :
    Memory.bytes (s.store a bs).ms.cells a k = bs.take k := by
  rw [← Memory.take_bytes _ _ h, State.store_ms, MemSystem.bytes_putAll]

/-! ## Dependence on the source alone -/

/-- Two states have the same source bytes, wherever each holds them. -/
def State.SameSource (s s' : State) : Prop := s'.srcLen = s.srcLen ∧ s'.srcBytes = s.srcBytes

section
variable {s s' : State} {w : Width}

theorem State.SameSource.srcWords (h : s.SameSource s') : s'.srcWords w = s.srcWords w := by
  obtain ⟨hlen, hbytes⟩ := h
  have hle : s.srcLen.toNat / w.bytes * w.bytes ≤ s.srcLen.toNat := Nat.div_mul_le_self _ _
  rw [State.srcWords, State.srcWords, hlen]
  apply Memory.words_congr
  calc Memory.bytes s'.ms.cells s'.srcBase.toNat (s.srcLen.toNat / w.bytes * w.bytes)
      = s'.srcBytes.take (s.srcLen.toNat / w.bytes * w.bytes) := by
        rw [State.srcBytes, Memory.take_bytes _ _ (by rwa [hlen])]
    _ = s.srcBytes.take (s.srcLen.toNat / w.bytes * w.bytes) := by rw [hbytes]
    _ = Memory.bytes s.ms.cells s.srcBase.toNat (s.srcLen.toNat / w.bytes * w.bytes) := Memory.take_bytes _ _ hle

theorem State.SameSource.streamCount (h : s.SameSource s') (h8 : 8 ≤ s.srcLen.toNat) :
    s'.streamCount = s.streamCount := by
  obtain ⟨hlen, hbytes⟩ := h
  rw [State.streamCount_eq (hlen ▸ h8), State.streamCount_eq h8, hbytes]

theorem State.SameSource.streamWords (h : s.SameSource s') (hW : 8 + w.bytes ≤ s.srcLen.toNat) :
    s'.streamWords w = s.streamWords w := by
  have hcount := h.streamCount (by omega)
  obtain ⟨hlen, hbytes⟩ := h
  have hW' : 8 + w.bytes ≤ s'.srcLen.toNat := by rwa [hlen]
  have hfirst : s'.streamFirst w = s.streamFirst w := by
    rw [State.streamFirst_eq hW', State.streamFirst_eq hW, hbytes]
  have htail : s'.streamTail w = s.streamTail w := by
    rw [State.streamTail_eq hW', State.streamTail_eq hW, hbytes]
  rw [State.streamWords, State.streamWords, hcount, hfirst, htail]

theorem State.SameSource.gorDec (h : s.SameSource s') (hs : s.HoldsHeader w) :
    s'.arrayBytes (.gorDec w) = s.arrayBytes (.gorDec w) ∧ s'.arrayShort (.gorDec w) = s.arrayShort (.gorDec w) := by
  obtain ⟨h8, hW⟩ := hs
  have hcount := h.streamCount h8
  by_cases h0 : s.streamCount = 0
  · simp [State.arrayBytes, State.arrayShort, hcount, h0]
  · simp only [State.arrayBytes, State.arrayShort, hcount, h.streamWords (hW h0), and_self]

/-- What a successful Gorilla or BSS command stores and its SHORT are the same from every state with its source bytes
(R216, R243 (d)). -/
theorem State.SameSource.array (h : s.SameSource s') {i : Instr} (hi : i.isArray = true)
    (hs : ∀ w, i = .gorDec w → s.HoldsHeader w) :
    s'.arrayBytes i = s.arrayBytes i ∧ s'.arrayShort i = s.arrayShort i := by
  cases i with
  | gorEnc w => exact ⟨congrArg (gorillaEncode w) h.srcWords, rfl⟩
  | gorDec w => exact h.gorDec (hs w rfl)
  | bssEnc w | bssDec w =>
    obtain ⟨hlen, hbytes⟩ := h
    simp only [State.arrayBytes, State.arrayShort, hlen, hbytes, and_self]
  | _ => exact Bool.noConfusion hi

end

/-! ## Decoding the stream of an encode -/

theorem leVal_leBytes_of_lt {n v : Nat} (h : v < 2 ^ (8 * n)) : leVal (leBytes n v) = v := by
  rw [leVal_leBytes, Nat.mod_eq_of_lt h]

/-- The parts of the stream at a source that holds a count, a first word and bytes after them (R204, R206). -/
theorem State.stream_parts {s : State} {w : Width} {n x : Nat} {p : List Byte} (hn : n < 2 ^ 64) (hx : x < 2 ^ w.bits)
    (h : s.srcBytes = leBytes 8 n ++ leBytes w.bytes x ++ p) :
    8 + w.bytes ≤ s.srcLen.toNat ∧ s.streamCount = n ∧ s.streamFirst w = x ∧ s.streamTail w = stream p := by
  have hlen : s.srcLen.toNat = 8 + w.bytes + p.length := by
    rw [← s.length_srcBytes, h]
    simp [Nat.add_assoc]
  have hW : 8 + w.bytes ≤ s.srcLen.toNat := by omega
  refine ⟨hW, ?_, ?_, ?_⟩
  · rw [State.streamCount_eq (by omega), h, List.append_assoc, List.take_left' (length_leBytes 8 n),
      leVal_leBytes_of_lt hn]
  · rw [State.streamFirst_eq hW, h, List.append_assoc, List.drop_left' (length_leBytes 8 n),
      List.take_left' (length_leBytes _ x), leVal_leBytes_of_lt hx]
  · rw [State.streamTail_eq hW, h, List.drop_left' (by simp)]

/-- GOR.DEC of the stream of some words, with room for them, stores exactly those words (R213). -/
theorem State.gorDecode_of_gorillaEncode {s : State} {w : Width} {xs : List Nat} (h : s.srcBytes = gorillaEncode w xs)
    (hn : xs.length < 2 ^ 64) (hxs : ∀ x ∈ xs, x < 2 ^ w.bits) (hcap : xs.length * w.bytes ≤ s.dstCap.toNat) :
    s.gorDecode w
      = (s.store s.dstBase.toNat (xs.flatMap (leBytes w.bytes))).deliver (xs.length * w.bytes) false := by
  cases xs with
  | nil =>
    have hlen : s.srcLen.toNat = 8 := by
      rw [← s.length_srcBytes, h, gorillaEncode, length_leBytes]
    have hcount : s.streamCount = 0 := by
      rw [State.streamCount_eq (by omega), h]
      rfl
    rw [State.gorDecode, if_neg (by omega), if_pos hcount, List.length_nil, Nat.zero_mul]
    rfl
  | cons x xs =>
    have hx := hxs x List.mem_cons_self
    obtain ⟨hW, hcount, hfirst, htail⟩ := State.stream_parts hn hx h
    rw [List.length_cons] at hcap hcount
    have hdec : decTail w (s.streamCount - 1) .initial (s.streamFirst w) (s.streamTail w) = .ok (xs, false) := by
      rw [hcount, hfirst, htail, stream_pack]
      exact decTail_encTail xs _ hx (fun y hy => hxs y (List.mem_cons_of_mem _ hy)) (Window.fits_initial w)
    rw [State.gorDecode, if_neg (by omega), if_neg (by omega), if_neg (by omega), if_neg (by rw [hcount]; omega), hdec,
      hfirst]
    rfl

theorem exec_gorDec_of_pass {s : State} (w : Width) (h : s.arrayAdmission = .pass) :
    exec (.gorDec w) s = .next (s.gorDecode w) := by
  change execGorDec w s = _
  rw [execGorDec, h]

/-! ## The statements -/

/-- Settles O46: the leading and trailing zeros of the XOR are those of `Window.ofXor`, whose lemmas give each clause. -/
theorem gorillaItemCodes : Obligations.GorillaItemCodes := by
  refine ⟨encItem_zero, fun w x win hx hlt => ?_⟩
  have hsum := Window.ofXor_sum hx hlt
  have hpos := Window.ofXor_dataBits_pos hx hlt
  have htop := testBit_clz hx hlt
  have hlow := testBit_ctz hx hlt
  refine ⟨(Window.ofXor w x).lz, (Window.ofXor w x).tz, (Window.ofXor w x).dataBits, hsum, hpos, htop,
    lt_two_pow_clz hlt, hlow, fun i hi => testBit_of_ctz hi, fun hlz htz hdb => ?_, fun hnew => ?_⟩
  · exact ⟨encItem_of_reuse hx ⟨hlz, htz, hdb⟩, shiftLeft_shiftRight_of_ctz htz, shiftRight_lt_of_window hlt hlz⟩
  · obtain ⟨hlzField, hdbField⟩ := Window.ofXor_fields_lt hx hlt
    refine ⟨encItem_of_newWindow hx hnew, hlzField, hdbField, ?_, ?_⟩
    · have hbit : (Window.ofXor w x).tz + ((Window.ofXor w x).dataBits - 1)
          = w.bits - 1 - (Window.ofXor w x).lz := by omega
      rw [Nat.testBit_shiftRight, hbit]
      exact htop
    · rw [Nat.testBit_shiftRight]
      exact hlow

/-- Settles O51: the first two bits choose the kind of item, and each kind has an equation per way it can end. -/
theorem gorillaItemDecoding : Obligations.GorillaItemDecoding := by
  intro w win r
  refine ⟨rfl, rfl, fun h0 => if_pos h0, fun h0 hlt => ?_, fun h0 hle => ?_, decNewWindow_of_lt, ?_⟩
  · rw [decItem_reuse r h0, decPayload_of_lt hlt]
  · rw [decItem_reuse r h0, decPayload_of_le hle]
  · rintro lz db p hlz hdb rfl
    rw [decItem_newWindow, decNewWindow_fields p hlz hdb]
    refine ⟨fun hbad => if_pos hbad, fun h0 hsum hlt => ?_, fun h0 hsum hle => ?_⟩
    · rw [if_neg (by omega), decPayload_of_lt hlt]
    · rw [if_neg (by omega), decPayload_of_le hle]

/-- Settles O55: the source of the second command is the stream of the words of the first, and GOR.DEC of such a stream
stores those words. -/
theorem gorillaRoundTrip : Obligations.GorillaRoundTrip := by
  intro s t u w hexec herr hpass hlen hbytes hcap
  obtain ⟨hmod, hfit, rfl⟩ := execGorEnc_success hexec herr
  have hwords := State.length_srcWords_mul hmod
  have hout : (BitVec.ofNat 64 (gorillaEncode w (s.srcWords w)).length).toNat
      = (gorillaEncode w (s.srcWords w)).length := by
    rw [BitVec.toNat_ofNat, Nat.mod_eq_of_lt (hfit.trans_lt s.dstCap.isLt)]
  have hsrc : u.srcBytes = gorillaEncode w (s.srcWords w) := by
    rw [State.srcBytes, hbytes, State.deliver_outLen, hout]
    exact MemSystem.bytes_putAll _ _ _ _ _
  have hn : (s.srcWords w).length < 2 ^ 64 :=
    ((Nat.le_mul_of_pos_right _ w.bytes_pos).trans_eq hwords).trans_lt s.srcLen.isLt
  have hdec := State.gorDecode_of_gorillaEncode hsrc hn (fun x hx => State.srcWords_lt hx) (by rwa [hwords])
  rw [State.flatMap_leBytes_srcWords hmod, hwords] at hdec
  refine ⟨_, exec_gorDec_of_pass w hpass, ?_⟩
  rw [hdec]
  refine ⟨rfl, rfl, by simp, ?_⟩
  change _ = s.srcBytes
  rw [← s.length_srcBytes]
  exact MemSystem.bytes_putAll _ _ _ _ _

/-- Settles O59: a successful command stores and delivers what `State.arrayBytes` and `State.arrayShort` say, and these
read nothing but the source. -/
theorem arrayCommandsDependOnTheSourceAlone : Obligations.ArrayCommandsDependOnTheSourceAlone := by
  intro i s s' t t' hi hexec hexec' herr herr' hlen hbytes
  have hsame : s.SameSource s' := ⟨hlen, by rw [State.srcBytes, hlen]; exact hbytes⟩
  have hheader : ∀ w, i = .gorDec w → s.HoldsHeader w := by
    rintro w rfl
    exact (execGorDec_success hexec herr).1
  obtain ⟨hout, hshort⟩ := hsame.array hi hheader
  obtain rfl := exec_array_success hi hexec herr
  have ht' := exec_array_success hi hexec' herr'
  rw [hout, hshort] at ht'
  subst ht'
  have hle : (BitVec.ofNat 64 (s.arrayBytes i).length).toNat ≤ (s.arrayBytes i).length := by
    rw [BitVec.toNat_ofNat]
    exact Nat.mod_le _ _
  refine ⟨rfl, rfl, ?_⟩
  exact (State.bytes_store s' _ hle).trans (State.bytes_store s _ hle).symm

end Sys2Proof.Machine

/-! The byte-stream-split commands (44_bytestreamsplit.md R240 to R242): what a move stores, byte for byte, then the
statement. -/

namespace Sys2Proof.Machine

open Sys2Proof

theorem State.getD_srcBytes {s : State} {k : Nat} (h : k < s.srcLen.toNat) :
    s.srcBytes.getD k 0 = s.byteAt (s.srcBase.toNat + k) := by
  rw [List.getD_eq_getElem?_getD, State.srcBytes, Memory.getElem?_bytes, if_pos h]
  rfl

theorem exec_bssEnc_of_pass {s : State} (w : Width) (h : s.arrayAdmission = .pass) :
    exec (.bssEnc w) s = .next (s.bssMove w (bssSplit w.bytes)) := by
  change execBssEnc w s = _
  rw [execBssEnc, h]

theorem exec_bssDec_of_pass {s : State} (w : Width) (h : s.arrayAdmission = .pass) :
    exec (.bssDec w) s = .next (s.bssMove w (bssJoin w.bytes)) := by
  change execBssDec w s = _
  rw [execBssDec, h]

/-- On whole elements and with room for the output, the move stores the bytes that `f` makes of the source at DST_BASE,
and changes no other byte of memory, no unit and no register but ERR, SHORT and OUT_LEN (R240, R242). -/
theorem State.bssMove_of_fits {s : State} {w : Width} {n : Nat} {f : Nat → List Byte → List Byte}
    (hf : (f n s.srcBytes).length = n * w.bytes) (hlen : s.srcLen.toNat = n * w.bytes)
    (hcap : s.srcLen.toNat ≤ s.dstCap.toNat) :
    ∃ m : MemSystem, s.bssMove w f = { s with err := 0, short := false, outLen := s.srcLen, ms := m }
      ∧ (∀ k, k < s.srcLen.toNat → some (Memory.read m.cells (s.dstBase.toNat + k)) = (f n s.srcBytes)[k]?)
      ∧ ∀ a, ¬(s.dstBase.toNat ≤ a ∧ a < s.dstBase.toNat + s.srcLen.toNat) →
          Memory.read m.cells a = s.byteAt a := by
  have hcount : s.srcLen.toNat / w.bytes = n := by rw [hlen, Nat.mul_div_cancel _ w.bytes_pos]
  refine ⟨MemSystem.putAll s.br s.bw s.ms s.dstBase.toNat (f n s.srcBytes), ?_, fun k hk => ?_, fun a ha => ?_⟩
  · obtain ⟨hmod, -⟩ | ⟨-, hroom, -⟩ | ⟨-, -, heq⟩ := s.bssMove_cases w f
    · exact absurd (by rw [hlen, Nat.mul_mod_left]) hmod
    · omega
    · rw [heq, hcount, State.deliver, BitVec.ofNat_toNat, BitVec.setWidth_eq]
      rfl
  · exact MemSystem.putAll_read _ _ _ _ _ k (by rwa [hf, ← hlen])
  · exact (MemSystem.putAll_touches _ _ _ _ _).read a (by rwa [hf, ← hlen])

/-- Settles O56: each command stores its grid of source bytes at DST_BASE, and an entry of the grid is the byte of the
source that R241 names. -/
theorem bssMovesBytesBetweenElementsAndPlanes : Obligations.BssMovesBytesBetweenElementsAndPlanes := by
  intro s w n hpass hlen hcap
  have hplane : ∀ i b, i < n → b < w.bytes → b * n + i < s.srcLen.toNat := fun i b hi hb =>
    (index_lt hi hb).trans_eq (by rw [hlen, Nat.mul_comm])
  have helement : ∀ i b, i < n → b < w.bytes → i * w.bytes + b < s.srcLen.toNat := fun i b hi hb =>
    (index_lt hb hi).trans_eq hlen.symm
  constructor
  · obtain ⟨m, heq, hstored, hframe⟩ := State.bssMove_of_fits
      (f := bssSplit w.bytes) (by rw [length_bssSplit, Nat.mul_comm]) hlen hcap
    refine ⟨m, by rw [exec_bssEnc_of_pass w hpass, heq], fun i b hi hb => ?_, hframe⟩
    apply Option.some.inj
    rw [hstored _ (hplane i b hi hb), getElem?_bssSplit _ hb hi, State.getD_srcBytes (helement i b hi hb)]
  · obtain ⟨m, heq, hstored, hframe⟩ := State.bssMove_of_fits
      (f := bssJoin w.bytes) (length_bssJoin _ _ _) hlen hcap
    refine ⟨m, by rw [exec_bssDec_of_pass w hpass, heq], fun i b hi hb => ?_, hframe⟩
    apply Option.some.inj
    rw [hstored _ (helement i b hi hb), getElem?_bssJoin _ hb hi, State.getD_srcBytes (hplane i b hi hb)]

end Sys2Proof.Machine

/-! How every command ends: with an error entry (60_exceptions.md R266) or by completing (00_scope.md R20). One lemma says
so for all commands, and the statements about registers, error codes and precise errors follow from it. -/

namespace Sys2Proof.Machine

open Sys2Proof

/-! ## The two ends of a command -/

/-- The unit that an error of a command faults (R266). -/
def faultUnitOf : Instr → ErrorCode → FaultUnit
  | .brRead _, .underrun | .brReadbit, .underrun | .brPeek, .underrun => .reader
  | .bwWrite _, .capacity => .writer
  | _, _ => .none

/-- The error is one of the command's (R261). -/
def raises (i : Instr) (e : ErrorCode) : Bool := i.errorCodes.contains e.code

/-- The error is one of the command's, and faults no unit (R261, R266). -/
def raisesPlain (i : Instr) (e : ErrorCode) : Bool := raises i e && faultUnitOf i e == .none

/-- The errors after which memory need not be as it was (R265): a capacity error of BW.WRITE and GOR.ENC, and an error of
GOR.DEC that the item loop raised. -/
def mayDisturbMemory (s : State) : Instr → ErrorCode → Prop
  | .bwWrite _, e | .gorEnc _, e => e = .capacity
  | .gorDec w, e => (e = .underrun ∨ e = .corrupt) ∧ s.streamCount ≠ 0 ∧ 8 + w.bytes ≤ s.srcLen.toNat
  | _, _ => False

/-- The command ends in the error entry of `e`: one of its errors, the unit that R266 names faulted, and memory as it was
unless R265 excepts the error. -/
structure FailsWith (i : Instr) (s t : State) (e : ErrorCode) : Prop where
  raised : raises i e = true
  state : t = { s.raise (faultUnitOf i e) e with ms := t.ms }
  memory : ¬mayDisturbMemory s i e → t.ms.cells = s.ms.cells

/-- The command completes: only SHORT, RESULT, OUT_LEN, the units and memory can change, each by the commands that write
it. -/
structure Completes (i : Instr) (s t : State) : Prop where
  state : t = { s with
    err := 0, short := t.short, result := t.result, outLen := t.outLen, br := t.br, bw := t.bw, ms := t.ms }
  short : t.short = true → ∃ w, i = .gorDec w
  result : i.reports = false → t.result = s.result
  outLen : i.isArray = false → i ≠ .bwFlush → i ≠ .bwRelease → t.outLen = s.outLen

/-- A command ends with an error or completes. -/
def Ends (i : Instr) (s t : State) : Prop := (∃ e, FailsWith i s t e) ∨ Completes i s t

theorem raisesPlain_iff (i : Instr) (e : ErrorCode) :
    raisesPlain i e = true ↔ raises i e = true ∧ faultUnitOf i e = .none := by
  simp [raisesPlain]

section
variable {i : Instr} {s t : State} {e : ErrorCode}

theorem State.brReady_error (h : s.brReady = some e) : e = .unbound ∨ e = .faulted :=
  ((s.brReady_eq_some_iff e).1 h).imp And.right fun h => h.2.2

theorem State.bwReady_error (h : s.bwReady = some e) : e = .unbound ∨ e = .faulted :=
  ((s.bwReady_eq_some_iff e).1 h).imp And.right fun h => h.2.2

/-- The end of a binding changes the writer and memory only (R162, R166). -/
theorem State.bwSettle_state (s : State) : s.bwSettle = { s with bw := s.bwSettle.bw, ms := s.bwSettle.ms } := by
  obtain ⟨-, -, heq⟩ | ⟨-, heq⟩ := s.bwSettle_eq <;> rw [heq]
  rfl

/-- An error entry that faults no unit and before which no byte was written. -/
theorem Ends.raise (he : raisesPlain i e = true) : Ends i s (s.raise .none e) := by
  obtain ⟨hraise, hunit⟩ := (raisesPlain_iff i e).1 he
  exact .inl ⟨e, hraise, by rw [hunit], fun _ => rfl⟩

/-- The error entry for a unit that is not ready (R131, R161). -/
theorem Ends.notReady (hu : raisesPlain i .unbound = true) (hf : raisesPlain i .faulted = true)
    (h : e = .unbound ∨ e = .faulted) : Ends i s (s.raise .none e) := by
  obtain rfl | rfl := h
  · exact .raise hu
  · exact .raise hf

theorem Ends.complete (hs : t = { s with br := t.br, bw := t.bw, ms := t.ms }) : Ends i s t.complete := by
  rw [hs]
  exact .inr ⟨rfl, nofun, fun _ => rfl, fun _ _ _ => rfl⟩

theorem Ends.answer (v : Word) (hi : i.reports = true) (hs : t = { s with br := t.br, bw := t.bw, ms := t.ms }) :
    Ends i s (t.answer v) := by
  rw [hs]
  exact .inr ⟨rfl, nofun, fun h => absurd (hi.symm.trans h) (by decide), fun _ _ _ => rfl⟩

/-- The output of a Gorilla or BSS command. -/
theorem Ends.store (a : Nat) (bs : List Byte) (n : Nat) {sh : Bool} (hi : i.isArray = true)
    (hsh : sh = true → ∃ w, i = .gorDec w) : Ends i s ((s.store a bs).deliver n sh) :=
  .inr ⟨rfl, hsh, fun _ => rfl, fun h => absurd (hi.symm.trans h) (by decide)⟩

/-- A read (R132). -/
theorem Ends.brTake {n : Nat} (hr : i.reports = true) (hraise : raises i .underrun = true)
    (hunit : faultUnitOf i .underrun = .reader) (hu : raisesPlain i .unbound = true)
    (hf : raisesPlain i .faulted = true) (h : s.brTake n = .next t) : Ends i s t := by
  obtain ⟨e, he, rfl⟩ | ⟨-, -, rfl⟩ | ⟨-, -, rfl⟩ := s.brTake_next h
  · exact .notReady hu hf (State.brReady_error he)
  · exact .inl ⟨.underrun, hraise, by rw [hunit], fun _ => rfl⟩
  · exact .answer _ hr rfl

/-- A report of the reader (R137 to R139). -/
theorem Ends.brReport {v : Word} (hr : i.reports = true) (hu : raisesPlain i .unbound = true)
    (hf : raisesPlain i .faulted = true) (h : s.brReport v = .next t) : Ends i s t := by
  obtain ⟨e, he, rfl⟩ | ⟨-, rfl⟩ := s.brReport_next h
  · exact .notReady hu hf (State.brReady_error he)
  · exact .answer _ hr rfl

/-- BR.INIT and BW.INIT on a range that fails its checks (R133, R162). -/
theorem Ends.admitOne {base len : Word} (hr : raisesPlain i .range = true) (hb : raisesPlain i .bus = true)
    (he : s.platform.admitOne base len = .error e) : Ends i s (s.raise .none e) := by
  obtain rfl | rfl := Platform.admitOne_error he
  · exact .raise hr
  · exact .raise hb

/-- A Gorilla or BSS command on ranges that fail the checks of R194. -/
theorem Ends.arrayAdmission (ha : i.isArray = true) (he : s.arrayAdmission = .error e) :
    Ends i s (s.raise .none e) := by
  have hraise : e = .range ∨ e = .overlap ∨ e = .bus := State.arrayAdmission_error he
  cases i with
  | gorEnc w | gorDec w | bssEnc w | bssDec w => obtain rfl | rfl | rfl := hraise <;> exact .raise rfl
  | _ => cases ha

/-- A byte-stream-split move (R240, R242). -/
theorem Ends.bssMove {w : Width} {f : Nat → List Byte → List Byte} (ha : i.isArray = true)
    (hl : raisesPlain i .length = true) (hc : raisesPlain i .capacity = true) : Ends i s (s.bssMove w f) := by
  obtain ⟨-, heq⟩ | ⟨-, -, heq⟩ | ⟨-, -, heq⟩ := s.bssMove_cases w f <;> rw [heq]
  · exact .raise hl
  · exact .raise hc
  · exact .store _ _ _ ha nofun

theorem Ends.gorEncode (w : Width) : Ends (.gorEnc w) s (s.gorEncode w) := by
  obtain ⟨-, heq⟩ | ⟨-, -, heq⟩ | ⟨-, -, heq⟩ := s.gorEncode_cases w <;> rw [heq]
  · exact .raise rfl
  · exact .inl ⟨.capacity, rfl, rfl, fun h => absurd rfl h⟩
  · exact .store _ _ _ rfl nofun

theorem Ends.gorDecode (w : Width) : Ends (.gorDec w) s (s.gorDecode w) := by
  obtain ⟨-, heq⟩ | ⟨-, -, heq⟩ | ⟨-, -, -, heq⟩ | ⟨-, -, -, heq⟩
    | ⟨hlen, h0, -, ⟨e, he, heq⟩ | ⟨xs, sh, -, heq⟩⟩ := s.gorDecode_cases w <;> rw [heq]
  · exact .raise rfl
  · exact .store (s := s) 0 [] 0 rfl nofun
  · exact .raise rfl
  · exact .raise rfl
  · have hitem := decTail_error he
    obtain ⟨hraise, hunit⟩ : raises (.gorDec w) e = true ∧ faultUnitOf (.gorDec w) e = .none := by
      obtain rfl | rfl := hitem <;> exact ⟨rfl, rfl⟩
    exact .inl ⟨e, hraise, by rw [hunit]; rfl, fun h => absurd ⟨hitem, h0, hlen⟩ h⟩
  · exact .store _ _ _ rfl fun _ => ⟨w, rfl⟩

end

/-- Every command ends with an error or completes (R20, R266). -/
theorem exec_ends {i : Instr} {s t : State} (h : exec i s = .next t) : Ends i s t := by
  cases i with
  | brInit =>
    obtain ⟨e, he, rfl⟩ | ⟨-, rfl⟩ := execBrInit_next h
    · exact .admitOne rfl rfl he
    · exact .complete rfl
  | brRead n =>
    obtain ⟨-, rfl⟩ | ⟨-, h⟩ := execBrRead_next h
    · exact .raise rfl
    · exact .brTake rfl rfl rfl rfl rfl h
  | brReadbit => exact .brTake rfl rfl rfl rfl rfl h
  | brPeek =>
    obtain ⟨e, he, rfl⟩ | ⟨-, -, rfl⟩ | ⟨-, -, rfl⟩ := execBrPeek_next h
    · exact .notReady rfl rfl (State.brReady_error he)
    · exact .inl ⟨.underrun, rfl, rfl, fun _ => rfl⟩
    · exact .answer _ rfl rfl
  | brEof | brCount | brRemain => exact .brReport rfl rfl rfl h
  | brRelease =>
    cases h
    exact .complete rfl
  | bwInit =>
    obtain ⟨e, he, rfl⟩ | ⟨-, rfl⟩ := execBwInit_next h
    · exact .admitOne rfl rfl he
    · rw [s.bwSettle_state]
      exact .complete rfl
  | bwWrite n =>
    obtain ⟨-, rfl⟩ | ⟨-, e, he, rfl⟩ | ⟨-, -, -, rfl⟩ | ⟨-, -, -, rfl⟩ := execBwWrite_next h
    · exact .raise rfl
    · exact .notReady rfl rfl (State.bwReady_error he)
    · exact .inl ⟨.capacity, rfl, rfl, fun h => absurd rfl h⟩
    · exact .complete rfl
  | bwFlush =>
    obtain ⟨e, he, rfl⟩ | ⟨-, rfl⟩ := execBwFlush_next h
    · exact .notReady rfl rfl (State.bwReady_error he)
    · exact .inr ⟨rfl, nofun, fun _ => rfl, fun _ h _ => absurd rfl h⟩
  | bwCount =>
    obtain ⟨e, he, rfl⟩ | ⟨-, rfl⟩ := execBwCount_next h
    · exact .notReady rfl rfl (State.bwReady_error he)
    · exact .answer _ rfl rfl
  | bwRelease =>
    cases h
    rw [s.bwSettle_state]
    exact .inr ⟨rfl, nofun, fun _ => rfl, fun _ _ h => absurd rfl h⟩
  | gorEnc w =>
    obtain ⟨e, he, rfl⟩ | ⟨-, rfl⟩ := execGorEnc_next h
    · exact .arrayAdmission rfl he
    · exact .gorEncode w
  | gorDec w =>
    obtain ⟨e, he, rfl⟩ | ⟨-, rfl⟩ := execGorDec_next h
    · exact .arrayAdmission rfl he
    · exact .gorDecode w
  | bssEnc w =>
    obtain ⟨e, he, rfl⟩ | ⟨-, rfl⟩ := execBssEnc_next h
    · exact .arrayAdmission rfl he
    · exact .bssMove rfl rfl rfl
  | bssDec w =>
    obtain ⟨e, he, rfl⟩ | ⟨-, rfl⟩ := execBssDec_next h
    · exact .arrayAdmission rfl he
    · exact .bssMove rfl rfl rfl

/-! ## What an end says of the registers and units -/

section
variable {i : Instr} {s t : State} {e : ErrorCode}

theorem FailsWith.err (h : FailsWith i s t e) : t.err = e.code := by rw [h.state]; rfl
theorem FailsWith.short (h : FailsWith i s t e) : t.short = false := by rw [h.state]; rfl
theorem FailsWith.result (h : FailsWith i s t e) : t.result = 0 := by rw [h.state]; rfl
theorem FailsWith.outLen (h : FailsWith i s t e) : t.outLen = 0 := by rw [h.state]; rfl
theorem FailsWith.br (h : FailsWith i s t e) : t.br = (s.raise (faultUnitOf i e) e).br := by rw [h.state]
theorem FailsWith.bw (h : FailsWith i s t e) : t.bw = (s.raise (faultUnitOf i e) e).bw := by rw [h.state]
theorem Completes.err (h : Completes i s t) : t.err = 0 := by rw [h.state]

/-- A command that leaves a code in ERR has failed. -/
theorem fails_of_err_ne_zero (h : exec i s = .next t) (herr : t.err ≠ 0) : ∃ e, FailsWith i s t e :=
  (exec_ends h).resolve_right fun hc => herr hc.err

/-- A command that leaves ERR 0 has completed. -/
theorem completes_of_err_eq_zero (h : exec i s = .next t) (herr : t.err = 0) : Completes i s t :=
  (exec_ends h).resolve_left fun ⟨e, he⟩ => e.code_ne_zero (he.err.symm.trans herr)

theorem exec_sameInputs (h : exec i s = .next t) : s.SameInputs t := by
  have hothers : s.SameOthers t := Block.KeptBy.map_registers (exec_keeps_others h)
  obtain ⟨e, he⟩ | hc := exec_ends h
  · rw [he.state] at hothers ⊢
    exact ⟨rfl, rfl, rfl, rfl, rfl, rfl, rfl, rfl, rfl, rfl, rfl, rfl, hothers⟩
  · rw [hc.state] at hothers ⊢
    exact ⟨rfl, rfl, rfl, rfl, rfl, rfl, rfl, rfl, rfl, rfl, rfl, rfl, hothers⟩

end

theorem ErrorCode.code_eq_capacity_iff (e : ErrorCode) : e.code = 7 ↔ e = .capacity := by cases e <;> decide

theorem ErrorCode.code_eq_underrun_iff (e : ErrorCode) : e.code = 8 ↔ e = .underrun := by cases e <;> decide

/-- The reader is faulted by an underrun of a command that takes bits (R266). -/
theorem faultUnitOf_eq_reader_iff (i : Instr) (e : ErrorCode) :
    faultUnitOf i e = .reader ↔ i.takesBits = true ∧ e = .underrun := by
  cases i with
  | brRead n | brReadbit | brPeek | bwWrite n => cases e <;> simp [faultUnitOf, Instr.takesBits]
  | _ => simp [faultUnitOf, Instr.takesBits]

/-- The writer is faulted by a capacity error of BW.WRITE (R266). -/
theorem faultUnitOf_eq_writer_iff (i : Instr) (e : ErrorCode) :
    faultUnitOf i e = .writer ↔ (∃ n, i = .bwWrite n) ∧ e = .capacity := by
  cases i with
  | brRead n | brReadbit | brPeek | bwWrite n => cases e <;> simp [faultUnitOf]
  | _ => simp [faultUnitOf]

theorem State.raise_br_of_ne {s : State} {u : FaultUnit} (e : ErrorCode) (h : u ≠ .reader) : (s.raise u e).br = s.br := by
  cases u with
  | reader => exact absurd rfl h
  | none | writer => rfl

theorem State.raise_bw_of_ne {s : State} {u : FaultUnit} (e : ErrorCode) (h : u ≠ .writer) : (s.raise u e).bw = s.bw := by
  cases u with
  | writer => exact absurd rfl h
  | none | reader => rfl

/-! ## The statements -/

/-- Settles O2: the decoder reads the fields of a command word back. -/
theorem decodeOfEncode : Obligations.DecodeOfEncode := fun _ h => decode_encode h

/-- Settles O3: a value that decodes is the command word of its fields. -/
theorem encodeOfDecode : Obligations.EncodeOfDecode := fun _ _ h => encode_of_decode h

/-- Settles O11: an error entry writes 0 to RESULT, and only commands that report write it when they complete. -/
theorem resultOfEveryCommand : Obligations.ResultOfEveryCommand := by
  refine fun i s t h => ⟨fun herr => ?_, fun herr hi => (completes_of_err_eq_zero h herr).result hi⟩
  obtain ⟨e, he⟩ := fails_of_err_ne_zero h herr
  exact he.result

/-- Settles O12: an error entry writes 0 to OUT_LEN, and outside the array commands only a flush writes it. -/
theorem outLenOutsideTheEngines : Obligations.OutLenOutsideTheEngines := by
  refine fun i s t h => ⟨fun herr => ?_, fun herr hi => ?_, fun _ hi hready => ?_, fun _ hi hready => ?_,
    fun herr => (completes_of_err_eq_zero h herr).outLen⟩
  · obtain ⟨e, he⟩ := fails_of_err_ne_zero h herr
    exact he.outLen
  · subst hi
    obtain ⟨e, -, heq⟩ | ⟨-, rfl⟩ := execBwFlush_next h
    · exact absurd herr (State.err_ne_zero_of_raise heq)
    · rw [State.deliver_outLen, BitVec.ofNat_toNat, BitVec.setWidth_eq, State.bwFlush_final]
  · subst hi
    cases h
    obtain ⟨hb, hf, heq⟩ | ⟨hn, -⟩ := s.bwSettle_eq
    · rw [← State.bwFlush_final, State.complete_outLen, heq]
      simp [hb, hf]
    · exact absurd hready hn
  · subst hi
    cases h
    have hguard : (s.bw.bound && !s.bw.fault) = false := by
      simpa [BitWriter.ready] using hready
    rw [State.complete_outLen, hguard]
    rfl

/-- Settles O13: SHORT is 0 in every error entry, and only GOR.DEC delivers another. -/
theorem shortOnlyAfterGorillaDecode : Obligations.ShortOnlyAfterGorillaDecode := by
  intro i s t h hshort
  obtain ⟨e, he⟩ | hc := exec_ends h
  · exact absurd (he.short.symm.trans hshort) (by decide)
  · exact ⟨hc.err, hc.short hshort⟩

/-- Settles O18: neither end writes an input register, and the writes of a command keep the other instances. -/
theorem commandsKeepTheInputs : Obligations.CommandsKeepTheInputs := fun _ _ _ h => exec_sameInputs h

/-- Settles O19: a command that completes leaves 0, and one that fails leaves a code of its list. -/
theorem errorsByCommand : Obligations.ErrorsByCommand := by
  intro i s t h
  obtain ⟨e, he⟩ | hc := exec_ends h
  · rw [he.err]
    exact List.contains_iff_mem.1 he.raised
  · rw [hc.err]
    cases i <;> exact .head _

/-- Settles O20: the registers and units after an error are those of the error entry with the unit that R266 names. -/
theorem errorEntry : Obligations.ErrorEntry := by
  intro i s t h herr
  obtain ⟨e, he⟩ := fails_of_err_ne_zero h herr
  have hunderrun : t.err = 8 ↔ e = .underrun := by rw [he.err]; exact e.code_eq_underrun_iff
  have hcapacity : t.err = 7 ↔ e = .capacity := by rw [he.err]; exact e.code_eq_capacity_iff
  refine ⟨he.short, he.result, he.outLen, exec_sameInputs h, fun hi h8 => ?_, fun hno => ?_, fun n hi h7 => ?_,
    fun hno => ?_⟩
  · have hunit := (faultUnitOf_eq_reader_iff i e).2 ⟨hi, hunderrun.1 h8⟩
    rw [he.br, hunit]
    rfl
  · rw [he.br]
    refine State.raise_br_of_ne e fun hunit => hno ?_
    obtain ⟨hi, rfl⟩ := (faultUnitOf_eq_reader_iff i e).1 hunit
    exact ⟨hi, hunderrun.2 rfl⟩
  · have hunit := (faultUnitOf_eq_writer_iff i e).2 ⟨⟨n, hi⟩, hcapacity.1 h7⟩
    rw [he.bw, hunit]
    rfl
  · rw [he.bw]
    refine State.raise_bw_of_ne e fun hunit => ?_
    obtain ⟨⟨n, hi⟩, hc⟩ := (faultUnitOf_eq_writer_iff i e).1 hunit
    exact hno n hi (hcapacity.2 hc)

/-- Settles O21: the errors that R265 excepts are those after which memory may be disturbed. -/
theorem preciseErrorsKeepMemory : Obligations.PreciseErrorsKeepMemory := by
  intro i s t h herr hwrite henc hdec a
  obtain ⟨e, he⟩ := fails_of_err_ne_zero h herr
  have hmem : t.ms.cells = s.ms.cells := by
    refine he.memory fun hd => ?_
    have herrs := he.err
    cases i with
    | bwWrite n =>
      cases hd
      exact hwrite n rfl herrs
    | gorEnc w =>
      cases hd
      exact henc w rfl herrs
    | gorDec w =>
      obtain ⟨rfl | rfl, h0, hlen⟩ := hd
      · exact (hdec w rfl).1 herrs
      · obtain hshort | ⟨-, hshort⟩ := (hdec w rfl).2 herrs <;> omega
    | _ => exact hd
  rw [State.byteAt, hmem, State.byteAt]

end Sys2Proof.Machine

/-! The invariant (10_state.md R50, R53, 20_memory.md R74, 60_exceptions.md R261): the bytes a command can write, what each
operation does to the units and to their records, then every operation of the host, and the statements. -/

namespace Sys2Proof.Machine

open Sys2Proof

/-! ## The bytes a command can write -/

/-- From `m` to `m'`, memory changed at most in a region (see `MemSystem.TouchesOnly`). -/
def MemSystem.TouchesRegion (m m' : MemSystem) (r : Region) : Prop := m.TouchesOnly m' r.base (r.base + r.len)

theorem State.writableOf_array (s : State) {i : Instr} (hi : i.isArray = true) : s.writableOf i = s.dstRegion := by
  cases i with
  | gorEnc w | gorDec w | bssEnc w | bssDec w => rfl
  | _ => cases hi

theorem State.writableOf_of_ready {s : State} {i : Instr} (hi : i.mayStore = true) (h : s.bw.ready) :
    s.writableOf i = ⟨s.bw.base.toNat + s.bw.final.toNat, s.bw.cap.toNat - s.bw.final.toNat⟩ := by
  obtain ⟨hb, hf⟩ := h
  cases i with
  | bwInit | bwWrite n | bwFlush | bwRelease => simp [State.writableOf, hb, hf]
  | _ => cases hi

theorem State.writableOf_of_notReady {s : State} {i : Instr} (hi : i.mayStore = true) (h : ¬s.bw.ready) :
    s.writableOf i = ⟨0, 0⟩ := by
  have hguard : ¬(s.bw.bound && !s.bw.fault) = true := by simpa [BitWriter.ready] using h
  cases i with
  | bwInit | bwWrite n | bwFlush | bwRelease => exact if_neg hguard
  | _ => cases hi

theorem State.writableOf_other (s : State) {i : Instr} (ha : i.isArray = false) (hm : i.mayStore = false) :
    s.writableOf i = ⟨0, 0⟩ := by
  cases i with
  | gorEnc w | gorDec w | bssEnc w | bssDec w => cases ha
  | bwInit | bwWrite n | bwFlush | bwRelease => cases hm
  | _ => rfl

/-- Writes inside the empty region leave memory as it was. -/
theorem MemSystem.TouchesRegion.read_of_empty {m m' : MemSystem} (h : m.TouchesRegion m' ⟨0, 0⟩) (a : Nat) :
    Memory.read m'.cells a = Memory.read m.cells a := h.read a (by simp)

theorem MemSystem.TouchesRegion.of_cells {m m' : MemSystem} (r : Region) (hc : m'.cells = m.cells)
    (ho : m'.others = m.others) : m.TouchesRegion m' r :=
  MemSystem.TouchesOnly.of_cells _ _ hc ho

theorem MemSystem.TouchesRegion.drop_drained {m m' : MemSystem} {r : Region} (h : m.TouchesRegion m' r) :
    m.TouchesRegion { m' with drained := [] } r := h.trans (.of_cells _ _ rfl rfl)

/-- A Gorilla or BSS command writes at most its destination range (R71). -/
theorem exec_array_touches {i : Instr} {s t : State} (hi : i.isArray = true) (h : exec i s = .next t) :
    s.ms.TouchesRegion t.ms s.dstRegion := by
  obtain ⟨e, rfl⟩ | ⟨e, n, hn, rfl⟩ | ⟨e, bs, hn, rfl⟩ | ⟨bs, sh, hn, rfl⟩ := exec_array_next hi h
  · exact .of_cells _ rfl rfl
  · exact (MemSystem.scramble_touches s.br s.bw s.ms _ n).mono le_rfl (Nat.add_le_add_left hn _)
  · exact (MemSystem.putSome_touches s.br s.bw s.ms _ bs).mono le_rfl (Nat.add_le_add_left hn _)
  · exact (MemSystem.putAll_touches s.br s.bw s.ms _ bs).mono le_rfl (Nat.add_le_add_left hn _)

section
variable {s t : State}

/-- A flush writes at most the bytes of the range that are not final (R161, R167). -/
theorem State.bwFlush_touchesRegion (hs : s.bw.ready) (hb : s.bw.inBounds) :
    s.ms.TouchesRegion s.bwFlush.ms (s.writableOf .bwFlush) := by
  have hcap := BitWriter.ceil8_length_le_cap hs hb
  rw [State.writableOf_of_ready rfl hs]
  exact s.bwFlush_touches.mono le_rfl (by simp only; omega)

/-- The end of a binding writes what a flush of a ready writer writes, and else nothing (R162, R166). -/
theorem State.bwSettle_touchesRegion (hb : s.bw.ready → s.bw.inBounds) :
    s.ms.TouchesRegion s.bwSettle.ms (s.writableOf .bwFlush) := by
  obtain ⟨hbound, hfault, heq⟩ | ⟨-, heq⟩ := s.bwSettle_eq <;> rw [heq]
  · exact State.bwFlush_touchesRegion ⟨hbound, hfault⟩ (hb ⟨hbound, hfault⟩)
  · exact .of_cells _ rfl rfl

theorem brTake_touchesRegion {n : Nat} (r : Region) (h : s.brTake n = .next t) : s.ms.TouchesRegion t.ms r := by
  obtain ⟨e, -, rfl⟩ | ⟨-, -, rfl⟩ | ⟨-, -, rfl⟩ := s.brTake_next h <;> exact .of_cells _ rfl rfl

theorem brReport_touchesRegion {v : Word} (r : Region) (h : s.brReport v = .next t) : s.ms.TouchesRegion t.ms r := by
  obtain ⟨e, -, rfl⟩ | ⟨-, rfl⟩ := s.brReport_next h <;> exact .of_cells _ rfl rfl

/-- BW.WRITE writes at most the bytes of a ready writer's range that are not final (R84, R169). -/
theorem exec_bwWrite_touches {n : BitVec 7} (h : exec (.bwWrite n) s = .next t) :
    s.ms.TouchesRegion t.ms (s.writableOf (.bwWrite n)) := by
  obtain ⟨-, rfl⟩ | ⟨-, e, -, rfl⟩ | ⟨-, hr, -, rfl⟩ | ⟨-, hr, hfit, rfl⟩ := execBwWrite_next h
  · exact .of_cells _ rfl rfl
  · exact .of_cells _ rfl rfl
  · rw [State.writableOf_of_ready rfl ((s.bwReady_eq_none_iff).1 hr)]
    exact .trans (m' := { s.ms with drained := [] }) (.of_cells _ _ rfl rfl) (MemSystem.scramble_touches _ _ _ _ _)
  · rw [State.writableOf_of_ready rfl ((s.bwReady_eq_none_iff).1 hr)]
    refine (s.bwAppend n.toNat).bwDrain_touches.mono le_rfl ?_
    simp only [State.bwAppend_bw, List.length_append, length_bitsN]
    omega

end

/-- A command writes at most the bytes it could write (R71, R84, R172, R215, R243 (e)). -/
theorem exec_touches {i : Instr} {s t : State} (h : exec i s = .next t)
    (hb : i.mayStore = true → s.bw.ready → s.bw.inBounds) : s.ms.TouchesRegion t.ms (s.writableOf i) := by
  by_cases ha : i.isArray = true
  · rw [s.writableOf_array ha]
    exact exec_array_touches ha h
  · cases i with
    | brInit => obtain ⟨e, -, rfl⟩ | ⟨-, rfl⟩ := execBrInit_next h <;> exact .of_cells _ rfl rfl
    | brRead n =>
      obtain ⟨-, rfl⟩ | ⟨-, h⟩ := execBrRead_next h
      · exact .of_cells _ rfl rfl
      · exact brTake_touchesRegion _ h
    | brReadbit => exact brTake_touchesRegion _ h
    | brPeek =>
      obtain ⟨e, -, rfl⟩ | ⟨-, -, rfl⟩ | ⟨-, -, rfl⟩ := execBrPeek_next h <;> exact .of_cells _ rfl rfl
    | brEof | brCount | brRemain => exact brReport_touchesRegion _ h
    | brRelease =>
      cases h
      exact .of_cells _ rfl rfl
    | bwInit =>
      obtain ⟨e, -, rfl⟩ | ⟨-, rfl⟩ := execBwInit_next h
      · exact .of_cells _ rfl rfl
      · exact (State.bwSettle_touchesRegion (hb rfl)).drop_drained
    | bwWrite n => exact exec_bwWrite_touches h
    | bwFlush =>
      obtain ⟨e, -, rfl⟩ | ⟨hr, rfl⟩ := execBwFlush_next h
      · exact .of_cells _ rfl rfl
      · have hready : s.bw.ready := (s.bwReady_eq_none_iff).1 hr
        exact State.bwFlush_touchesRegion hready (hb rfl hready)
    | bwCount => obtain ⟨e, -, rfl⟩ | ⟨-, rfl⟩ := execBwCount_next h <;> exact .of_cells _ rfl rfl
    | bwRelease =>
      cases h
      exact (State.bwSettle_touchesRegion (hb rfl)).drop_drained
    | gorEnc w | gorDec w | bssEnc w | bssDec w => exact absurd rfl ha

/-! ## The units a command leaves alone -/

theorem exec_array_units {i : Instr} {s t : State} (hi : i.isArray = true) (h : exec i s = .next t) :
    t.br = s.br ∧ t.bw = s.bw := by
  obtain ⟨e, rfl⟩ | ⟨e, n, -, rfl⟩ | ⟨e, bs, -, rfl⟩ | ⟨bs, sh, -, rfl⟩ := exec_array_next hi h <;> exact ⟨rfl, rfl⟩

/-- The writer commands leave the reader alone (R172). -/
theorem exec_writer_br {i : Instr} {s t : State} (hi : i.mayStore = true) (h : exec i s = .next t) : t.br = s.br := by
  cases i with
  | bwInit =>
    obtain ⟨e, -, rfl⟩ | ⟨-, rfl⟩ := execBwInit_next h
    · rfl
    · exact s.bwSettle_br
  | bwWrite n =>
    obtain ⟨-, rfl⟩ | ⟨-, e, -, rfl⟩ | ⟨-, -, -, rfl⟩ | ⟨-, -, -, rfl⟩ := execBwWrite_next h <;> rfl
  | bwFlush => obtain ⟨e, -, rfl⟩ | ⟨-, rfl⟩ := execBwFlush_next h <;> rfl
  | bwRelease =>
    cases h
    exact s.bwSettle_br
  | _ => cases hi

theorem brTake_bw {s t : State} {n : Nat} (h : s.brTake n = .next t) : t.bw = s.bw := by
  obtain ⟨e, -, rfl⟩ | ⟨-, -, rfl⟩ | ⟨-, -, rfl⟩ := s.brTake_next h <;> rfl

theorem brReport_bw {s t : State} {v : Word} (h : s.brReport v = .next t) : t.bw = s.bw := by
  obtain ⟨e, -, rfl⟩ | ⟨-, rfl⟩ := s.brReport_next h <;> rfl

/-- The commands that store no byte leave the writer alone (R130, R165). -/
theorem exec_other_bw {i : Instr} {s t : State} (ha : i.isArray = false) (hm : i.mayStore = false)
    (h : exec i s = .next t) : t.bw = s.bw := by
  cases i with
  | brInit => obtain ⟨e, -, rfl⟩ | ⟨-, rfl⟩ := execBrInit_next h <;> rfl
  | brRead n =>
    obtain ⟨-, rfl⟩ | ⟨-, h⟩ := execBrRead_next h
    · rfl
    · exact brTake_bw h
  | brReadbit => exact brTake_bw h
  | brPeek => obtain ⟨e, -, rfl⟩ | ⟨-, -, rfl⟩ | ⟨-, -, rfl⟩ := execBrPeek_next h <;> rfl
  | brEof | brCount | brRemain => exact brReport_bw h
  | brRelease =>
    cases h
    rfl
  | bwCount => obtain ⟨e, -, rfl⟩ | ⟨-, rfl⟩ := execBwCount_next h <;> rfl
  | gorEnc w | gorDec w | bssEnc w | bssDec w => cases ha
  | bwInit | bwWrite n | bwFlush | bwRelease => cases hm

/-- Settles O58: each command touches at most `State.writableOf` of it, which is empty but for the commands named. -/
theorem commandsWriteOnlyTheirOwnRanges : Obligations.CommandsWriteOnlyTheirOwnRanges := by
  refine fun i s t h => ⟨fun ha => ?_, fun hm => ⟨exec_writer_br hm h, fun hb hr => ?_, fun hr a => ?_⟩,
    fun ha hm => ⟨exec_other_bw ha hm h, fun a => ?_⟩⟩
  · obtain ⟨hbr, hbw⟩ := exec_array_units ha h
    exact ⟨hbr, hbw, (exec_array_touches ha h).read⟩
  · have ht := exec_touches h fun _ _ => hb
    rw [State.writableOf_of_ready hm hr] at ht
    exact ht.read
  · have ht := exec_touches h fun _ hready => absurd hready hr
    rw [State.writableOf_of_notReady hm hr] at ht
    exact ht.read_of_empty a
  · have ht := exec_touches h fun hm' => absurd (hm.symm.trans hm') (by decide)
    rw [s.writableOf_other ha hm] at ht
    exact ht.read_of_empty a

end Sys2Proof.Machine

/-! The invariant under every step (10_state.md R50, R53): the records of the hazards, the units, then the operations of
the host. -/

namespace Sys2Proof.Machine

open Sys2Proof

/-! ## The records -/

/-- The record of written source bytes is about the bound reader's range: the reader's half of `hazardsSound`. -/
def BitReader.staleSound (br : BitReader) (stale : List Nat) : Prop := ∀ k ∈ stale, br.bound = true ∧ k < br.len.toNat

theorem BitReader.staleSound.noteWrite {br : BitReader} {stale : List Nat} (h : br.staleSound stale) (a : Nat) :
    br.staleSound (br.noteWrite a stale) :=
  (hazardsSound.noteWrite (bw := .reset) (drained := []) ⟨h, nofun⟩ a false).1

theorem BitReader.staleSound.drain {br : BitReader} {m : MemSystem} (h : br.staleSound m.stale) (bw : BitWriter)
    (k : Nat) (bs : List Byte) : br.staleSound (MemSystem.drain br bw m k bs).stale := by
  induction bs generalizing m k with
  | nil => exact h
  | cons b bs ih =>
    refine ih ?_ _
    unfold MemSystem.drainByte
    split
    · exact h
    · split
      · exact h.noteWrite _
      · exact h

theorem BitReader.staleSound.flushBytes {br : BitReader} {m : MemSystem} (h : br.staleSound m.stale) (bw : BitWriter)
    (k : Nat) (bs : List Byte) : br.staleSound (MemSystem.flushBytes br bw m k bs).stale := by
  induction bs generalizing m k with
  | nil => exact h
  | cons b bs ih => exact ih (h.noteWrite _) _

section
variable {br : BitReader} {bw : BitWriter} {m : MemSystem}

theorem hazardsSound.putAll (h : hazardsSound br bw m.stale m.drained) (a : Nat) (bs : List Byte) :
    hazardsSound br bw (MemSystem.putAll br bw m a bs).stale (MemSystem.putAll br bw m a bs).drained := by
  induction bs generalizing m a with
  | nil => exact h
  | cons b bs ih => exact ih (h.noteWrite a _) _

theorem hazardsSound.scramble (h : hazardsSound br bw m.stale m.drained) (a n : Nat) :
    hazardsSound br bw (MemSystem.scramble br bw m a n).stale (MemSystem.scramble br bw m a n).drained := by
  induction n generalizing m a with
  | zero => exact h
  | succ n ih => exact ih (h.noteWrite a _) _

theorem hazardsSound.putSome (h : hazardsSound br bw m.stale m.drained) (a : Nat) (bs : List Byte) :
    hazardsSound br bw (MemSystem.putSome br bw m a bs).stale (MemSystem.putSome br bw m a bs).drained := by
  induction bs generalizing m a with
  | nil => exact h
  | cons b bs ih =>
    refine ih ?_ _
    split
    · exact h.noteWrite a _
    · exact h

/-- Without a byte stored early, only the record of written source bytes counts. -/
theorem hazardsSound.of_stale {stale : List Nat} (h : br.staleSound stale) : hazardsSound br bw stale [] := ⟨h, nofun⟩

end

/-! ## The units -/

/-- The part of `Block.Sound` that speaks of the units and their records. -/
def State.UnitsSound (s : State) : Prop :=
  s.br.inBounds ∧ s.bw.inBounds ∧ hazardsSound s.br s.bw s.ms.stale s.ms.drained

theorem toNat_ofNat_le (n : Nat) : (BitVec.ofNat 64 n).toNat ≤ n := by
  rw [BitVec.toNat_ofNat]
  exact Nat.mod_le _ _

theorem BitReader.inBounds.advance {br : BitReader} {n : Nat} (h : br.inBounds) (hn : n ≤ br.remaining) (hb : br.bound = true)
    (hf : br.fault = false) : { br with pos := BitVec.ofNat 64 (br.pos.toNat + n) }.inBounds := by
  obtain ⟨hbound, hrange, hpos⟩ := h
  refine ⟨hbound, hrange, fun _ _ => (toNat_ofNat_le _).trans ?_⟩
  have := hpos hb hf
  simp only [BitReader.remaining] at hn ⊢
  omega

theorem BitWriter.inBounds.append {bw : BitWriter} (h : bw.inBounds) (hr : bw.ready) (added : List Bool)
    (hfit : bw.bits.length + added.length ≤ 8 * bw.cap.toNat) :
    { bw with bits := bw.bits ++ added, user := bw.user + BitVec.ofNat 64 added.length }.inBounds := by
  obtain ⟨hbound, hrange, hsize⟩ := h
  obtain ⟨-, hfinal, huser⟩ := hsize hr.1 hr.2
  refine ⟨hbound, hrange, fun _ _ => ?_⟩
  have hsum : (bw.user + BitVec.ofNat 64 added.length).toNat ≤ bw.user.toNat + (BitVec.ofNat 64 added.length).toNat := by
    rw [BitVec.toNat_add]
    exact Nat.mod_le _ _
  have hadd := toNat_ofNat_le added.length
  simp only [List.length_append]
  omega

section
variable {s t : State}

/-- An error entry faults a unit only when it is bound (R266). -/
theorem State.UnitsSound.raise (h : s.UnitsSound) {u : FaultUnit} (e : ErrorCode)
    (hr : u = .reader → s.br.bound = true) (hw : u = .writer → s.bw.bound = true) : (s.raise u e).UnitsSound := by
  obtain ⟨⟨hrb, hrr, hrp⟩, ⟨hwb, hwr, hws⟩, hhaz⟩ := h
  cases u with
  | none => exact ⟨⟨hrb, hrr, hrp⟩, ⟨hwb, hwr, hws⟩, hhaz⟩
  | reader => exact ⟨⟨fun _ => hr rfl, hrr, fun _ hf => Bool.noConfusion (hf : true = false)⟩, ⟨hwb, hwr, hws⟩, hhaz⟩
  | writer => exact ⟨⟨hrb, hrr, hrp⟩, ⟨fun _ => hw rfl, hwr, fun _ hf => Bool.noConfusion (hf : true = false)⟩, .of_stale hhaz.1⟩

theorem State.UnitsSound.raise_none (h : s.UnitsSound) (e : ErrorCode) : (s.raise .none e).UnitsSound :=
  h.raise e nofun nofun

theorem State.UnitsSound.scramble (h : s.UnitsSound) (a n : Nat) : (s.scramble a n).UnitsSound := by
  obtain ⟨hbr, hbw, hhaz⟩ := h
  exact ⟨hbr, hbw, hhaz.scramble a n⟩

theorem State.UnitsSound.store (h : s.UnitsSound) (a : Nat) (bs : List Byte) : (s.store a bs).UnitsSound := by
  obtain ⟨hbr, hbw, hhaz⟩ := h
  exact ⟨hbr, hbw, hhaz.putAll a bs⟩

theorem State.UnitsSound.storeSome (h : s.UnitsSound) (a : Nat) (bs : List Byte) : (s.storeSome a bs).UnitsSound := by
  obtain ⟨hbr, hbw, hhaz⟩ := h
  exact ⟨hbr, hbw, hhaz.putSome a bs⟩

theorem State.UnitsSound.bwFlush (h : s.UnitsSound) (hr : s.bw.ready) : s.bwFlush.UnitsSound := by
  obtain ⟨hbr, hbw, hhaz⟩ := h
  have hcap := BitWriter.ceil8_length_le_cap hr hbw
  have hfinal := toNat_ofNat_le (s.bw.padded.length / 8)
  have hlen := s.bw.length_padded
  obtain ⟨hbound, hrange, hsize⟩ := hbw
  obtain ⟨-, -, huser⟩ := hsize hr.1 hr.2
  have hceil : s.bw.bits.length ≤ 8 * ceil8 s.bw.bits.length := by
    unfold ceil8
    omega
  refine ⟨hbr, ⟨hbound, hrange, fun _ _ => ?_⟩, .of_stale (BitReader.staleSound.flushBytes hhaz.1 _ _ _)⟩
  simp only [State.bwFlush_bw]
  omega

theorem State.UnitsSound.bwSettle (h : s.UnitsSound) : s.bwSettle.UnitsSound := by
  obtain ⟨hb, hf, heq⟩ | ⟨-, heq⟩ := s.bwSettle_eq <;> rw [heq]
  · exact h.bwFlush ⟨hb, hf⟩
  · exact h

/-- The early stores of a BW.WRITE are of whole bytes that are not yet final (R84). -/
theorem State.UnitsSound.bwDrain (h : s.UnitsSound) (hr : s.bw.ready) : s.bwDrain.UnitsSound := by
  obtain ⟨hbr, hbw, hstale, hdrained⟩ := h
  refine ⟨hbr, hbw, BitReader.staleSound.drain hstale _ _ _, fun k hk => ?_⟩
  obtain hold | ⟨hlo, hhi⟩ := MemSystem.mem_drained_drain hk
  · exact hdrained k hold
  · rw [length_wholeBytes] at hhi
    exact ⟨hr.1, hr.2, hlo, by simp only [State.bwDrain_bw]; omega⟩

theorem State.UnitsSound.bwAppend (h : s.UnitsSound) (hr : s.bw.ready) {n : Nat}
    (hfit : s.bw.bits.length + n ≤ 8 * s.bw.cap.toNat) : (s.bwAppend n).UnitsSound := by
  obtain ⟨hbr, hbw, hstale, hdrained⟩ := h
  have hadd := hbw.append hr (bitsN n s.arg.toNat) (by rwa [length_bitsN])
  rw [length_bitsN] at hadd
  refine ⟨hbr, hadd, hstale, fun k hk => ?_⟩
  obtain ⟨hb, hf, hlo, hhi⟩ := hdrained k hk
  exact ⟨hb, hf, hlo, hhi.trans (by simp)⟩

theorem State.UnitsSound.brTake (h : s.UnitsSound) {n : Nat} (ht : s.brTake n = .next t) : t.UnitsSound := by
  obtain ⟨e, -, rfl⟩ | ⟨hr, -, rfl⟩ | ⟨hr, hn, rfl⟩ := s.brTake_next ht
  · exact h.raise_none e
  · exact h.raise _ (fun _ => (s.brReady_eq_none_iff.1 hr).1) nofun
  · obtain ⟨hb, hf⟩ := s.brReady_eq_none_iff.1 hr
    obtain ⟨hbr, hbw, hhaz⟩ := h
    exact ⟨hbr.advance hn hb hf, hbw, hhaz⟩

theorem State.UnitsSound.brReport (h : s.UnitsSound) {v : Word} (ht : s.brReport v = .next t) : t.UnitsSound := by
  obtain ⟨e, -, rfl⟩ | ⟨-, rfl⟩ := s.brReport_next ht
  · exact h.raise_none e
  · exact h

theorem State.UnitsSound.exec_array (h : s.UnitsSound) {i : Instr} (hi : i.isArray = true) (ht : exec i s = .next t) :
    t.UnitsSound := by
  obtain ⟨e, rfl⟩ | ⟨e, n, -, rfl⟩ | ⟨e, bs, -, rfl⟩ | ⟨bs, sh, -, rfl⟩ := exec_array_next hi ht
  · exact h.raise_none e
  · exact (h.scramble _ _).raise_none e
  · exact (h.storeSome _ _).raise_none e
  · exact h.store _ _

theorem State.UnitsSound.exec_bwWrite (h : s.UnitsSound) {n : BitVec 7} (ht : exec (.bwWrite n) s = .next t) :
    t.UnitsSound := by
  obtain ⟨-, rfl⟩ | ⟨-, e, -, rfl⟩ | ⟨-, hr, -, rfl⟩ | ⟨-, hr, hfit, rfl⟩ := execBwWrite_next ht
  · exact h.raise_none _
  · exact h.raise_none e
  · exact (h.raise (u := .writer) _ nofun fun _ => (s.bwReady_eq_none_iff.1 hr).1).scramble _ _
  · have hready : s.bw.ready := s.bwReady_eq_none_iff.1 hr
    exact (h.bwAppend hready hfit).bwDrain (s := s.bwAppend n.toNat) hready

end

/-- Every command keeps the bounds of the units and their records (R50, R53). -/
theorem State.UnitsSound.exec {i : Instr} {s t : State} (h : s.UnitsSound) (ht : exec i s = .next t) :
    t.UnitsSound := by
  cases i with
  | brInit =>
    obtain ⟨e, -, rfl⟩ | ⟨hpass, rfl⟩ := execBrInit_next ht
    · exact h.raise_none e
    · obtain ⟨-, hbw, -, hdrained⟩ := h
      exact ⟨⟨nofun, fun _ => Platform.legal_of_admitOne hpass, fun _ _ => Nat.zero_le _⟩, hbw, nofun, hdrained⟩
  | brRead n =>
    obtain ⟨-, rfl⟩ | ⟨-, ht⟩ := execBrRead_next ht
    · exact h.raise_none _
    · exact h.brTake ht
  | brReadbit => exact h.brTake ht
  | brPeek =>
    obtain ⟨e, -, rfl⟩ | ⟨hr, -, rfl⟩ | ⟨-, -, rfl⟩ := execBrPeek_next ht
    · exact h.raise_none e
    · exact h.raise _ (fun _ => (s.brReady_eq_none_iff.1 hr).1) nofun
    · exact h
  | brEof | brCount | brRemain => exact h.brReport ht
  | brRelease =>
    cases ht
    obtain ⟨-, hbw, -, hdrained⟩ := h
    exact ⟨⟨nofun, nofun, nofun⟩, hbw, nofun, hdrained⟩
  | bwInit =>
    obtain ⟨e, -, rfl⟩ | ⟨hpass, rfl⟩ := execBwInit_next ht
    · exact h.raise_none e
    · obtain ⟨hbr, -, hstale, -⟩ := h.bwSettle
      exact ⟨hbr, ⟨nofun, fun _ => Platform.legal_of_admitOne hpass, fun _ _ => ⟨Nat.zero_le _, Nat.le_refl _, Nat.le_refl _⟩⟩,
        .of_stale hstale⟩
  | bwWrite n => exact h.exec_bwWrite ht
  | bwFlush =>
    obtain ⟨e, -, rfl⟩ | ⟨hr, rfl⟩ := execBwFlush_next ht
    · exact h.raise_none e
    · exact h.bwFlush (s.bwReady_eq_none_iff.1 hr)
  | bwCount =>
    obtain ⟨e, -, rfl⟩ | ⟨-, rfl⟩ := execBwCount_next ht
    · exact h.raise_none e
    · exact h
  | bwRelease =>
    cases ht
    obtain ⟨hbr, -, hstale, -⟩ := h.bwSettle
    exact ⟨hbr, ⟨nofun, nofun, nofun⟩, .of_stale hstale⟩
  | gorEnc w | gorDec w | bssEnc w | bssDec w => exact h.exec_array rfl ht

/-! ## The machine -/

theorem ErrorCode.code_le (e : ErrorCode) : e.code.toNat ≤ 10 := by cases e <;> decide

/-- Every command leaves a code of R261, and SHORT only without an error (R43). -/
theorem exec_statusSound {i : Instr} {s t : State} (h : exec i s = .next t) : statusSound t.err t.short := by
  obtain ⟨e, he⟩ | hc := exec_ends h
  · rw [he.err, he.short]
    exact ⟨e.code_le, nofun⟩
  · rw [hc.err]
    exact ⟨Nat.zero_le _, fun _ => rfl⟩

theorem State.memorySound.of_touches {s t : State} {r : Region} (h : s.memorySound) (ht : s.ms.TouchesRegion t.ms r)
    (hr : r.base + r.len ≤ Config.addrSpace) : t.memorySound := by
  obtain ⟨hwf, hkeys⟩ := h
  refine ⟨ht.wf hwf, fun c hc => ?_⟩
  obtain hold | ⟨-, hlt⟩ := ht.keys c hc
  · exact hkeys c hold
  · exact hlt.trans_le hr

section
variable {s t : State}

theorem State.Sound.units (h : s.Sound) : s.UnitsSound := h.2.1.2

/-- A write of memory inside the address space keeps the invariant when the instance satisfies it after. -/
theorem State.Sound.of_touches {r : Region} (h : s.Sound) (ht : s.ms.TouchesRegion t.ms r)
    (hr : r.base + r.len ≤ Config.addrSpace) (hst : statusSound t.err t.short) (hu : t.UnitsSound) (hid : t.id = s.id)
    (hp : t.platform = s.platform) : t.Sound := by
  obtain ⟨hmem, -, hothers, hinst⟩ := h
  refine ⟨hmem.of_touches ht hr, ⟨hst, hu⟩, Block.KeptBy.sound_all ht.others hothers, ?_⟩
  have hids := Block.id_of_registers (Block.KeptBy.map_registers ht.others)
  rw [State.instancesSound, hid, hp, hids]
  exact hinst

/-- The bytes a command could write lie inside the address space, once its checks pass (R74, R167). -/
theorem State.Sound.writableOf_le (h : s.Sound) {i : Instr} (hi : i.isArray = true → s.arrayAdmission = .pass) :
    (s.writableOf i).base + (s.writableOf i).len ≤ Config.addrSpace := by
  by_cases ha : i.isArray = true
  · obtain ⟨-, hlegal, -, -⟩ := State.legal_of_arrayAdmission (hi ha)
    rw [s.writableOf_array ha]
    exact ((legalRange_iff _ _).1 hlegal).2
  · rw [Bool.not_eq_true] at ha
    by_cases hm : i.mayStore = true
    · by_cases hr : s.bw.ready
      · obtain ⟨-, hrange, hsize⟩ := h.units.2.1
        obtain ⟨-, hspace⟩ := hrange hr.1
        obtain ⟨hbits, hfinal, -⟩ := hsize hr.1 hr.2
        rw [State.writableOf_of_ready hm hr]
        refine le_trans ?_ hspace
        simp only
        omega
      · rw [State.writableOf_of_notReady hm hr]
        exact Nat.zero_le _
    · rw [s.writableOf_other ha (by simpa using hm)]
      exact Nat.zero_le _

/-- A Gorilla or BSS command that does not pass the checks of R194 ends in their error. -/
theorem exec_array_checked {i : Instr} (hi : i.isArray = true) (h : exec i s = .next t) :
    s.arrayAdmission = .pass ∨ ∃ e, t = s.raise .none e := by
  cases i with
  | gorEnc w => exact (execGorEnc_next h).symm.imp And.left fun ⟨e, _, ht⟩ => ⟨e, ht⟩
  | gorDec w => exact (execGorDec_next h).symm.imp And.left fun ⟨e, _, ht⟩ => ⟨e, ht⟩
  | bssEnc w => exact (execBssEnc_next h).symm.imp And.left fun ⟨e, _, ht⟩ => ⟨e, ht⟩
  | bssDec w => exact (execBssDec_next h).symm.imp And.left fun ⟨e, _, ht⟩ => ⟨e, ht⟩
  | _ => cases hi

theorem State.Sound.raise_none (h : s.Sound) (e : ErrorCode) : (s.raise .none e).Sound :=
  h.of_touches (r := ⟨0, 0⟩) (.of_cells _ rfl rfl) (Nat.zero_le _) ⟨e.code_le, nofun⟩ (h.units.raise_none e) rfl rfl

/-- Every command keeps the invariant. -/
theorem State.Sound.exec {i : Instr} (h : s.Sound) (ht : exec i s = .next t) : t.Sound := by
  have hchecked : (i.isArray = true → s.arrayAdmission = .pass) ∨ ∃ e, t = s.raise .none e := by
    by_cases ha : i.isArray = true
    · exact (exec_array_checked ha ht).imp_left fun hp _ => hp
    · exact .inl fun ha' => absurd ha' ha
  obtain hpass | ⟨e, rfl⟩ := hchecked
  · obtain ⟨hid, -, -, -, -, -, -, -, hplat, -⟩ := exec_sameInputs ht
    exact h.of_touches (exec_touches ht fun _ _ => h.units.2.1) (h.writableOf_le hpass) (exec_statusSound ht)
      (h.units.exec ht) hid hplat
  · exact h.raise_none e

theorem State.Sound.runCommand (h : s.Sound) {c : Word} (ht : runCommand c s = .next t) : t.Sound := by
  unfold Machine.runCommand at ht
  split at ht
  · exact h.exec ht
  · cases ht
    exact h.raise_none _

theorem State.Sound.writeRegister (h : s.Sound) {v : Word} {r : Register} (ht : s.writeRegister v r = .next t) :
    t.Sound := by
  cases r with
  | cmd => exact State.Sound.runCommand (s := { s with cmd := v }) h ht
  | status | result | outLen | reserved | arg | srcBase | srcLen | dstBase | dstCap =>
    cases ht
    exact h

/-! ## Operations of the host -/

theorem State.UnitsSound.applyReset (s : State) : s.applyReset.UnitsSound :=
  ⟨⟨nofun, nofun, nofun⟩, ⟨nofun, nofun, nofun⟩, nofun, nofun⟩

theorem State.Sound.applyReset (h : s.Sound) : s.applyReset.Sound :=
  h.of_touches (r := ⟨0, 0⟩) (.of_cells _ rfl rfl) (Nat.zero_le _) ⟨Nat.zero_le _, nofun⟩ (.applyReset s) rfl rfl

/-- Everything a reset during a command can do: a reset, and after it, once the command's checks pass, the bytes it could
write left unspecified (R293). -/
theorem State.resetDuring_next {c : Word} (h : s.resetDuring c = .next t) :
    t = s.applyReset ∨ ∃ i, decode c = .ok i ∧ s.admissionOf i = .pass
      ∧ t = s.applyReset.scramble (s.writableOf i).base (s.writableOf i).len := by
  unfold State.resetDuring at h
  split at h
  case h_1 =>
    cases h
    exact .inl rfl
  case h_2 i hi =>
    split at h
    case h_1 =>
      cases h
      exact .inl rfl
    case h_4 hpass =>
      cases h
      exact .inr ⟨i, hi, hpass, rfl⟩
    all_goals cases h

theorem State.admissionOf_array (s : State) {i : Instr} (hi : i.isArray = true) : s.admissionOf i = s.arrayAdmission := by
  cases i with
  | gorEnc w | gorDec w | bssEnc w | bssDec w => rfl
  | _ => cases hi

theorem State.scramble_applyReset_touches (s : State) (r : Region) :
    s.ms.TouchesRegion (s.applyReset.scramble r.base r.len).ms r :=
  .trans (m' := s.applyReset.ms) (.of_cells _ _ rfl rfl) (MemSystem.scramble_touches _ _ _ _ _)

theorem State.Sound.resetDuring (h : s.Sound) {c : Word} (ht : s.resetDuring c = .next t) : t.Sound := by
  obtain rfl | ⟨i, -, hpass, rfl⟩ := State.resetDuring_next ht
  · exact h.applyReset
  · exact h.of_touches (s.scramble_applyReset_touches _)
      (h.writableOf_le fun ha => (s.admissionOf_array ha).symm.trans hpass) ⟨Nat.zero_le _, nofun⟩
      ((State.UnitsSound.applyReset s).scramble _ _) rfl rfl

/-- Everything turning to another instance can do (R278). -/
theorem State.select_next {k : Nat} (h : s.select k = .next t) :
    t = s ∨ ∃ p ps, exchange k s.block s.ms.others = some (p, ps) ∧ t = s.become p ps := by
  unfold State.select at h
  split at h
  · cases h
    exact .inl rfl
  · split at h
    · cases h
      exact .inr ⟨_, _, ‹_›, rfl⟩
    · cases h

/-- The invariant speaks of the instances without regard to which of them the state holds. -/
theorem State.sound_iff (s : State) :
    s.Sound ↔ s.memorySound ∧ (∀ p ∈ s.block :: s.ms.others, p.Sound)
      ∧ ((s.block :: s.ms.others).map Block.id).Perm (List.range s.platform.windows.length) := by
  rw [State.Sound, List.forall_mem_cons, and_assoc]
  rfl

theorem State.Sound.become (h : s.Sound) {k : Nat} {p : Block} {ps : List Block}
    (hx : exchange k s.block s.ms.others = some (p, ps)) : (s.become p ps).Sound := by
  obtain ⟨-, hperm⟩ := exchange_perm hx
  obtain ⟨hmem, hall, hids⟩ := s.sound_iff.1 h
  refine (s.become p ps).sound_iff.2 ⟨hmem, fun q hq => hall q (hperm.mem_iff.1 hq), ?_⟩
  exact (hperm.map Block.id).trans hids

theorem State.Sound.memWrite (h : s.Sound) (a : Word) (b : Byte) :
    ({ s with ms := s.ms.putForeign s.br s.bw a.toNat b } : State).Sound := by
  obtain ⟨hbr, hbw, hhaz⟩ := h.units
  exact h.of_touches (r := ⟨a.toNat, 1⟩) (MemSystem.putForeign_touches _ _ _ _ _) a.isLt h.2.1.1
    ⟨hbr, hbw, hhaz.noteWrite _ _⟩ rfl rfl

/-- An access to the window that has an outcome is the driving agent's (R277). -/
theorem State.driven_next {r : Result} (h : s.driven r = .next t) : r = .next t := by
  unfold State.driven at h
  split at h
  · exact h
  · cases h

theorem State.Sound.hostAccess (h : s.Sound) {op : HostOp} (ht : hostAccess s op = .next t) : t.Sound := by
  cases op with
  | select k =>
    obtain rfl | ⟨p, ps, hx, rfl⟩ := State.select_next ht
    · exact h
    · exact h.become hx
  | turn g =>
    cases ht
    exact h
  | handOver g =>
    cases State.driven_next ht
    exact h
  | regWrite off size v =>
    simp only [Machine.hostAccess] at ht
    split at ht
    · exact h.writeRegister (State.driven_next ht)
    · cases ht
  | regRead off size =>
    simp only [Machine.hostAccess] at ht
    split at ht
    · cases State.driven_next ht
      exact h
    · cases ht
  | memWrite a b =>
    simp only [Machine.hostAccess] at ht
    split at ht
    · cases ht
    · cases ht
      exact h.memWrite a b
  | memRead a =>
    simp only [Machine.hostAccess] at ht
    split at ht
    · cases ht
    · cases ht
      exact h
  | reset =>
    cases ht
    exact h.applyReset
  | resetDuring c => exact h.resetDuring (State.driven_next ht)

end

/-! ## The statements -/

/-- Settles O16: both units are unbound, memory lists nothing, and the one instance is the platform's. -/
theorem resetStateIsSound : Obligations.ResetStateIsSound := by
  refine ⟨⟨rfl, nofun⟩, ⟨⟨Nat.zero_le _, nofun⟩, ⟨nofun, nofun, nofun⟩, ⟨nofun, nofun, nofun⟩, nofun, nofun⟩, nofun, ?_⟩
  exact .refl _

/-- Settles O17: a step performs an operation of the host on a state that satisfies the invariant too. -/
theorem stepKeepsSound : Obligations.StepKeepsSound := by
  intro s t h ht
  cases hhost : s.host with
  | nil =>
    rw [step, hostStep, hhost] at ht
    cases ht
    exact h
  | cons op rest =>
    rw [step_of_host hhost] at ht
    exact State.Sound.hostAccess (s := { s with host := rest }) h ht

end Sys2Proof.Machine

/-! The operations of the host (10_state.md R31 to R39, 60_exceptions.md R277, R278, 70_reset_and_hazards.md R290, R293): the
accesses that are refused, memory a byte at a time, a reset that cuts a command short, then the statements. -/

namespace Sys2Proof.Machine

open Sys2Proof

/-! ## Refused accesses -/

theorem State.driven_of_ne {s : State} (h : s.agent ≠ s.driver) (r : Result) : s.driven r = .refused .sharedInstance :=
  if_neg h

theorem alignedAccess_eq_false {off : BitVec 8} {size : AccessSize} (h : size ≠ .dword ∨ off.toNat % 8 ≠ 0) :
    ¬alignedAccess off size = true := by
  rw [alignedAccess_iff]
  tauto

/-- An instance that the platform does not hold cannot be turned to (R278). -/
theorem State.select_of_absent {s : State} {k : Nat} (hk : k ≠ s.id) (h : ∀ p ∈ s.ms.others, p.id ≠ k) :
    s.select k = .refused .noInstance := by
  rw [State.select, if_neg hk, exchange_eq_none h]

/-! ## Memory -/

/-- An address lies in the register window of some instance (R31, R39). -/
theorem Platform.inWindow_iff (p : Platform) (a : Nat) :
    (p.windowRegions.any fun r => r.contains a) = true ↔ ∃ b ∈ p.windows, b.toNat ≤ a ∧ a < b.toNat + 0x100 := by
  simp only [Platform.windowRegions, List.any_map, List.any_eq_true, Function.comp_apply, Region.contains_iff]
  rfl

theorem Platform.inDevice_iff (p : Platform) (a : Nat) :
    (p.devices.any fun r => r.contains a) = true ↔ ∃ d ∈ p.devices, d.base ≤ a ∧ a < d.base + d.len := by
  simp only [List.any_eq_true, Region.contains_iff]

/-- What stands at an address that is in no window and no device is ordinary memory. -/
theorem Platform.hostRefusal_eq_none {p : Platform} {a : Nat}
    (hw : ¬∃ b ∈ p.windows, b.toNat ≤ a ∧ a < b.toNat + 0x100)
    (hd : ¬∃ d ∈ p.devices, d.base ≤ a ∧ a < d.base + d.len) : p.hostRefusal a = none := by
  rw [Platform.hostRefusal, if_neg (mt (p.inWindow_iff a).1 hw), if_neg (mt (p.inDevice_iff a).1 hd)]

theorem step_memWrite_of_admitted {s : State} {a : Word} {b : Byte} {rest : List HostOp}
    (hp : s.platform.hostRefusal a.toNat = none) (h : s.host = .memWrite a b :: rest) :
    step s = .next { s with host := rest, ms := s.ms.putForeign s.br s.bw a.toNat b } := by
  rw [step_of_host h]
  simp only [hostAccess, hp]

theorem step_memRead_of_admitted {s : State} {a : Word} {rest : List HostOp}
    (hp : s.platform.hostRefusal a.toNat = none) (h : s.host = .memRead a :: rest) :
    step s = .next { s with host := rest, hostData := (s.byteAt a.toNat).setWidth 64 } := by
  rw [step_of_host h]
  simp only [hostAccess, hp]
  rfl

/-- A byte access to what is not ordinary memory is refused (R39, R85). -/
theorem step_mem_of_refused {s : State} {a : Word} {rest : List HostOp} {r : Refusal}
    (hp : s.platform.hostRefusal a.toNat = some r) :
    (∀ b, s.host = .memWrite a b :: rest → step s = .refused r)
      ∧ (s.host = .memRead a :: rest → step s = .refused r) := by
  refine ⟨fun b h => ?_, fun h => ?_⟩ <;> rw [step_of_host h] <;> simp only [hostAccess, hp]

/-! ## Reset -/

/-- STATUS after a reset, whatever has become of memory (R44, R290). -/
theorem State.status_of_reset {s : State} (herr : s.err = 0) (hshort : s.short = false) (hbr : s.br = .reset)
    (hbw : s.bw = .reset) : s.status = 0 := by
  rw [State.status, herr, hshort, hbr, hbw]
  decide

/-- A reset during a command whose checks have an outcome leaves the reset state, with some of the bytes the command could
write unspecified, or none when an error turns it away (R293). -/
theorem State.resetDuring_of_admitted {s : State} {c : Word} {i : Instr} (hc : decode c = .ok i)
    (hs : s.admissionOf i ≠ .stuck) (hd : s.admissionOf i ≠ .device) :
    ∃ n, n ≤ (s.writableOf i).len
      ∧ s.resetDuring c = .next (s.applyReset.scramble (s.writableOf i).base n) := by
  cases hadm : s.admissionOf i with
  | error e => exact ⟨0, Nat.zero_le _, by rw [State.resetDuring, hc]; simp only [hadm]; rfl⟩
  | pass => exact ⟨_, le_rfl, by rw [State.resetDuring, hc]; simp only [hadm]⟩
  | stuck => exact absurd hadm hs
  | device => exact absurd hadm hd

/-! ## The statements -/

/-- Settles O5: a write of CMD runs the command that the value decodes to. -/
theorem stepPerformsDecodedCommand : Obligations.StepPerformsDecodedCommand := by
  intro s c i rest hc hag h
  rw [step_writeCmd hag h, runCommand, hc]

/-- Settles O8: each access is the rule of its kind at the register of its offset, and turning to another instance is an
exchange, which keeps the instances. -/
theorem registerWindow : Obligations.RegisterWindow := by
  refine ⟨fun s v rest hag => ?_, fun s g rest h => step_of_host h, fun s rest h => ?_, fun s k rest hk hp h => ?_⟩
  · refine ⟨fun h => step_regWrite rfl hag h, fun h => step_regWrite rfl hag h, fun h => step_regWrite rfl hag h,
      fun h => step_regWrite rfl hag h, fun h => step_regWrite rfl hag h, fun h => step_regRead rfl hag h,
      fun h => step_regRead rfl hag h, fun h => step_regRead rfl hag h, fun h => step_regRead rfl hag h,
      fun h => step_regRead rfl hag h, fun h => step_regRead rfl hag h, fun h => step_regRead rfl hag h,
      fun h => step_regRead rfl hag h, fun h => step_regRead rfl hag h, fun g h => ?_⟩
    exact (step_of_host h).trans (State.driven_of_agent _ hag)
  · exact (step_of_host h).trans (if_pos rfl)
  · obtain ⟨p, ps, hx⟩ := exchange_isSome (b := s.block) hp
    obtain ⟨hid, hperm⟩ := exchange_perm hx
    refine ⟨State.become { s with host := rest } p ps, ?_, hid, hperm, rfl, rfl, rfl, rfl, rfl, rfl⟩
    have hblock : State.block { s with host := rest } = s.block := rfl
    rw [step_of_host h, hostAccess, State.select, if_neg hk, hblock]
    simp only [hx]

/-- Settles O10: an access is checked for its shape, then for the agent that makes it. -/
theorem otherWindowAccessesAreRefused : Obligations.OtherWindowAccessesAreRefused := by
  refine ⟨fun s off size v rest hbad => ⟨fun h => ?_, fun h => ?_⟩,
    fun s off v g rest hoff hag => ⟨fun h => ?_, fun h => ?_, fun h => ?_, fun h => ?_⟩, fun s k rest hk hp h => ?_⟩
  · exact (step_of_host h).trans (if_neg (alignedAccess_eq_false hbad))
  · exact (step_of_host h).trans (if_neg (alignedAccess_eq_false hbad))
  · have haligned := (alignedAccess_iff off .dword).2 ⟨rfl, hoff⟩
    exact (step_of_host h).trans ((if_pos haligned).trans (State.driven_of_ne hag _))
  · have haligned := (alignedAccess_iff off .dword).2 ⟨rfl, hoff⟩
    exact (step_of_host h).trans ((if_pos haligned).trans (State.driven_of_ne hag _))
  · exact (step_of_host h).trans (State.driven_of_ne hag _)
  · exact (step_of_host h).trans (State.driven_of_ne hag _)
  · exact (step_of_host h).trans (State.select_of_absent hk hp)

/-- Settles O14: the state after is `State.applyReset`. -/
theorem resetState : Obligations.ResetState := fun _ _ h =>
  ⟨_, step_of_host h, rfl, rfl, rfl, rfl, rfl, rfl, rfl, rfl, rfl, rfl, State.status_of_reset rfl rfl rfl rfl, rfl, rfl,
    fun _ => rfl, rfl, rfl, rfl, rfl, rfl, rfl, rfl⟩

/-- Settles O15: what a reset during a command leaves unspecified lies in the bytes that the command could write. -/
theorem resetDuringACommand : Obligations.ResetDuringACommand := by
  intro s c i rest hc hag hs hd h
  obtain ⟨n, hn, hreset⟩ := State.resetDuring_of_admitted (s := { s with host := rest }) hc hs hd
  have hwritable : State.writableOf { s with host := rest } i = s.writableOf i := by cases i <;> rfl
  rw [hwritable] at hn hreset
  have htouch : s.ms.TouchesRegion (State.scramble (State.applyReset { s with host := rest }) (s.writableOf i).base n).ms
      (s.writableOf i) :=
    (State.scramble_applyReset_touches { s with host := rest } ⟨(s.writableOf i).base, n⟩).mono le_rfl
      (Nat.add_le_add_left hn _)
  refine ⟨_, (step_of_host h).trans ((State.driven_of_agent _ hag).trans hreset), rfl, rfl, rfl, rfl, rfl, rfl, rfl, rfl,
    State.status_of_reset rfl rfl rfl rfl, rfl, rfl, fun ha => ?_, fun hm hr => ?_, fun hm hr a => ?_, fun ha hm a => ?_, ?_⟩
  · rw [s.writableOf_array ha] at htouch ⊢
    exact htouch.read
  · rw [State.writableOf_of_ready hm hr] at htouch ⊢
    exact htouch.read
  · rw [State.writableOf_of_notReady hm hr] at htouch ⊢
    exact htouch.read_of_empty a
  · rw [s.writableOf_other ha hm] at htouch ⊢
    exact htouch.read_of_empty a
  · exact Block.KeptBy.map_registers htouch.others

/-- Settles O45: what stands at the address decides, a window before a device. -/
theorem hostMemoryAccesses : Obligations.HostMemoryAccesses := by
  intro s a rest inWindow inDevice
  refine ⟨fun hw hd => ⟨fun b h => ?_, fun h => ?_⟩, fun hw => step_mem_of_refused ?_, fun hw hd => step_mem_of_refused ?_⟩
  · have htouch := s.ms.putForeign_touches s.br s.bw a.toNat b
    refine ⟨_, step_memWrite_of_admitted (Platform.hostRefusal_eq_none hw hd) h, Memory.read_write_same _ _ _,
      fun x hx => htouch.read x (by omega), ?_⟩
    exact Block.KeptBy.map_registers htouch.others
  · exact step_memRead_of_admitted (Platform.hostRefusal_eq_none hw hd) h
  · rw [Platform.hostRefusal, if_pos ((s.platform.inWindow_iff _).2 hw)]
  · rw [Platform.hostRefusal, if_neg (mt (s.platform.inWindow_iff _).1 hw), if_pos ((s.platform.inDevice_iff _).2 hd)]

end Sys2Proof.Machine

/-! The checks on the ranges a command names (20_memory.md R72, R74, R75, 43_gorilla.md R194, 60_exceptions.md R262): what the
commands make of each answer, when each answer comes, then the statements. -/

namespace Sys2Proof.Machine

open Sys2Proof

/-! ## A command behind its checks -/

/-- What a command that names ranges makes of the answer of its checks; `go` is the command once they pass. -/
def State.checked (s : State) (a : Admission) (go : Result) : Result :=
  match a with
  | .error e => .next (s.raise .none e)
  | .stuck => .fault .noAdmissionCheck
  | .device => .refused .deviceRange
  | .pass => go

/-- A Gorilla or BSS command is behind the checks of R194. -/
theorem exec_array_eq_checked {i : Instr} (s : State) (hi : i.isArray = true) :
    ∃ go, exec i s = s.checked s.arrayAdmission go := by
  cases i with
  | gorEnc w => exact ⟨.next (s.gorEncode w), by rw [exec, execGorEnc]; cases s.arrayAdmission <;> rfl⟩
  | gorDec w => exact ⟨.next (s.gorDecode w), by rw [exec, execGorDec]; cases s.arrayAdmission <;> rfl⟩
  | bssEnc w =>
    exact ⟨.next (s.bssMove w (bssSplit w.bytes)), by rw [exec, execBssEnc]; cases s.arrayAdmission <;> rfl⟩
  | bssDec w =>
    exact ⟨.next (s.bssMove w (bssJoin w.bytes)), by rw [exec, execBssDec]; cases s.arrayAdmission <;> rfl⟩
  | _ => cases hi

theorem exec_brInit_eq_checked (s : State) :
    exec .brInit s = s.checked (s.platform.admitOne s.srcBase s.srcLen) (.next ({ s with
      br := { bound := true, fault := false, base := s.srcBase, len := s.srcLen, pos := 0 }
      ms := { s.ms with stale := [] } }.complete)) := by
  rw [exec, execBrInit]
  cases s.platform.admitOne s.srcBase s.srcLen <;> rfl

theorem exec_bwInit_eq_checked (s : State) :
    exec .bwInit s = s.checked (s.platform.admitOne s.dstBase s.dstCap) (.next ({ s.bwSettle with
      bw := { bound := true, fault := false, base := s.dstBase, cap := s.dstCap, bits := [], user := 0, final := 0 }
      ms := { s.bwSettle.ms with drained := [] } }.complete)) := by
  rw [exec, execBwInit]
  cases s.platform.admitOne s.dstBase s.dstCap <;> rfl

/-! ## When each answer comes -/

section
variable {p : Platform} {rs : List Region} {r : Region} {a : Nat}

/-- A byte of the ranges is a byte to check. -/
theorem not_all_empty (hr : r ∈ rs) (ha : r.contains a = true) : ¬(rs.all fun r => r.len == 0) = true := by
  rw [all_empty_iff]
  intro h
  exact absurd (ha.symm.trans (h r hr a)) (by decide)

/-- A platform that cannot check in advance gives a range of some byte no answer (R262). -/
theorem Platform.admission_eq_stuck (hc : p.checksAhead = false) (hr : r ∈ rs) (ha : r.contains a = true) :
    p.admission rs = .stuck := by
  rw [Platform.admission, if_neg (not_all_empty hr ha), hc]
  rfl

/-- A byte of a device or of a register window is refused when every byte of the ranges is admitted (R85). -/
theorem Platform.admission_eq_device (hc : p.checksAhead = true) (hr : r ∈ rs) (ha : r.contains a = true)
    (hadm : ∀ r ∈ rs, ∀ a, r.contains a = true → p.admits a = true)
    (hd : ∃ d ∈ p.windowRegions ++ p.devices, d.contains a = true) : p.admission rs = .device := by
  have hbus : ¬(rs.any fun r => p.denied.any r.meets) = true := by
    rw [Platform.denied_meets_iff]
    rintro ⟨q, hq, x, hx, hn⟩
    exact absurd ((hadm q hq x hx).symm.trans hn) (by decide)
  have hdev : (rs.any fun r => (p.windowRegions ++ p.devices).any r.meets) = true := by
    obtain ⟨d, hd, hda⟩ := hd
    exact List.any_eq_true.2 ⟨r, hr, List.any_eq_true.2 ⟨d, hd, (Region.meets_iff r d).2 ⟨a, ha, hda⟩⟩⟩
  rw [Platform.admission, if_neg (not_all_empty hr ha), hc, if_neg (by decide), if_neg hbus, if_pos hdev]

end

theorem Platform.admitOne_of_legal (p : Platform) {base len : Word}
    (h : len.toNat ≤ 2 ^ 61 - 1 ∧ base.toNat + len.toNat ≤ 2 ^ 64) :
    p.admitOne base len = p.admission [regionOf base len] := if_pos ((legalRange_iff base len).2 h)

theorem Platform.admitOne_of_illegal (p : Platform) {base len : Word}
    (h : ¬(len.toNat ≤ 2 ^ 61 - 1 ∧ base.toNat + len.toNat ≤ 2 ^ 64)) : p.admitOne base len = .error .range :=
  if_neg (mt (legalRange_iff base len).1 h)

/-- A range with a byte that the platform does not admit is ERR_BUS (R72). -/
theorem Platform.admitOne_eq_bus {p : Platform} {base len : Word}
    (h : len.toNat ≤ 2 ^ 61 - 1 ∧ base.toNat + len.toNat ≤ 2 ^ 64) (hc : p.checksAhead = true)
    (ha : ∃ a, base.toNat ≤ a ∧ a < base.toNat + len.toNat ∧ p.admits a = false) : p.admitOne base len = .error .bus := by
  obtain ⟨a, hlo, hhi, hn⟩ := ha
  rw [p.admitOne_of_legal h]
  exact Platform.admission_eq_bus hc (.head _) ((regionOf_contains_iff base len a).2 ⟨hlo, hhi⟩) hn

section
variable {s : State}

theorem State.arrayAdmission_of_illegal
    (h : ¬(legalRange s.srcBase s.srcLen = true ∧ legalRange s.dstBase s.dstCap = true)) :
    s.arrayAdmission = .error .range := by
  by_cases hsrc : legalRange s.srcBase s.srcLen = true
  · have hdst : legalRange s.dstBase s.dstCap = false := by simpa [hsrc] using h
    simp [State.arrayAdmission, hdst]
  · simp [State.arrayAdmission, hsrc]

theorem State.arrayAdmission_of_legal (hsrc : legalRange s.srcBase s.srcLen = true)
    (hdst : legalRange s.dstBase s.dstCap = true) :
    s.arrayAdmission = if s.srcRegion.meets s.dstRegion then .error .overlap
      else s.platform.admission [s.srcRegion, s.dstRegion] := by
  simp [State.arrayAdmission, hsrc, hdst]

end

/-- A byte of a device or of a register window, as the statement of the refusals has it. -/
theorem Platform.special_iff (p : Platform) (a : Nat) :
    (∃ d ∈ p.windowRegions ++ p.devices, d.contains a = true)
      ↔ (∃ b ∈ p.windows, b.toNat ≤ a ∧ a < b.toNat + 0x100) ∨ ∃ d ∈ p.devices, d.contains a = true := by
  rw [← p.inWindow_iff]
  simp only [List.mem_append, or_and_right, exists_or, List.any_eq_true]

/-! ## The statements -/

/-- Settles O22: the answers of `State.arrayAdmission` in its order, and what every array command makes of an error. -/
theorem arrayChecksInOrder : Obligations.ArrayChecksInOrder := by
  intro i s hi legal inSrc inDst failsWith
  obtain ⟨go, hexec⟩ := exec_array_eq_checked s hi
  have hlegal : legal ↔ legalRange s.srcBase s.srcLen = true ∧ legalRange s.dstBase s.dstCap = true := by
    rw [legalRange_iff, legalRange_iff, and_assoc]
  have hmeets : (∃ a, inSrc a ∧ inDst a) ↔ s.srcRegion.meets s.dstRegion = true := by
    rw [Region.meets_iff]
    simp only [State.srcRegion, State.dstRegion, regionOf_contains_iff, inSrc, inDst]
  have hfails : ∀ e, s.arrayAdmission = .error e → failsWith e.code := fun e he => by
    rw [he] at hexec
    exact hexec
  refine ⟨fun hn => hfails .range (State.arrayAdmission_of_illegal (mt hlegal.2 hn)), fun hl hx => hfails .overlap ?_,
    fun hl hx hc ha => hfails .bus ?_⟩
  · obtain ⟨hsrc, hdst⟩ := hlegal.1 hl
    rw [State.arrayAdmission_of_legal hsrc hdst, if_pos (hmeets.1 hx)]
  · obtain ⟨hsrc, hdst⟩ := hlegal.1 hl
    rw [State.arrayAdmission_of_legal hsrc hdst, if_neg (mt hmeets.2 hx)]
    obtain ⟨a, ha | ha, hn⟩ := ha
    · exact Platform.admission_eq_bus hc (.head _) ((regionOf_contains_iff _ _ a).2 ha) hn
    · exact Platform.admission_eq_bus hc (.tail _ (.head _)) ((regionOf_contains_iff _ _ a).2 ha) hn

/-- Settles O23: both commands are behind the check of their one range, whose errors leave the units and memory alone. -/
theorem initErrors : Obligations.InitErrors := by
  intro s failsWith
  have hbr : ∀ e, s.platform.admitOne s.srcBase s.srcLen = .error e → failsWith .brInit e.code := fun e he =>
    (exec_brInit_eq_checked s).trans (by rw [he]; rfl)
  have hbw : ∀ e, s.platform.admitOne s.dstBase s.dstCap = .error e → failsWith .bwInit e.code := fun e he =>
    (exec_bwInit_eq_checked s).trans (by rw [he]; rfl)
  exact ⟨fun h => hbr .range (Platform.admitOne_of_illegal _ h),
    fun hlen hend hc ha => hbr .bus (Platform.admitOne_eq_bus ⟨hlen, hend⟩ hc ha),
    fun h => hbw .range (Platform.admitOne_of_illegal _ h),
    fun hlen hend hc ha => hbw .bus (Platform.admitOne_eq_bus ⟨hlen, hend⟩ hc ha)⟩

/-- Settles O60: legal ranges that share no byte are left to `Platform.admission`, whose answers stop the command. -/
theorem rangesTheModelStopsOn : Obligations.RangesTheModelStopsOn := by
  intro s special srcLegal dstLegal stopsOver
  have hstops : ∀ (i : Instr) (rs : List Region) (named : Nat → Bool) (go : Result),
      exec i s = s.checked (s.platform.admission rs) go →
      (∀ a, named a = true ↔ ∃ r ∈ rs, r.contains a = true) → stopsOver i named := by
    intro i rs named go hexec hnamed
    refine ⟨fun hc ⟨a, ha⟩ => ?_, fun hc hadm ⟨a, ha, hsp⟩ => ?_⟩
    · obtain ⟨r, hr, hra⟩ := (hnamed a).1 ha
      rw [hexec, Platform.admission_eq_stuck hc hr hra]
      rfl
    · obtain ⟨r, hr, hra⟩ := (hnamed a).1 ha
      rw [hexec, Platform.admission_eq_device hc hr hra (fun q hq x hx => hadm x ((hnamed x).2 ⟨q, hq, hx⟩))
        ((s.platform.special_iff a).2 hsp)]
      rfl
  refine ⟨fun i hi hsrc hdst hdisj => ?_, fun hsrc => ?_, fun hdst => ?_⟩
  · obtain ⟨go, hexec⟩ := exec_array_eq_checked s hi
    have hmeets : ¬s.srcRegion.meets s.dstRegion = true := by
      rw [Region.meets_iff]
      rintro ⟨a, hs, hd⟩
      exact absurd (hd.symm.trans (hdisj a hs)) (by decide)
    rw [State.arrayAdmission_of_legal ((legalRange_iff _ _).2 hsrc) ((legalRange_iff _ _).2 hdst), if_neg hmeets] at hexec
    exact hstops i _ _ go hexec (by simp)
  · have hexec := exec_brInit_eq_checked s
    rw [Platform.admitOne_of_legal _ hsrc] at hexec
    exact hstops .brInit _ _ _ hexec (by simp [State.srcRegion])
  · have hexec := exec_bwInit_eq_checked s
    rw [Platform.admitOne_of_legal _ hdst] at hexec
    exact hstops .bwInit _ _ _ hexec (by simp [State.dstRegion])

/-- Settles O24: BR.INIT behind a check that passes. -/
theorem brInitBindsTheReader : Obligations.BrInitBindsTheReader := by
  intro s hpass
  rw [exec_brInit_eq_checked, hpass]
  rfl

end Sys2Proof.Machine

/-! The BitReader commands on a ready reader (41_bitreader.md R130 to R142): what each does with enough bits left and with too
few, the value of the bits it returns, runs of reads, then the statements. -/

namespace Sys2Proof.Machine

open Sys2Proof

/-! ## Commands on a ready reader -/

/-- The state after a read of `n` bits that are there (R132). -/
def State.afterRead (s : State) (n : Nat) : State :=
  { s with
    err := 0, short := false, result := s.nextBits n
    br := { s.br with pos := s.br.pos + BitVec.ofNat 64 n }
    ms := { s.ms with draws := s.ms.draws + n } }

section
variable {s : State} {n : Nat}

theorem State.brReady_of_br_ready (h : s.br.ready) : s.brReady = none := State.brReady_of_ready h.1 h.2

theorem State.brTake_of_fits (h : s.br.ready) (hn : s.br.pos.toNat + n ≤ 8 * s.br.len.toNat) :
    s.brTake n = .next (s.afterRead n) := by
  have hrem : ¬s.br.remaining < n := by
    unfold BitReader.remaining
    omega
  have hpos : BitVec.ofNat 64 (s.br.pos.toNat + n) = s.br.pos + BitVec.ofNat 64 n := by
    rw [BitVec.ofNat_add, BitVec.ofNat_toNat, BitVec.setWidth_eq]
  rw [State.brTake, State.brReady_of_br_ready h]
  simp only [if_neg hrem, hpos]
  rfl

theorem State.brTake_of_short (h : s.br.ready) (hn : s.br.remaining < n) :
    s.brTake n = .next (s.raise .reader .underrun) := by
  rw [State.brTake, State.brReady_of_br_ready h]
  exact if_pos hn

theorem State.brReport_of_ready (h : s.br.ready) (v : Word) : s.brReport v = .next (s.answer v) := by
  rw [State.brReport, State.brReady_of_br_ready h]

theorem execBrPeek_of_fits (h : s.br.ready) (hn : 8 ≤ s.br.remaining) :
    execBrPeek s = .next ((s.spend 8).answer (s.nextBits 8)) := by
  rw [execBrPeek, State.brReady_of_br_ready h]
  exact if_neg (Nat.not_lt.2 hn)

theorem execBrPeek_of_short (h : s.br.ready) (hn : s.br.remaining < 8) :
    execBrPeek s = .next (s.raise .reader .underrun) := by
  rw [execBrPeek, State.brReady_of_br_ready h]
  exact if_pos hn

end

theorem exec_brRead_of_fits {s : State} {n : BitVec 7} (h : s.br.ready) (hn : 1 ≤ n.toNat ∧ n.toNat ≤ 64)
    (hfit : s.br.pos.toNat + n.toNat ≤ 8 * s.br.len.toNat) : exec (.brRead n) s = .next (s.afterRead n.toNat) :=
  (execBrRead_of_legal hn.1 hn.2 s).trans (State.brTake_of_fits h hfit)

theorem exec_readbit_eq_read (s : State) : exec .brReadbit s = exec (.brRead 1) s :=
  (execBrRead_of_legal (n := 1) (by decide) (by decide) s).symm

/-- A read that succeeds had its bits (R132). -/
theorem fits_of_brRead_success {s t : State} {n : BitVec 7} (hn : 1 ≤ n.toNat) (h : exec (.brRead n) s = .next t)
    (herr : t.err = 0) : s.br.pos.toNat + n.toNat ≤ 8 * s.br.len.toNat := by
  obtain ⟨-, heq⟩ | ⟨-, h⟩ := execBrRead_next h
  · exact absurd herr (State.err_ne_zero_of_raise heq)
  · obtain ⟨e, -, heq⟩ | ⟨-, -, heq⟩ | ⟨-, hrem, -⟩ := s.brTake_next h
    · exact absurd herr (State.err_ne_zero_of_raise heq)
    · exact absurd herr (State.err_ne_zero_of_raise heq)
    · unfold BitReader.remaining at hrem
      omega

/-! ## The value of the bits -/

theorem toNat_ofNat_val {bs : List Bool} (h : bs.length ≤ 64) : (BitVec.ofNat 64 (val bs)).toNat = val bs := by
  rw [BitVec.toNat_ofNat, Nat.mod_eq_of_lt]
  exact (val_lt bs).trans_le (Nat.pow_le_pow_right (by decide) h)

/-- The value of two strings one after the other, as words (R16). -/
theorem ofNat_val_append {x y : List Bool} (h : x.length + y.length ≤ 64) :
    BitVec.ofNat 64 (val (x ++ y)) = (BitVec.ofNat 64 (val x) <<< y.length) ||| BitVec.ofNat 64 (val y) := by
  have hx : val x <<< y.length < 2 ^ 64 := by
    rw [Nat.shiftLeft_eq]
    calc val x * 2 ^ y.length < 2 ^ x.length * 2 ^ y.length :=
          Nat.mul_lt_mul_of_pos_right (val_lt x) (Nat.two_pow_pos _)
      _ = 2 ^ (x.length + y.length) := (Nat.pow_add 2 _ _).symm
      _ ≤ 2 ^ 64 := Nat.pow_le_pow_right (by decide) h
  apply BitVec.eq_of_toNat_eq
  rw [toNat_ofNat_val (by simpa using h), BitVec.toNat_or, BitVec.toNat_shiftLeft, toNat_ofNat_val (by omega),
    toNat_ofNat_val (by omega), Nat.mod_eq_of_lt hx, val_append, ← Nat.shiftLeft_add_eq_or_of_lt (val_lt y),
    Nat.shiftLeft_eq]

/-- Bit `j` of a string from its value (R16). -/
theorem getElem?_eq_getLsbD_val {bs : List Bool} {j : Nat} (h : bs.length ≤ 64) (hj : j < bs.length) :
    bs[j]? = some ((BitVec.ofNat 64 (val bs)).getLsbD (bs.length - 1 - j)) := by
  have hbit := testBit_eq_getElem_bitsN bs.length (val bs) j hj
  rw [bitsN_val] at hbit
  rw [hbit, BitVec.getLsbD_ofNat, decide_eq_true (by omega : bs.length - 1 - j < 64), Bool.true_and]

section
variable {s : State} {n : Nat}

@[simp] theorem State.length_sourceStream (s : State) : s.sourceStream.length = 8 * s.br.len.toNat := by
  simp [State.sourceStream]

theorem State.toNat_nextBits_lt (s : State) (hn : n ≤ 64) : (s.nextBits n).toNat < 2 ^ n := by
  have hlt := val_lt (s.readerBits s.br.pos.toNat s.ms.draws n)
  rw [s.length_readerBits] at hlt
  rwa [State.nextBits, toNat_ofNat_val (by rwa [s.length_readerBits])]

/-- A reader none of whose source has been written returns the next bits of its stream (R52, R130). -/
theorem State.nextBits_of_clean (hs : s.ms.stale = []) (hn : s.br.pos.toNat + n ≤ 8 * s.br.len.toNat) :
    s.nextBits n = BitVec.ofNat 64 (val ((s.sourceStream.drop s.br.pos.toNat).take n)) := by
  rw [State.nextBits, State.readerBits_of_clean hs _ _ hn]
  rfl

/-- Each bit of a byte that is not recorded as written is the source's (R300). -/
theorem State.getElem?_sourceStream {j : Nat} (hn : n ≤ 64) (hfit : s.br.pos.toNat + n ≤ 8 * s.br.len.toNat) (hj : j < n)
    (hclean : (s.br.pos.toNat + j) / 8 ∉ s.ms.stale) :
    s.sourceStream[s.br.pos.toNat + j]? = some ((s.nextBits n).getLsbD (n - 1 - j)) := by
  have hread := s.getElem?_readerBits s.br.pos.toNat s.ms.draws n j hj
  have hbit : s.readerBit (s.br.pos.toNat + j) (s.ms.draws + j)
      = Memory.streamBit s.ms.cells s.br.base.toNat (s.br.pos.toNat + j) := by simp [State.readerBit, hclean]
  have hval := getElem?_eq_getLsbD_val (bs := s.readerBits s.br.pos.toNat s.ms.draws n) (j := j)
    (by rwa [s.length_readerBits]) (by rwa [s.length_readerBits])
  rw [s.length_readerBits, hread, hbit] at hval
  rw [State.sourceStream, getElem?_stream_bytes _ _ _ _ (by omega), hval]
  rfl

end

/-! ## Runs of reads -/

theorem BitReader.toNat_advance {br : BitReader} {n : Nat} (hr : br.ready) (hb : br.inBounds)
    (hn : br.pos.toNat + n ≤ 8 * br.len.toNat) : (br.pos + BitVec.ofNat 64 n).toNat = br.pos.toNat + n := by
  obtain ⟨-, hrange, -⟩ := hb
  obtain ⟨hlen, -⟩ := hrange hr.1
  have hmax : br.len.toNat ≤ 2 ^ 61 - 1 := hlen
  rw [BitVec.toNat_add, BitVec.toNat_ofNat, Nat.mod_eq_of_lt (a := n) (by omega), Nat.mod_eq_of_lt (by omega)]

/-- A read keeps the reader within its bounds (R50). -/
theorem BitReader.inBounds_afterRead {s : State} {n : Nat} (hr : s.br.ready) (hb : s.br.inBounds)
    (hn : s.br.pos.toNat + n ≤ 8 * s.br.len.toNat) : (s.afterRead n).br.inBounds := by
  obtain ⟨hbound, hrange, hpos⟩ := hb
  refine ⟨hbound, hrange, fun _ _ => ?_⟩
  change (s.br.pos + BitVec.ofNat 64 n).toNat ≤ 8 * s.br.len.toNat
  rwa [BitReader.toNat_advance hr ⟨hbound, hrange, hpos⟩ hn]

/-- Reads of an unwritten source that ask for no more than the bits left succeed and return them in order (R141). -/
theorem State.readRun_of_fits (ns : List (BitVec 7)) {s : State} (hr : s.br.ready) (hb : s.br.inBounds)
    (hs : s.ms.stale = []) (hn : ∀ n ∈ ns, 1 ≤ n.toNat ∧ n.toNat ≤ 64)
    (hfit : s.br.pos.toNat + (ns.map BitVec.toNat).sum ≤ 8 * s.br.len.toNat) :
    ∃ t, s.readRun ns = some ((s.sourceStream.drop s.br.pos.toNat).take (ns.map BitVec.toNat).sum, t)
      ∧ t.br = { s.br with pos := BitVec.ofNat 64 (s.br.pos.toNat + (ns.map BitVec.toNat).sum) }
      ∧ t.ms.cells = s.ms.cells := by
  induction ns generalizing s with
  | nil =>
    refine ⟨s, rfl, ?_, rfl⟩
    rw [List.map_nil, List.sum_nil, Nat.add_zero, BitVec.ofNat_toNat, BitVec.setWidth_eq]
  | cons n ns ih =>
    rw [List.map_cons, List.sum_cons] at hfit ⊢
    have hn1 := hn n (.head _)
    have hfirst : s.br.pos.toNat + n.toNat ≤ 8 * s.br.len.toNat := by omega
    have hpos : (s.afterRead n.toNat).br.pos.toNat = s.br.pos.toNat + n.toNat :=
      BitReader.toNat_advance hr hb hfirst
    obtain ⟨t, hrun, hbr, hcells⟩ := ih (s := s.afterRead n.toNat) hr (BitReader.inBounds_afterRead hr hb hfirst) hs
      (fun m hm => hn m (.tail _ hm)) (by rw [hpos, Nat.add_assoc]; exact hfit)
    refine ⟨t, ?_, ?_, hcells⟩
    · have hbits : bitsN n.toNat (s.afterRead n.toNat).result.toNat
          = (s.sourceStream.drop s.br.pos.toNat).take n.toNat := by
        have hlen : ((s.sourceStream.drop s.br.pos.toNat).take n.toNat).length = n.toNat := by
          rw [List.length_take, List.length_drop, s.length_sourceStream]
          omega
        have hself := bitsN_val ((s.sourceStream.drop s.br.pos.toNat).take n.toNat)
        rw [hlen] at hself
        rw [State.afterRead, State.nextBits_of_clean hs hfirst, toNat_ofNat_val (hlen.trans_le hn1.2), hself]
      have hstream : (s.afterRead n.toNat).sourceStream = s.sourceStream := rfl
      rw [State.readRun, exec_brRead_of_fits hr hn1 hfirst]
      simp only [hrun, hbits, hstream, hpos]
      rw [List.take_add, List.drop_drop]
      rfl
    · rw [hbr, hpos, Nat.add_assoc]
      rfl

/-! ## The statements -/

/-- Settles O25: on an unwritten source the bits of `State.afterRead` are the next ones of the stream. -/
theorem brReadReturnsTheNextBits : Obligations.BrReadReturnsTheNextBits := by
  refine ⟨fun s n hr hs h1 h64 hfit => ?_, fun s hr hs hfit => ?_, exec_readbit_eq_read⟩
  · rw [exec_brRead_of_fits hr ⟨h1, h64⟩ hfit, State.afterRead, State.nextBits_of_clean hs hfit]
  · rw [exec, execBrReadbit, State.brTake_of_fits hr hfit, State.afterRead, State.nextBits_of_clean hs hfit]
    rfl

/-- Settles O26: a peek answers with the next bits and leaves the position. -/
theorem brPeekReturnsTheNextByte : Obligations.BrPeekReturnsTheNextByte := by
  intro s hr hs hfit
  have hrem : 8 ≤ s.br.remaining := by
    unfold BitReader.remaining
    omega
  rw [exec, execBrPeek_of_fits hr hrem, State.nextBits_of_clean hs hfit]
  rfl

/-- Settles O27: the three commands that take bits have one answer to too few of them. -/
theorem readPastTheEndFaultsTheReader : Obligations.ReadPastTheEndFaultsTheReader := by
  rintro i k s (⟨n, rfl, h1, h64, rfl⟩ | ⟨rfl, rfl⟩ | ⟨rfl, rfl⟩) hr hshort
  · exact ⟨_, (execBrRead_of_legal h1 h64 s).trans (State.brTake_of_short hr hshort)⟩
  · exact ⟨_, State.brTake_of_short hr hshort⟩
  · exact ⟨_, execBrPeek_of_short hr hshort⟩

/-- Settles O28: each query reports its value, and within the bounds of R50 none of the values wraps. -/
theorem readerQueries : Obligations.ReaderQueries := by
  intro s hr
  have hcount : exec .brCount s = .next (s.answer s.br.pos) := State.brReport_of_ready hr _
  have hremain : exec .brRemain s = .next (s.answer (BitVec.ofNat 64 s.br.remaining)) := State.brReport_of_ready hr _
  have heof : exec .brEof s = .next (s.answer (if s.br.remaining = 0 then 1 else 0)) := State.brReport_of_ready hr _
  refine ⟨hcount, hremain, ⟨_, heof, fun h => if_pos h, fun h => if_neg h⟩, fun hb t u v ht hu hv => ?_⟩
  obtain ⟨-, hrange, hpos⟩ := hb
  obtain ⟨hlen, -⟩ := hrange hr.1
  have hmax : s.br.len.toNat ≤ 2 ^ 61 - 1 := hlen
  have hle := hpos hr.1 hr.2
  have hrem : (BitVec.ofNat 64 s.br.remaining).toNat = 8 * s.br.len.toNat - s.br.pos.toNat := by
    rw [BitVec.toNat_ofNat, BitReader.remaining, Nat.mod_eq_of_lt (by omega)]
  rw [hcount] at ht
  rw [hremain] at hu
  rw [heof] at hv
  cases ht
  cases hu
  cases hv
  simp only [State.answer_result]
  refine ⟨by rw [hrem]; omega, ?_⟩
  by_cases h0 : s.br.remaining = 0
  · simp [h0]
  · have hne : BitVec.ofNat 64 s.br.remaining ≠ 0 := fun hz => h0 (by rw [hz] at hrem; exact hrem.symm)
    simpa [h0] using hne

/-- Settles O29: `execBrRelease` is this update. -/
theorem brReleaseDetachesTheReader : Obligations.BrReleaseDetachesTheReader := fun _ => rfl

/-- Settles O31: the longer read takes the bits of the two, one after the other. -/
theorem splittingARead : Obligations.SplittingARead := by
  intro s t u v a b c hr hb hs ha1 hb1 hc hc64 hread hterr hread' huerr hreadBoth
  have hfit := fits_of_brRead_success ha1 hread hterr
  rw [exec_brRead_of_fits hr ⟨ha1, by omega⟩ hfit] at hread
  cases hread
  have hpos : (s.afterRead a.toNat).br.pos.toNat = s.br.pos.toNat + a.toNat := BitReader.toNat_advance hr hb hfit
  have hfit' := fits_of_brRead_success hb1 hread' huerr
  rw [exec_brRead_of_fits (s := s.afterRead a.toNat) hr ⟨hb1, by omega⟩ hfit'] at hread'
  cases hread'
  have hend : s.br.pos.toNat + a.toNat + b.toNat ≤ 8 * s.br.len.toNat := by rw [← hpos]; exact hfit'
  have hfitBoth : s.br.pos.toNat + c.toNat ≤ 8 * s.br.len.toNat := by omega
  rw [exec_brRead_of_fits hr ⟨by omega, hc64⟩ hfitBoth] at hreadBoth
  cases hreadBoth
  refine ⟨rfl, ?_, ?_⟩
  · simp only [State.afterRead, hc, BitVec.ofNat_add, BitVec.add_assoc]
  · have hfirst : (s.afterRead a.toNat).result
        = BitVec.ofNat 64 (val ((s.sourceStream.drop s.br.pos.toNat).take a.toNat)) := State.nextBits_of_clean hs hfit
    have hsecond : ((s.afterRead a.toNat).afterRead b.toNat).result
        = BitVec.ofNat 64 (val ((s.sourceStream.drop (s.br.pos.toNat + a.toNat)).take b.toNat)) := by
      rw [← hpos]
      exact State.nextBits_of_clean (s := s.afterRead a.toNat) hs hfit'
    have hlenA : ((s.sourceStream.drop s.br.pos.toNat).take a.toNat).length = a.toNat := by
      rw [List.length_take, List.length_drop, s.length_sourceStream]
      omega
    have hlenB : ((s.sourceStream.drop (s.br.pos.toNat + a.toNat)).take b.toNat).length = b.toNat := by
      rw [List.length_take, List.length_drop, s.length_sourceStream]
      omega
    have happend := ofNat_val_append (x := (s.sourceStream.drop s.br.pos.toNat).take a.toNat)
      (y := (s.sourceStream.drop (s.br.pos.toNat + a.toNat)).take b.toNat) (by omega)
    rw [hlenB] at happend
    rw [hfirst, hsecond, ← happend, State.afterRead, State.nextBits_of_clean hs hfitBoth, hc, List.take_add,
      List.drop_drop]

/-- Settles O32: by `State.readRun_of_fits`, whose bits are the whole stream when every bit is asked for. -/
theorem readsReturnTheSource : Obligations.ReadsReturnTheSource := by
  intro s ns hr hb hs hn hfit
  obtain ⟨t, hrun, hbr, hcells⟩ := State.readRun_of_fits ns hr hb hs hn hfit
  refine ⟨t, hrun, hbr, fun a => by rw [State.byteAt, hcells]; rfl, fun hpos hall => ?_⟩
  rw [hrun, hall, hpos]
  have hwhole : s.sourceStream.take (8 * s.br.len.toNat) = s.sourceStream :=
    List.take_of_length_le s.length_sourceStream.le
  exact congrArg (fun bits => some (bits, t)) hwhole

/-- Settles O33: both commands complete with `State.nextBits`, which is exact on every byte that is not recorded. -/
theorem readsOfAWrittenSource : Obligations.ReadsOfAWrittenSource := by
  refine ⟨fun s n hr h1 h64 hfit => ?_, fun s hr hfit => ?_⟩
  · exact ⟨s.nextBits n.toNat, exec_brRead_of_fits hr ⟨h1, h64⟩ hfit, s.toNat_nextBits_lt h64,
      fun j hj hclean => State.getElem?_sourceStream h64 hfit hj hclean⟩
  · have hrem : 8 ≤ s.br.remaining := by
      unfold BitReader.remaining
      omega
    exact ⟨s.nextBits 8, execBrPeek_of_fits hr hrem, s.toNat_nextBits_lt (by decide),
      fun j hj hclean => State.getElem?_sourceStream (by decide) hfit hj hclean⟩

end Sys2Proof.Machine

/-! The BitWriter commands (42_bitwriter.md R160 to R172) byte by byte, host writes to a bound destination and the record of
written source bytes (70_reset_and_hazards.md R300 to R303), then the statements. -/

namespace Sys2Proof.Machine

open Sys2Proof

/-! ## A writer that is not ready -/

theorem State.bwReady_of_unbound {s : State} (hb : s.bw.bound = false) : s.bwReady = some .unbound :=
  (s.bwReady_eq_some_iff .unbound).2 (.inl ⟨hb, rfl⟩)

theorem State.bwReady_of_faulted {s : State} (hb : s.bw.bound = true) (hf : s.bw.fault = true) :
    s.bwReady = some .faulted :=
  (s.bwReady_eq_some_iff .faulted).2 (.inr ⟨hb, hf, rfl⟩)

/-- The commands that ask for a ready writer end in the error of `bw_ready()`, which faults no unit (R161). -/
theorem exec_writer_of_notReady {i : Instr} {s : State} {e : ErrorCode}
    (hi : (∃ n, i = .bwWrite n ∧ 1 ≤ n.toNat ∧ n.toNat ≤ 64) ∨ i = .bwFlush ∨ i = .bwCount) (h : s.bwReady = some e) :
    exec i s = .next (s.raise .none e) := by
  obtain ⟨n, rfl, h1, h64⟩ | rfl | rfl := hi
  · rw [exec, execBwWrite, if_pos ((legalCount_iff n).2 ⟨h1, h64⟩), h]
  · rw [exec, execBwFlush, h]
  · rw [exec, execBwCount, h]

/-! ## A flush -/

section
variable (s : State)

/-- A flush changes the writer's bits and final count, and memory (R161). -/
theorem State.bwFlush_eq : s.bwFlush = { s with
    bw := { s.bw with bits := s.bw.bits ++ zeros ((8 - s.bw.bits.length % 8) % 8)
                      final := BitVec.ofNat 64 (ceil8 s.bw.bits.length) }
    ms := s.bwFlush.ms } := by
  rw [← s.bw.length_padded_div]
  rfl

/-- A flush changes no byte but those it makes final (R161). -/
theorem State.bwFlush_frame (a : Nat)
    (ha : ¬(s.bw.base.toNat + s.bw.final.toNat ≤ a ∧ a < s.bw.base.toNat + ceil8 s.bw.bits.length)) :
    s.bwFlush.byteAt a = s.byteAt a := s.bwFlush_touches.read a (by omega)

theorem State.bwSettle_of_ready {s : State} (h : s.bw.ready) : s.bwSettle = s.bwFlush := by
  obtain ⟨-, -, heq⟩ | ⟨hn, -⟩ := s.bwSettle_eq
  · exact heq
  · exact absurd h hn

theorem State.bwSettle_of_notReady {s : State} (h : ¬s.bw.ready) : s.bwSettle = s := by
  obtain ⟨hb, hf, -⟩ | ⟨-, heq⟩ := s.bwSettle_eq
  · exact absurd ⟨hb, hf⟩ h
  · exact heq

end

/-! ## Commands on a ready writer -/

/-- BW.WRITE of a legal count without room for its bits (R163, R169). -/
theorem exec_bwWrite_of_overflow {s : State} {n : BitVec 7} (h : s.bw.ready) (hn : 1 ≤ n.toNat ∧ n.toNat ≤ 64)
    (hover : 8 * s.bw.cap.toNat < s.bw.bits.length + n.toNat) :
    exec (.bwWrite n) s = .next ((s.raise .writer .capacity).scramble (s.bw.base.toNat + s.bw.final.toNat)
      (s.bw.cap.toNat - s.bw.final.toNat)) := by
  rw [exec, execBwWrite, if_pos ((legalCount_iff n).2 hn), State.bwReady_of_ready h.1 h.2]
  exact if_pos hover

theorem exec_bwRelease_of_ready {s : State} (h : s.bw.ready) :
    exec .bwRelease s = .next ({ s.bwFlush with
      outLen := s.bwFlush.bw.final
      bw := { s.bwFlush.bw with bound := false, fault := false }
      ms := { s.bwFlush.ms with drained := [] } }.complete) := by
  have hguard : (s.bw.bound && !s.bw.fault) = true := by simp [h.1, h.2]
  rw [exec, execBwRelease, State.bwSettle_of_ready h, if_pos hguard]

theorem exec_bwRelease_of_notReady {s : State} (h : ¬s.bw.ready) :
    exec .bwRelease s = .next { s with
      err := 0, short := false, bw := { s.bw with bound := false, fault := false }
      ms := { s.ms with drained := [] } } := by
  have hguard : ¬(s.bw.bound && !s.bw.fault) = true := by simpa [BitWriter.ready] using h
  rw [exec, execBwRelease, State.bwSettle_of_notReady h, if_neg hguard]
  rfl

/-! ## The statements on single commands -/

/-- Settles O35: the flush of a ready writer, then the binding of an empty one. -/
theorem bwInitBindsTheWriter : Obligations.BwInitBindsTheWriter := by
  intro s hpass
  refine ⟨{ s.bwSettle.ms with drained := [] }, ?_, rfl, fun hn => ?_, fun hr k hlo hhi => ?_, fun a ha => ?_⟩
  · rw [exec_bwInit_eq_checked, hpass, s.bwSettle_state]
    rfl
  · rw [State.bwSettle_of_notReady hn]
  · rw [State.bwSettle_of_ready hr]
    exact s.bwFlush_byteAt hlo hhi
  · by_cases hr : s.bw.ready
    · rw [State.bwSettle_of_ready hr]
      exact s.bwFlush_frame a ha
    · rw [State.bwSettle_of_notReady hr]
      rfl

/-- Settles O36: the bits appended are the low ones of ARG, and what the writer stores meanwhile are whole bytes of them. -/
theorem bwWriteAppends : Obligations.BwWriteAppends := by
  intro s n hr h1 h64 hfit
  rw [bitsN_mod]
  have hlen : (s.bwAppend n.toNat).bw.bits.length = s.bw.bits.length + n.toNat := by simp
  refine ⟨(s.bwAppend n.toNat).bwDrain.ms, exec_bwWrite_of_fits hr ⟨h1, h64⟩ hfit, fun k hlo hhi => ?_, fun a ha => ?_⟩
  · have hwhole : k - s.bw.final.toNat
        < (((pack (s.bwAppend n.toNat).bw.bits).take ((s.bwAppend n.toNat).bw.bits.length / 8)).drop
            s.bw.final.toNat).length := by
      rw [length_wholeBytes, hlen]
      omega
    have hread := MemSystem.drain_read s.br (s.bwAppend n.toNat).bw s.ms s.bw.final.toNat _ _ hwhole
    have haddr : (s.bwAppend n.toNat).bw.base.toNat + s.bw.final.toNat + (k - s.bw.final.toNat) = s.bw.base.toNat + k := by
      simp only [State.bwAppend_bw]
      omega
    rw [haddr] at hread
    exact hread.imp_right fun h => (getElem?_wholeBytes hlo h).2
  · refine (s.bwAppend n.toNat).bwDrain_touches.read a ?_
    rw [hlen]
    simp only [State.bwAppend_bw]
    omega

/-- Settles O37: what the error leaves unspecified lies in the bytes of the range that are not final. -/
theorem bwWriteOverflowFaultsTheWriter : Obligations.BwWriteOverflowFaultsTheWriter := by
  intro s n hr h1 h64 hover
  refine ⟨_, exec_bwWrite_of_overflow hr ⟨h1, h64⟩ hover, fun a ha => ?_⟩
  exact (MemSystem.scramble_touches _ _ { s.ms with drained := [] } _ _).read a (by omega)

/-- Settles O38: by the lemmas on a flush. -/
theorem bwFlushMakesEveryByteFinal : Obligations.BwFlushMakesEveryByteFinal := by
  intro s hr
  refine ⟨s.bwFlush.ms, ?_, rfl, fun k hlo hhi => s.bwFlush_byteAt hlo hhi, s.bwFlush_frame⟩
  rw [exec_bwFlush_of_ready hr, State.deliver, BitVec.ofNat_toNat, BitVec.setWidth_eq, s.bwFlush_final, s.bwFlush_eq]

/-- Settles O40: the choice is the parameter's. -/
theorem bwCountReturnsTheBitsWritten : Obligations.BwCountReturnsTheBitsWritten := by
  refine ⟨Config.bwCountPad, fun s hr => ?_⟩
  rw [exec, execBwCount, State.bwReady_of_ready hr.1 hr.2]
  rfl

/-- Settles O41: a ready writer is flushed and reports its final bytes, another one only detached. -/
theorem bwReleaseDetachesTheWriter : Obligations.BwReleaseDetachesTheWriter := by
  refine fun s => ⟨fun hr => ⟨{ s.bwFlush.ms with drained := [] }, ?_, fun k hlo hhi => s.bwFlush_byteAt hlo hhi,
    s.bwFlush_frame⟩, exec_bwRelease_of_notReady⟩
  rw [exec_bwRelease_of_ready hr, s.bwFlush_eq]
  rfl

/-- Settles O42: both errors are the answer of `bw_ready()`. -/
theorem writerNotReady : Obligations.WriterNotReady := by
  refine fun i s hi => ⟨fun hb => ?_, fun hb hf => ?_⟩
  · exact exec_writer_of_notReady hi (State.bwReady_of_unbound hb)
  · exact exec_writer_of_notReady hi (State.bwReady_of_faulted hb hf)

/-! ## Host writes to a bound destination -/

/-- The host writes a byte of memory (R303). -/
theorem step_memWrite_next {s t : State} {a : Word} {b : Byte} {rest : List HostOp} (h : s.host = .memWrite a b :: rest)
    (ht : step s = .next t) : t = { s with host := rest, ms := s.ms.putForeign s.br s.bw a.toNat b } := by
  rw [step_of_host h, hostAccess] at ht
  split at ht
  · cases ht
  · cases ht
    rfl

/-- Only whole bytes that are not final are recorded as stored early, also after a host write (R302 (b), R303 (b)). -/
theorem drained_after_memWrite {s : State} (h : s.Sound) {a k : Nat} {b : Byte}
    (hk : k ∈ (s.ms.putForeign s.br s.bw a b).drained) : 8 * (k + 1) ≤ s.bw.bits.length := by
  obtain ⟨-, hdrained⟩ := h.units.2.2.noteWrite a (Config.freeBit s.ms.draws)
  obtain ⟨-, -, -, hwhole⟩ := hdrained k hk
  exact hwhole

/-- Settles O44: a byte that the flush does not make final keeps the value written; one that it does gets its byte of
`pack(bw.bits)` unless it is recorded as stored, which only a whole byte is. -/
theorem hostWritesToABoundDestination : Obligations.HostWritesToABoundDestination := by
  intro s t u k a b rest hsound hr ha h ht hu
  have heq := step_memWrite_next h ht
  have hbw : t.bw = s.bw := by rw [heq]
  have hms : t.ms = s.ms.putForeign s.br s.bw a.toNat b := by rw [heq]
  rw [exec_bwFlush_of_ready (by rwa [hbw])] at hu
  cases hu
  obtain ⟨-, -, hsize⟩ := hsound.units.2.1
  obtain ⟨-, hfinal, -⟩ := hsize hr.1 hr.2
  have hwritten : t.byteAt a.toNat = b := by
    rw [State.byteAt, hms]
    exact Memory.read_write_same _ _ _
  have hkept : ¬(s.bw.final.toNat ≤ k ∧ k < ceil8 s.bw.bits.length) → t.bwFlush.byteAt a.toNat = b := fun hk => by
    rw [t.bwFlush_frame, hwritten]
    rw [hbw]
    omega
  have hflushed := fun hlo hhi => t.bwFlush_byteAt (k := k) hlo hhi
  rw [hbw, hms, ← ha, hwritten] at hflushed
  have hceil : ceil8 s.bw.bits.length = (s.bw.bits.length + 7) / 8 := rfl
  refine ⟨fun hk => hkept (by omega), fun hlo hhi => ?_, fun hlo hhi => ?_, fun hk => hkept (by omega)⟩
  · have hbyte := hflushed hlo (by omega)
    split at hbyte
    · exact .inl (Option.some.inj hbyte)
    · exact .inr hbyte
  · have hbyte := hflushed (by omega) (by omega)
    rwa [if_neg fun hk => absurd (drained_after_memWrite hsound hk) (by omega)] at hbyte

end Sys2Proof.Machine

/-! The record of written source bytes (70_reset_and_hazards.md R300, R301): the bytes that each write of a stretch of memory
records for the instance's own reader, be the value the same or not, then the statement. -/

namespace Sys2Proof.Machine

open Sys2Proof

/-! ## What a stretch of writes records -/

section
variable {br : BitReader} {bw : BitWriter} {m : MemSystem} {x : Nat}

/-- Every byte of the output of a Gorilla or BSS command is recorded. -/
theorem MemSystem.mem_stale_putAll {a : Nat} {bs : List Byte} (hlo : a ≤ x) (hhi : x < a + bs.length)
    (hc : br.covers x = true) : x - br.base.toNat ∈ (MemSystem.putAll br bw m a bs).stale := by
  induction bs generalizing m a with
  | nil => exact absurd hhi (by simpa using hlo)
  | cons b bs ih =>
    rw [List.length_cons] at hhi
    by_cases hx : x = a
    · subst hx
      exact (MemSystem.Records.putAll br bw _ _ bs).mono _ (BitReader.mem_noteWrite_self hc)
    · exact ih (by omega) (by omega)

/-- Every byte left unspecified is recorded. -/
theorem MemSystem.mem_stale_scramble {a n : Nat} (hlo : a ≤ x) (hhi : x < a + n) (hc : br.covers x = true) :
    x - br.base.toNat ∈ (MemSystem.scramble br bw m a n).stale := by
  induction n generalizing m a with
  | zero => omega
  | succ n ih =>
    by_cases hx : x = a
    · subst hx
      exact (MemSystem.Records.scramble br bw _ _ n).mono _ (BitReader.mem_noteWrite_self hc)
    · exact ih (by omega) (by omega)

/-- Every byte that a flush makes final is recorded. -/
theorem MemSystem.mem_stale_flushBytes {k j : Nat} {bs : List Byte} (hlo : k ≤ j) (hhi : j < k + bs.length)
    (hc : br.covers (bw.base.toNat + j) = true) :
    bw.base.toNat + j - br.base.toNat ∈ (MemSystem.flushBytes br bw m k bs).stale := by
  induction bs generalizing m k with
  | nil => exact absurd hhi (by simpa using hlo)
  | cons b bs ih =>
    rw [List.length_cons] at hhi
    by_cases hj : j = k
    · subst hj
      exact (MemSystem.Records.flushBytes br bw _ _ bs).mono _ (BitReader.mem_noteWrite_self hc)
    · exact ih (by omega) (by omega)

/-- Every byte that the writer newly stores before a flush is recorded. -/
theorem MemSystem.mem_stale_drain {k j : Nat} {bs : List Byte} (hc : br.covers (bw.base.toNat + j) = true)
    (hold : j ∉ m.drained) (hnew : j ∈ (MemSystem.drain br bw m k bs).drained) :
    bw.base.toNat + j - br.base.toNat ∈ (MemSystem.drain br bw m k bs).stale := by
  induction bs generalizing m k with
  | nil => exact absurd hnew hold
  | cons b bs ih =>
    by_cases hnow : j ∈ (m.drainByte br bw k b).drained
    · have hstored : bw.base.toNat + j - br.base.toNat ∈ (m.drainByte br bw k b).stale := by
        unfold MemSystem.drainByte at hnow ⊢
        split at hnow
        case isTrue => exact absurd hnow hold
        case isFalse hk =>
          split at hnow
          case isTrue hf =>
            obtain rfl | hj := mem_insertNat.1 hnow
            · rw [if_neg hk, if_pos hf]
              exact BitReader.mem_noteWrite_self hc
            · exact absurd hj hold
          case isFalse => exact absurd hnow hold
      exact (MemSystem.Records.drain br bw _ _ bs).mono _ hstored
    · exact ih hnow hnew

/-- Writes over the range of a faulted writer record no early store. -/
theorem MemSystem.mem_drained_scramble {a n k : Nat} (hf : bw.fault = true)
    (h : k ∈ (MemSystem.scramble br bw m a n).drained) : k ∈ m.drained := by
  induction n generalizing m a with
  | zero => exact h
  | succ n ih =>
    obtain ⟨hc, -⟩ | hk := BitWriter.mem_noteWrite (ih h)
    · obtain ⟨-, hnf, -⟩ := (bw.awaits_iff a).1 hc
      exact absurd (hf.symm.trans hnf) (by decide)
    · exact hk

end

/-- The bytes that a flush makes final are recorded (R301). -/
theorem State.mem_stale_bwFlush {s : State} {k : Nat} (hlo : s.bw.final.toNat ≤ k) (hhi : k < ceil8 s.bw.bits.length)
    (hc : s.br.covers (s.bw.base.toNat + k) = true) :
    s.bw.base.toNat + k - s.br.base.toNat ∈ s.bwFlush.ms.stale := by
  rw [State.bwFlush_ms]
  refine MemSystem.mem_stale_flushBytes hlo ?_ hc
  rw [List.length_drop, length_pack]
  omega

/-- The three commands that flush a ready writer record the bytes made final. -/
theorem exec_flush_records {i : Instr} {s t : State} {k : Nat} (hi : i = .bwFlush ∨ i = .bwInit ∨ i = .bwRelease)
    (hr : s.bw.ready) (h : exec i s = .next t) (herr : t.err = 0) (hlo : s.bw.final.toNat ≤ k)
    (hhi : k < ceil8 s.bw.bits.length) (hc : s.br.covers (s.bw.base.toNat + k) = true) :
    s.bw.base.toNat + k - s.br.base.toNat ∈ t.ms.stale := by
  have hflush := State.mem_stale_bwFlush hlo hhi hc
  obtain rfl | rfl | rfl := hi
  · rw [exec_bwFlush_of_ready hr] at h
    cases h
    exact hflush
  · obtain ⟨e, -, heq⟩ | ⟨-, rfl⟩ := execBwInit_next h
    · exact absurd herr (State.err_ne_zero_of_raise heq)
    · rw [State.bwSettle_of_ready hr]
      exact hflush
  · rw [exec_bwRelease_of_ready hr] at h
    cases h
    exact hflush

/-- What a BW.WRITE newly records as stored early, it records for the reader too (R84, R301). -/
theorem exec_bwWrite_records {s t : State} {n : BitVec 7} {k : Nat} (h : exec (.bwWrite n) s = .next t)
    (hc : s.br.covers (s.bw.base.toNat + k) = true) (hold : k ∉ s.ms.drained) (hnew : k ∈ t.ms.drained) :
    s.bw.base.toNat + k - s.br.base.toNat ∈ t.ms.stale := by
  obtain ⟨-, rfl⟩ | ⟨-, e, -, rfl⟩ | ⟨-, -, -, rfl⟩ | ⟨-, -, -, rfl⟩ := execBwWrite_next h
  · exact absurd hnew hold
  · exact absurd hnew hold
  · have hnone := MemSystem.mem_drained_scramble rfl hnew
    exact absurd hnone List.not_mem_nil
  · exact MemSystem.mem_stale_drain (bw := (s.bwAppend n.toNat).bw) hc hold hnew

/-- A capacity error of BW.WRITE records every byte it leaves unspecified (R169, R301). -/
theorem exec_bwWrite_overflow_records {s t : State} {n : BitVec 7} {a : Nat} (h : exec (.bwWrite n) s = .next t)
    (herr : t.err = 7) (hlo : s.bw.base.toNat + s.bw.final.toNat ≤ a) (hhi : a < s.bw.base.toNat + s.bw.cap.toNat)
    (hc : s.br.covers a = true) : a - s.br.base.toNat ∈ t.ms.stale := by
  obtain ⟨-, rfl⟩ | ⟨-, e, he, rfl⟩ | ⟨-, -, -, rfl⟩ | ⟨-, -, -, rfl⟩ := execBwWrite_next h
  · exact absurd herr (by decide : ErrorCode.illegal.code ≠ 7)
  · obtain rfl | rfl := State.bwReady_error he
    · exact absurd herr (by decide : ErrorCode.unbound.code ≠ 7)
    · exact absurd herr (by decide : ErrorCode.faulted.code ≠ 7)
  · exact MemSystem.mem_stale_scramble hlo (by omega) hc
  · exact absurd herr (by decide : (0 : Byte) ≠ 7)

/-- A capacity error of GOR.ENC records every byte of the destination range (R202, R301). -/
theorem exec_gorEnc_overflow_records {s t : State} {w : Width} {a : Nat} (h : exec (.gorEnc w) s = .next t)
    (herr : t.err = 7) (hlo : s.dstBase.toNat ≤ a) (hhi : a < s.dstBase.toNat + s.dstCap.toNat)
    (hc : s.br.covers a = true) : a - s.br.base.toNat ∈ t.ms.stale := by
  obtain ⟨e, he, rfl⟩ | ⟨-, rfl⟩ := execGorEnc_next h
  · obtain rfl | rfl | rfl := State.arrayAdmission_error he
    · exact absurd herr (by decide : ErrorCode.range.code ≠ 7)
    · exact absurd herr (by decide : ErrorCode.overlap.code ≠ 7)
    · exact absurd herr (by decide : ErrorCode.bus.code ≠ 7)
  · obtain ⟨-, heq⟩ | ⟨-, -, heq⟩ | ⟨-, -, heq⟩ := s.gorEncode_cases w <;> rw [heq] at herr ⊢
    · exact absurd herr (by decide : ErrorCode.length.code ≠ 7)
    · exact MemSystem.mem_stale_scramble hlo hhi hc
    · exact absurd herr (by decide : (0 : Byte) ≠ 7)

/-- A command that changes a byte is neither BR.INIT nor BR.RELEASE, and records it (R300, R301). -/
theorem exec_records_changed {i : Instr} {s t : State} {a : Nat} (h : exec i s = .next t)
    (hne : t.byteAt a ≠ s.byteAt a) : s.ms.Records s.br t.ms := by
  refine exec_records h ?_ ?_
  · rintro rfl
    exact hne ((exec_touches h nofun).read_of_empty a)
  · rintro rfl
    exact hne ((exec_touches h nofun).read_of_empty a)

/-- An instance that is kept is still there, with its records (R278). -/
theorem Block.KeptBy.exists_of_mem {ps qs : List Block} (h : List.Forall₂ Block.KeptBy ps qs) {p : Block} (hp : p ∈ ps) :
    ∃ q ∈ qs, p.KeptBy q := by
  induction h with
  | nil => cases hp
  | cons hk _ ih =>
    obtain rfl | hp := List.mem_cons.1 hp
    · exact ⟨_, .head _, hk⟩
    · obtain ⟨q, hq, hkept⟩ := ih hp
      exact ⟨q, .tail _ hq, hkept⟩

/-- Settles O34: a changed byte by `MemSystem.Records`, the bytes written with the same value by the lemmas on stretches of
writes. -/
theorem writesToTheBoundSourceAreRecorded : Obligations.WritesToTheBoundSourceAreRecorded := by
  refine ⟨fun s t a b rest h ht => ?_, fun i s t a h hne => ?_, fun i s t a hi h herr hlo hhi hc => ?_,
    fun i s t k hi hr h herr hlo hhi hc => exec_flush_records hi hr h herr hlo hhi hc, fun s t n k h hc => ?_,
    fun s t n a h herr hlo hhi hc => exec_bwWrite_overflow_records h herr hlo hhi hc,
    fun s t w a h herr hlo hhi hc => exec_gorEnc_overflow_records h herr hlo hhi hc,
    fun i s t k h hi hr hk => (exec_records h hi hr).mono k hk, fun i s t h p hp => ?_⟩
  · rw [step_memWrite_next h ht]
    exact ⟨BitReader.mem_noteWrite_self, fun p hp => stale_noteWrites hp⟩
  · have hrec := exec_records_changed h hne
    exact ⟨hrec.own a hne, hrec.other a hne⟩
  · obtain rfl := exec_array_success hi h herr
    have hlen := toNat_ofNat_le (s.arrayBytes i).length
    exact MemSystem.mem_stale_putAll hlo (hhi.trans_le (Nat.add_le_add_left hlen _)) hc
  · by_cases hold : k ∈ s.ms.drained
    · exact .inl fun _ => hold
    · by_cases hnew : k ∈ t.ms.drained
      · exact .inr (exec_bwWrite_records h hc hold hnew)
      · exact .inl fun hk => absurd hk hnew
  · obtain ⟨q, hq, hkept⟩ := Block.KeptBy.exists_of_mem (exec_keeps_others h) hp
    exact ⟨q, hq, hkept.registers, hkept.stale⟩

end Sys2Proof.Machine

/-! The Gorilla stream and its decoding, the errors and the output of the Gorilla and BSS commands (43_gorilla.md R190 to R214,
44_bytestreamsplit.md R240 to R243), then the statements. -/

namespace Sys2Proof.Machine

open Sys2Proof

/-! ## The stream -/

/-- The length of the stream of at least one word (R190, R201). -/
theorem length_gorillaEncode_cons (w : Width) (x : Nat) (xs : List Nat) :
    (gorillaEncode w (x :: xs)).length = 8 + w.bytes + ceil8 (encTail w .initial x xs).length := by
  simp [gorillaEncode, Nat.add_assoc]

theorem ceil8_mono {a b : Nat} (h : a ≤ b) : ceil8 a ≤ ceil8 b := by
  unfold ceil8
  omega

/-! ## The decode loop -/

section
variable {w : Width} {win win' : Window} {prev n x : Nat} {bits rest : List Bool}

/-- The loop on an item that decodes goes on from the word it gives (R206). -/
theorem decTail_of_item (hne : bits ≠ []) (h : decItem w win bits = .ok (x, win', rest)) :
    decTail w (n + 1) win prev bits
        = (decTail w n win' (prev ^^^ x) rest).map (fun p => ((prev ^^^ x) :: p.1, p.2))
      ∧ decWords w (n + 1) win prev bits = (prev ^^^ x) :: decWords w n win' (prev ^^^ x) rest := by
  cases bits with
  | nil => exact absurd rfl hne
  | cons b bits =>
    rw [decTail, decWords, h]
    refine ⟨?_, rfl⟩
    cases htail : decTail w n win' (prev ^^^ x) rest <;> simp only [htail] <;> rfl

/-- The loop stops at an item that fails (R211). -/
theorem decTail_of_item_error {e : ErrorCode} (hne : bits ≠ []) (h : decItem w win bits = .error e) :
    decTail w (n + 1) win prev bits = .error e ∧ decWords w (n + 1) win prev bits = [] := by
  cases bits with
  | nil => exact absurd rfl hne
  | cons b bits => rw [decTail, decWords, h]; exact ⟨rfl, rfl⟩

end

/-! ## Bits after an item -/

theorem takeVal_append {n v : Nat} {s r : List Bool} (more : List Bool) (h : takeVal n s = .ok (v, r)) :
    takeVal n (s ++ more) = .ok (v, r ++ more) := by
  rw [takeVal_eq] at h
  split at h
  case isTrue hle =>
    cases h
    rw [takeVal_of_le (by rw [List.length_append]; omega), List.take_append_of_le_length hle,
      List.drop_append_of_le_length hle]
  case isFalse => cases h

theorem decPayload_append {win win' : Window} {x : Nat} {s r : List Bool} (more : List Bool)
    (h : decPayload win s = .ok (x, win', r)) : decPayload win (s ++ more) = .ok (x, win', r ++ more) := by
  unfold decPayload at h
  split at h
  case h_1 v r' hv =>
    cases h
    rw [decPayload, takeVal_append more hv]
  case h_2 => cases h

theorem decNewWindow_append {w : Width} {win' : Window} {x : Nat} {s r : List Bool} (more : List Bool)
    (h : decNewWindow w s = .ok (x, win', r)) : decNewWindow w (s ++ more) = .ok (x, win', r ++ more) := by
  unfold decNewWindow at h
  split at h
  case h_1 => cases h
  case h_2 lz r1 hlz =>
    split at h
    case h_1 => cases h
    case h_2 db r2 hdb =>
      split at h
      case isTrue => cases h
      case isFalse hok =>
        rw [decNewWindow, takeVal_append more hlz]
        simp only [takeVal_append more hdb, if_neg hok]
        exact decPayload_append more h

/-- An item that decodes does so whatever follows it (R212). -/
theorem decItem_append {w : Width} {win win' : Window} {x : Nat} {s r : List Bool} (more : List Bool)
    (h : decItem w win s = .ok (x, win', r)) : decItem w win (s ++ more) = .ok (x, win', r ++ more) := by
  unfold decItem at h
  split at h
  case h_1 | h_3 => cases h
  case h_2 r' =>
    cases h
    rfl
  case h_4 r' =>
    split at h
    case isTrue => cases h
    case isFalse hdb => exact (decItem_reuse (r' ++ more) hdb).trans (decPayload_append more h)
  case h_5 r' => exact decNewWindow_append more h

/-- A loop that produces its full count does so whatever follows the last item (R212). -/
theorem decTail_append {w : Width} {n : Nat} {win : Window} {prev : Nat} {s : List Bool} {ys : List Nat}
    (more : List Bool) (h : decTail w n win prev s = .ok (ys, false)) :
    decTail w n win prev (s ++ more) = .ok (ys, false) := by
  induction n generalizing win prev s ys with
  | zero => exact h
  | succ n ih =>
    cases s with
    | nil => simp [decTail] at h
    | cons b s =>
      rw [decTail] at h
      split at h
      case h_1 => cases h
      case h_2 x win' r hitem =>
        split at h
        case h_1 => cases h
        case h_2 zs short htail =>
          cases h
          obtain ⟨hloop, -⟩ := decTail_of_item (n := n) (prev := prev) (by simp) (decItem_append more hitem)
          rw [hloop, ih htail]
          rfl

/-! ## Commands whose checks pass -/

theorem exec_gorEnc_of_pass {s : State} (w : Width) (h : s.arrayAdmission = .pass) :
    exec (.gorEnc w) s = .next (s.gorEncode w) := by
  rw [exec, execGorEnc, h]

theorem State.gorEncode_of_fits {s : State} {w : Width} (hmod : s.srcLen.toNat % w.bytes = 0)
    (hcap : (gorillaEncode w (s.srcWords w)).length ≤ s.dstCap.toNat) :
    s.gorEncode w = (s.store s.dstBase.toNat (gorillaEncode w (s.srcWords w))).deliver
      (gorillaEncode w (s.srcWords w)).length false := by
  rw [State.gorEncode, if_neg (by omega), if_neg (by omega)]

theorem State.gorEncode_of_overflow {s : State} {w : Width} (hmod : s.srcLen.toNat % w.bytes = 0)
    (hcap : s.dstCap.toNat < (gorillaEncode w (s.srcWords w)).length) :
    s.gorEncode w = (s.scramble s.dstBase.toNat s.dstCap.toNat).raise .none .capacity := by
  rw [State.gorEncode, if_neg (by omega), if_pos hcap]

section
variable {s : State} {w : Width} (hW : 8 + w.bytes ≤ s.srcLen.toNat) (h0 : s.streamCount ≠ 0)
  (hcap : s.streamCount * w.bytes ≤ s.dstCap.toNat)
include hW h0 hcap

/-- GOR.DEC of a stream whose items decode (R206, R210). -/
theorem State.gorDecode_of_ok {xs : List Nat} {short : Bool}
    (h : decTail w (s.streamCount - 1) .initial (s.streamFirst w) (s.streamTail w) = .ok (xs, short)) :
    s.gorDecode w = (s.store s.dstBase.toNat ((s.streamFirst w :: xs).flatMap (leBytes w.bytes))).deliver
      ((xs.length + 1) * w.bytes) short := by
  rw [State.gorDecode, if_neg (by omega), if_neg h0, if_neg (by omega), if_neg (by omega), h]

/-- GOR.DEC of a stream with an item that fails (R211). -/
theorem State.gorDecode_of_error {e : ErrorCode}
    (h : decTail w (s.streamCount - 1) .initial (s.streamFirst w) (s.streamTail w) = .error e) :
    s.gorDecode w
      = (s.storeSome s.dstBase.toNat ((s.streamWords w).flatMap (leBytes w.bytes))).raise .none e := by
  rw [State.gorDecode, if_neg (by omega), if_neg h0, if_neg (by omega), if_neg (by omega), h]

end

/-! ## The byte planes there and back -/

/-- A BSS command that succeeds moved whole elements (R240, R242). -/
theorem State.bssMove_whole {s : State} {w : Width} {f : Nat → List Byte → List Byte} (herr : (s.bssMove w f).err = 0) :
    s.srcLen.toNat % w.bytes = 0
      ∧ s.bssMove w f
        = (s.store s.dstBase.toNat (f (s.srcLen.toNat / w.bytes) s.srcBytes)).deliver s.srcLen.toNat false := by
  obtain ⟨-, heq⟩ | ⟨-, -, heq⟩ | ⟨hmod, -, heq⟩ := s.bssMove_cases w f
  · exact absurd herr (State.err_ne_zero_of_raise heq)
  · exact absurd herr (State.err_ne_zero_of_raise heq)
  · exact ⟨hmod, heq⟩

/-- A move by `g` of the output of a move by `f`, which `g` undoes, gives the first source back (R243 (a)). -/
theorem State.bssMove_back {s u : State} {w : Width} {f g : Nat → List Byte → List Byte}
    (hf : ∀ n bs, (f n bs).length = n * w.bytes) (hg : ∀ n bs, (g n bs).length = n * w.bytes)
    (hgf : ∀ n bs, bs.length = n * w.bytes → g n (f n bs) = bs) (herr : (s.bssMove w f).err = 0)
    (hlen : u.srcLen = (s.bssMove w f).outLen) (hcap : u.srcLen.toNat ≤ u.dstCap.toNat)
    (hbytes : u.srcBytes = Memory.bytes (s.bssMove w f).ms.cells s.dstBase.toNat (s.bssMove w f).outLen.toNat) :
    (u.bssMove w g).err = 0 ∧ (u.bssMove w g).outLen = s.srcLen
      ∧ Memory.bytes (u.bssMove w g).ms.cells u.dstBase.toNat s.srcLen.toNat = s.srcBytes := by
  obtain ⟨hmod, hmove⟩ := State.bssMove_whole herr
  have hout : (s.bssMove w f).outLen = s.srcLen := by
    rw [hmove, State.deliver_outLen, BitVec.ofNat_toNat, BitVec.setWidth_eq]
  rw [hout] at hlen hbytes
  have hwhole : s.srcLen.toNat = s.srcLen.toNat / w.bytes * w.bytes :=
    (Nat.div_mul_cancel (Nat.dvd_of_mod_eq_zero hmod)).symm
  have hsrc : u.srcBytes = f (s.srcLen.toNat / w.bytes) s.srcBytes := by
    have hlenF : (f (s.srcLen.toNat / w.bytes) s.srcBytes).length = s.srcLen.toNat := (hf _ _).trans hwhole.symm
    have hstored := MemSystem.bytes_putAll s.br s.bw s.ms s.dstBase.toNat (f (s.srcLen.toNat / w.bytes) s.srcBytes)
    rw [hlenF] at hstored
    rw [hbytes, hmove]
    exact hstored
  have hback : g (s.srcLen.toNat / w.bytes) u.srcBytes = s.srcBytes := by
    rw [hsrc]
    exact hgf _ _ (s.length_srcBytes.trans hwhole)
  obtain ⟨m, heq, hstored, -⟩ := State.bssMove_of_fits (s := u) (hg (s.srcLen.toNat / w.bytes) u.srcBytes)
    (by rw [hlen]; exact hwhole) hcap
  rw [heq]
  refine ⟨rfl, hlen, ?_⟩
  rw [hback, hlen, ← s.length_srcBytes] at hstored
  have hread := Memory.bytes_eq_of_read hstored
  rwa [s.length_srcBytes] at hread

/-! ## The statements -/

/-- Settles O47: the stream by its definition, its length by that of the item codes. -/
theorem gorillaStreamFormat : Obligations.GorillaStreamFormat := by
  refine fun w => ⟨rfl, fun _ _ => rfl, fun _ _ => rfl, fun _ _ _ _ => rfl, fun x => ?_, fun x xs hx => ?_, fun x n => ?_⟩
  · simp [length_gorillaEncode_cons, encTail, ceil8]
  · have htail := length_encTail_le xs (hx x (.head _)) (fun y hy => hx y (.tail _ hy)) (Window.fits_initial w)
    rw [length_gorillaEncode_cons]
    exact Nat.add_le_add_left (ceil8_mono htail) _
  · have htail : encTail w ⟨0, 0, 0⟩ x (List.replicate n x) = zeros n := encTail_replicate w _ x n
    refine ⟨?_, htail⟩
    rw [List.replicate_succ, length_gorillaEncode_cons, Window.initial, htail, length_zeros]

/-- Settles O48: the command stores the stream, and a store reads back. -/
theorem gorEncStoresTheStream : Obligations.GorEncStoresTheStream := by
  intro s w hpass hmod hcap
  refine ⟨_, ?_, MemSystem.bytes_putAll s.br s.bw s.ms _ _, (MemSystem.putAll_touches s.br s.bw s.ms _ _).read⟩
  rw [exec_gorEnc_of_pass w hpass, State.gorEncode_of_fits hmod hcap]
  rfl

/-- Settles O49: the length is checked before the capacity, and what GOR.ENC leaves unspecified is its destination. -/
theorem lengthAndCapacityErrors : Obligations.LengthAndCapacityErrors := by
  refine fun s w hpass => ⟨fun hmod i hi => ?_, fun hmod hcap i hi => ?_, fun hmod hcap => ?_⟩
  · obtain rfl | rfl | rfl := hi
    · rw [exec_gorEnc_of_pass w hpass, State.gorEncode, if_pos hmod]
      rfl
    · rw [exec_bssEnc_of_pass w hpass, State.bssMove, if_pos hmod]
      rfl
    · rw [exec_bssDec_of_pass w hpass, State.bssMove, if_pos hmod]
      rfl
  · have hmove : ∀ f, s.bssMove w f = s.raise .none .capacity := fun f => by
      rw [State.bssMove, if_neg (by omega), if_pos hcap]
    obtain rfl | rfl := hi
    · rw [exec_bssEnc_of_pass w hpass, hmove]
      rfl
    · rw [exec_bssDec_of_pass w hpass, hmove]
      rfl
  · refine ⟨_, ?_, (MemSystem.scramble_touches s.br s.bw s.ms s.dstBase.toNat s.dstCap.toNat).read⟩
    rw [exec_gorEnc_of_pass w hpass, State.gorEncode_of_overflow hmod hcap]
    rfl

/-- Settles O50: the four header checks, in the order of the branches of `State.gorDecode`. -/
theorem gorDecHeader : Obligations.GorDecHeader := by
  intro s w hpass
  have hcount : Memory.word s.ms.cells s.srcBase.toNat 8 = s.streamCount := rfl
  rw [exec_gorDec_of_pass w hpass, State.gorDecode, hcount]
  refine ⟨fun h8 => ?_, fun h8 h0 => ?_, fun h8 hW h0 => ?_, fun hW hcap => ?_⟩
  · rw [if_pos h8]
    rfl
  · rw [if_neg (by omega), if_pos h0]
    rfl
  · rw [if_neg (by omega), if_neg h0, if_pos hW]
    rfl
  · have h0 : s.streamCount ≠ 0 := fun h => by simp [h] at hcap
    rw [if_neg (by omega), if_neg h0, if_neg (by omega), if_pos hcap]
    rfl

/-- Settles O52: the command stores the words, a store reads back, and SHORT is the loop's. -/
theorem gorDecStoresTheWords : Obligations.GorDecStoresTheWords := by
  intro s w xs short hpass hW h0 hcap htail
  obtain ⟨hle, hshort⟩ := decTail_length htail
  have hlen : ((s.streamFirst w :: xs).flatMap (leBytes w.bytes)).length = (xs.length + 1) * w.bytes :=
    length_flatMap_leBytes _ _
  have hstored := MemSystem.bytes_putAll s.br s.bw s.ms s.dstBase.toNat ((s.streamFirst w :: xs).flatMap (leBytes w.bytes))
  have hframe := (MemSystem.putAll_touches s.br s.bw s.ms s.dstBase.toNat
    ((s.streamFirst w :: xs).flatMap (leBytes w.bytes))).read
  rw [hlen] at hstored hframe
  refine ⟨_, ?_, hstored, hframe, by omega, hshort.trans (by omega)⟩
  rw [exec_gorDec_of_pass w hpass, State.gorDecode_of_ok hW h0 hcap htail]
  rfl

/-- Settles O53: the command stores some of the words that the loop produced. -/
theorem gorDecItemErrors : Obligations.GorDecItemErrors := by
  intro s w e hpass hW h0 hcap htail xs
  have hitem := decTail_error htail
  have hlen : (xs.flatMap (leBytes w.bytes)).length = xs.length * w.bytes := length_flatMap_leBytes _ _
  have hread := MemSystem.putSome_read s.br s.bw s.ms s.dstBase.toNat (xs.flatMap (leBytes w.bytes))
  have hframe := (MemSystem.putSome_touches s.br s.bw s.ms s.dstBase.toNat (xs.flatMap (leBytes w.bytes))).read
  rw [hlen] at hread hframe
  refine ⟨hitem, s.length_streamWords_le w h0, _, ?_, hread, hframe⟩
  rw [exec_gorDec_of_pass w hpass, State.gorDecode_of_error hW h0 hcap htail]
  obtain rfl | rfl := hitem <;> rfl

/-- Settles O54: the loop's equations item by item, and an item decodes the same whatever follows it. -/
theorem gorillaDecodeLoop : Obligations.GorillaDecodeLoop := by
  refine fun w win prev => ⟨fun _ => rfl, fun _ => rfl, fun n bits x win' rest ys short hne hitem htail => ?_,
    fun n bits e hne hitem => decTail_of_item_error hne hitem, fun n bits x win' rest e hne hitem htail => ?_,
    fun n bits ys more h => decTail_append more h⟩
  · obtain ⟨hloop, -⟩ := decTail_of_item (n := n) (prev := prev) hne hitem
    rw [hloop, htail]
    rfl
  · obtain ⟨hloop, hwords⟩ := decTail_of_item (n := n) (prev := prev) hne hitem
    refine ⟨?_, hwords⟩
    rw [hloop, htail]
    rfl

/-- Settles O57: joining and splitting the planes undo each other. -/
theorem bssRoundTrip : Obligations.BssRoundTrip := by
  have hsplit : ∀ (w n : Nat) (bs : List Byte), (bssSplit w n bs).length = n * w := fun w n bs => by
    rw [length_bssSplit, Nat.mul_comm]
  rintro s t u w i j (⟨rfl, rfl⟩ | ⟨rfl, rfl⟩) hexec herr hpass hlen hcap hbytes
  · obtain ⟨e, -, heq⟩ | ⟨-, rfl⟩ := execBssEnc_next hexec
    · exact absurd herr (State.err_ne_zero_of_raise heq)
    · refine ⟨_, exec_bssDec_of_pass w hpass, State.bssMove_back (hsplit _) (length_bssJoin _)
        (fun n bs h => bssJoin_bssSplit h) herr hlen hcap hbytes⟩
  · obtain ⟨e, -, heq⟩ | ⟨-, rfl⟩ := execBssDec_next hexec
    · exact absurd herr (State.err_ne_zero_of_raise heq)
    · refine ⟨_, exec_bssEnc_of_pass w hpass, State.bssMove_back (length_bssJoin _) (hsplit _)
        (fun n bs h => bssSplit_bssJoin h) herr hlen hcap hbytes⟩

end Sys2Proof.Machine
